-- ==== Sys2Proof/Word.lean ====
section
/-! DEFINITION. The value types of the LZ78 codec core: bytes, codes, words and counters. -/

namespace Sys2Proof

/-- A value of width 8 (R11). Symbols are bytes (`SYM_BITS = 8`, R6). -/
abbrev Byte := BitVec 8

/-- A code register (`CODE_BITS = 16`, R6, D4). -/
abbrev Code := BitVec 16

/-- A word is a finite sequence of bytes (R11). -/
abbrev Word := List Byte

/-- A counter (`CTR_BITS = 64`, R6, D18); it wraps modulo `2^64` (R28, R35). -/
abbrev Count := BitVec 64

end Sys2Proof
end

