-- ==== Sys2Proof/Config.lean ====
section
/-! DEFINITION. The parameters of a build (R6, R7) and the free values. -/

namespace Sys2Proof

/-- The parameters of one build (R6). The fixed rows of R6 (`ALPHABET`, `SYM_BITS`, `HDR_BYTES`, `CODE_BITS`,
`CTR_BITS`) are the widths of the types of Word.lean and the six bytes of the header. The reserved codes stay
symbolic, as U2 and G4 ask. -/
structure Build where
  /-- `EMPTY_CODE`: the code of the empty sequence. -/
  emptyCode  : Code
  /-- `STOP_CODE`: the code that ends the pair stream. -/
  stopCode   : Code
  /-- `START_CODE`: the first assignable code. -/
  startCode  : Code
  /-- `MAX_CODE`: the capacity bound; reaching it resets the dictionaries. -/
  maxCode    : Nat
  /-- `MAGIC`: the header constant. -/
  magic      : BitVec 32
  /-- `BLOCK_BYTES`: the size of every block buffer. -/
  blockBytes : Nat
deriving DecidableEq, Repr

/-- The conditions every admitted parameter instance meets (R7). The two conditions on widths
(`CODE_BITS <= 16`, `0 <= MAGIC < 2^32`) hold by the types. -/
abbrev Build.Admitted (b : Build) : Prop :=
  b.emptyCode ≠ b.stopCode ∧ b.emptyCode ≠ b.startCode ∧ b.stopCode ≠ b.startCode ∧
  b.emptyCode.toNat < b.startCode.toNat ∧ b.stopCode.toNat < b.startCode.toNat ∧
  b.startCode.toNat < b.maxCode ∧ b.maxCode ≤ 2 ^ 16 ∧ 1 ≤ b.blockBytes

/-- `MAGIC` is OPEN (R6, D5, U1): a free value, any 32-bit value (log 2). -/
opaque Config.magic : BitVec 32

/-- The result of `PRIM.INCCODE` for an operand outside `START_CODE .. MAX_CODE - 1`, where R126 states none:
a free value, depending on the build and the operand (log 12). -/
opaque Config.incCodeOutside : Build → Code → Code × Bool

/-- The instance the spec fixes (R6), with `MAGIC` free. -/
def Config.build : Build :=
  { emptyCode := 0#16, stopCode := 1#16, startCode := 2#16, maxCode := 65535, magic := Config.magic, blockBytes := 4096 }

end Sys2Proof
end

