-- ==== Sys2Proof/Syntax.lean ====
section
/-! DEFINITION. The operations and stream units of the core: one constructor per row of opcode_table.json (R110, R111). -/

namespace Sys2Proof

/-- The rows of the opcode table, in its order. Operations carry the operands the table lists; a stream unit carries
its fields. -/
inductive Instr where
  /-- `PRIM.BITLEN(n)` (R120). -/
  | primBitlen  (n : Code)
  /-- `PRIM.SWAP16(v)` (R124). -/
  | primSwap16  (v : BitVec 16)
  /-- `PRIM.SWAP32(v)` (R124). -/
  | primSwap32  (v : BitVec 32)
  /-- `PRIM.INCCODE(n)` (R126). -/
  | primInccode (n : Code)
  /-- `BP.PUTBIT(b)` (R130). -/
  | bpPutbit    (x : Bool)
  /-- `BP.WRPAIR(code, sym, w)` (R132, R133). -/
  | bpWrpair    (code : Code) (sym : Byte) (w : Nat)
  /-- `BP.FLUSH` (R134). -/
  | bpFlush
  /-- `BU.GETBIT` (R145). -/
  | buGetbit
  /-- `BU.RDPAIR(w)` (R148). -/
  | buRdpair    (w : Nat)
  /-- `SR.RDSYM` (R160). -/
  | srRdsym
  /-- `WW.WRWORD(word)` (R163). -/
  | wwWrword    (word : Word)
  /-- `WW.FLUSH` (R164). -/
  | wwFlush
  /-- `TRIE.CREATE` (R170). -/
  | trieCreate
  /-- `TRIE.STEP(node, sym)` (R171). -/
  | trieStep    (node : Code) (sym : Byte)
  /-- `TRIE.INSERT(node, sym, code)` (R172). -/
  | trieInsert  (node : Code) (sym : Byte) (code : Code)
  /-- `TRIE.RESET` (R173). -/
  | trieReset
  /-- `C.START` (R174); its operand is sampled from the port `c_prot`. -/
  | cStart
  /-- `C.SYM(s)` (R176). -/
  | cSym        (sym : Byte)
  /-- `C.END` (R180). -/
  | cEnd
  /-- `C.STEP` (R175). -/
  | cStep
  /-- `WT.CREATE` (R190). -/
  | wtCreate
  /-- `WT.LOOKUP(code)` (R191). -/
  | wtLookup    (code : Code)
  /-- `WORD.APPEND(word, sym)` (R192). -/
  | wordAppend  (word : Word) (sym : Byte)
  /-- `WT.STORE(code, word)` (R193). -/
  | wtStore     (code : Code) (word : Word)
  /-- `WT.RESET` (R195). -/
  | wtReset
  /-- `D.START` (R198). -/
  | dStart
  /-- `D.STEP` (R196). -/
  | dStep
  /-- `HDR.WR(prot)` (R210). -/
  | hdrWr       (prot : BitVec 16)
  /-- `HDR.RD` (R212). -/
  | hdrRd
  /-- The stream unit `HDR` (R90). -/
  | hdr         (magic : BitVec 32) (prot : BitVec 16)
  /-- The stream unit `PAIR.DATA`, of code width `w` (R91). -/
  | pairData    (w : Nat) (code : Code) (sym : Byte)
  /-- The stream unit `PAIR.STOP`, of code width `w` (R92); its symbol is 0 as written and ignored as read (R101). -/
  | pairStop    (w : Nat) (sym : Byte)
  /-- The stream unit `PAD`: the bits after the stop pair (R93), 0 as written and never read (R101). -/
  | pad         (bits : List Bool)
deriving DecidableEq, Repr

end Sys2Proof
end

