-- ==== Sys2Proof/WellFormed.lean ====
section
/-! DEFINITION. The operand ranges of the opcode table, as a check on an instruction for a given build. -/

namespace Sys2Proof

/-- A width `BP.WRPAIR` and `BU.RDPAIR` are defined for: `0 <= w <= 16` (R132, R148). -/
def widthAdmitted (w : Nat) : Bool := decide (w ≤ 16)

/-- A width of a pair on a tape: `2 <= w <= 16` (R91). -/
def pairWidth (w : Nat) : Bool := decide (2 ≤ w) && decide (w ≤ 16)

/-- An assignable code: `START_CODE .. MAX_CODE - 1` (R76). -/
def assignable (b : Build) (c : Code) : Bool :=
  decide (b.startCode.toNat ≤ c.toNat) && decide (c.toNat < b.maxCode)

/-- Every operand lies in the range the spec gives it. -/
def Instr.wf (b : Build) : Instr → Bool
  | .primBitlen _ => true
  | .primSwap16 _ => true
  | .primSwap32 _ => true
  | .primInccode n => assignable b n
  | .bpPutbit _ => true
  | .bpWrpair _ _ w => widthAdmitted w
  | .bpFlush => true
  | .buGetbit => true
  | .buRdpair w => widthAdmitted w
  | .srRdsym => true
  | .wwWrword word => !word.isEmpty
  | .wwFlush => true
  | .trieCreate => true
  | .trieStep _ _ => true
  | .trieInsert _ _ code => assignable b code
  | .trieReset => true
  | .cStart => true
  | .cSym _ => true
  | .cEnd => true
  | .cStep => true
  | .wtCreate => true
  | .wtLookup code => code == b.emptyCode || assignable b code
  | .wordAppend _ _ => true
  | .wtStore code _ => assignable b code
  | .wtReset => true
  | .dStart => true
  | .dStep => true
  | .hdrWr _ => true
  | .hdrRd => true
  | .hdr _ _ => true
  | .pairData w code _ => pairWidth w && decide (code.toNat < 2 ^ w) && code != b.stopCode
  | .pairStop w _ => pairWidth w && decide (b.stopCode.toNat < 2 ^ w)
  | .pad bits => decide (bits.length ≤ 7)

end Sys2Proof
end

