-- ==== Sys2Proof/Decode.lean ====
section
/-! DEFINITION. The bit-field helpers of the stream, the decoder of the stream units (by context, R94, R98), and after it
the encoder. Operations have no encoding (R111). -/

namespace Sys2Proof

/-- The `n` low bits of `v`, bit 0 first (R68). -/
def bitsOf (n v : Nat) : List Bool := (List.range n).map (fun i => v.testBit i)

/-- The value of a bit sequence whose first bit is bit 0: the sum of `bit_i * 2^i` (R97). -/
def natOf : List Bool → Nat
  | [] => 0
  | x :: xs => (if x then 1 else 0) + 2 * natOf xs

/-- `unpack(y)`: bit `i` of byte `j` is stream bit `8j + i` (R85, R66). -/
def unpack (y : List Byte) : List Bool := y.flatMap (fun x => bitsOf 8 x.toNat)

/-- Byte `j` of `pack(b)`: bit `i` is `b[8j + i]`, and 0 beyond the end (R85). -/
def packByte (bs : List Bool) (j : Nat) : Byte := BitVec.ofNat 8 (natOf ((bs.drop (8 * j)).take 8))

/-- `pack(b)`: the byte sequence of length `ceil(B / 8)` (R85). -/
def pack (bs : List Bool) : List Byte := (List.range ((bs.length + 7) / 8)).map (packByte bs)

/-- The bits of a pair: `w` code bits, then eight symbol bits, each least significant first (R68, R91). -/
def pairBits (code : Code) (sym : Byte) (w : Nat) : List Bool := bitsOf w code.toNat ++ bitsOf 8 sym.toNat

/-- Where the reader stands in the stream (R94): the grammar gives the unit, and the reader's own counter gives the
width of a pair (R98). -/
inductive Ctx where
  /-- At byte 0 of the tape: the header. -/
  | header
  /-- After the header, before the stop pair has been read: a pair of code width `w`. -/
  | pair (w : Nat)
  /-- After the stop pair: the `n` bits that fill the last byte. -/
  | pad (n : Nat)
deriving DecidableEq, Repr

/-- Why the decoder gives no unit. -/
inductive Reject where
  /-- The bits end inside the unit (R102, R150). -/
  | truncated
  /-- A code width no pair of a tape has (R91). -/
  | widthOutside
  /-- More pad bits than a byte boundary can need (R93). -/
  | padTooLong
deriving DecidableEq, Repr

/-- What the decoder answers: a unit and the bits after it, or a named rejection. -/
inductive Decoded where
  | ok (i : Instr) (rest : List Bool)
  | reject (r : Reject)
deriving DecidableEq, Repr

/-- Reads one stream unit from the front of `bits`. A wrong magic and a code that names no entry are no rejections: the
unit is read, and unit `D` takes the fault (R102, R100). -/
def decode (b : Build) (ctx : Ctx) (bits : List Bool) : Decoded :=
  match ctx with
  | .header =>
    if bits.length < 48 then .reject .truncated
    else .ok (.hdr (BitVec.ofNat 32 (natOf (bits.take 32))) (BitVec.ofNat 16 (natOf ((bits.drop 32).take 16))))
      (bits.drop 48)
  | .pair w =>
    if pairWidth w = false then .reject .widthOutside
    else if bits.length < w + 8 then .reject .truncated
    else
      let code := BitVec.ofNat 16 (natOf (bits.take w))
      let sym := BitVec.ofNat 8 (natOf ((bits.drop w).take 8))
      .ok (if code = b.stopCode then .pairStop w sym else .pairData w code sym) (bits.drop (w + 8))
  | .pad n =>
    if 7 < n then .reject .padTooLong
    else if bits.length < n then .reject .truncated
    else .ok (.pad (bits.take n)) (bits.drop n)

/-- The decoder on bytes, in tape order. -/
def decodeBytes (b : Build) (ctx : Ctx) (y : List Byte) : Decoded := decode b ctx (unpack y)

/-- The bits of a stream unit, first stream bit first (R90 to R93). An operation has none (R111). -/
def encode (b : Build) : Instr → Option (List Bool)
  | .hdr magic prot => some (bitsOf 32 magic.toNat ++ bitsOf 16 prot.toNat)
  | .pairData w code sym => some (pairBits code sym w)
  | .pairStop w sym => some (pairBits b.stopCode sym w)
  | .pad bits => some bits
  | .primBitlen _ | .primSwap16 _ | .primSwap32 _ | .primInccode _ => none
  | .bpPutbit _ | .bpWrpair _ _ _ | .bpFlush | .buGetbit | .buRdpair _ => none
  | .srRdsym | .wwWrword _ | .wwFlush => none
  | .trieCreate | .trieStep _ _ | .trieInsert _ _ _ | .trieReset => none
  | .cStart | .cSym _ | .cEnd | .cStep => none
  | .wtCreate | .wtLookup _ | .wordAppend _ _ | .wtStore _ _ | .wtReset => none
  | .dStart | .dStep | .hdrWr _ | .hdrRd => none

/-- The place in a tape where a stream unit is read; an operation is read nowhere. -/
def ctxOf : Instr → Option Ctx
  | .hdr _ _ => some .header
  | .pairData w _ _ => some (.pair w)
  | .pairStop w _ => some (.pair w)
  | .pad bits => some (.pad bits.length)
  | .primBitlen _ | .primSwap16 _ | .primSwap32 _ | .primInccode _ => none
  | .bpPutbit _ | .bpWrpair _ _ _ | .bpFlush | .buGetbit | .buRdpair _ => none
  | .srRdsym | .wwWrword _ | .wwFlush => none
  | .trieCreate | .trieStep _ _ | .trieInsert _ _ _ | .trieReset => none
  | .cStart | .cSym _ | .cEnd | .cStep => none
  | .wtCreate | .wtLookup _ | .wordAppend _ _ | .wtStore _ _ | .wtReset => none
  | .dStart | .dStep | .hdrWr _ | .hdrRd => none

/-- The context of a row of the opcode table, told by the length of its pattern: 48 bits are the header, a pattern
shorter than a pair whose low two bits are not `STOP_CODE` is the pad (7 bits), everything else a pair at width 2, the
instance the table writes (log 18). -/
def tableCtx (nbits w : Nat) : Ctx :=
  if 48 ≤ nbits then .header else if nbits ≤ 8 ∧ w % 4 ≠ 1 then .pad 7 else .pair 2

/-- The tape bytes of a table word, low byte first, zeros up to the longest stream unit the table spells out (the
header, 6 bytes). -/
def tableBytes (w : Nat) : List Byte := (List.range 6).map (fun j => BitVec.ofNat 8 (w / 2 ^ (8 * j)))

/-- The unit the decoder reads from a table word, laid out on the tape, with the spec's own parameter instance. -/
def decodeTableWord (nbits w : Nat) : Option Instr :=
  match decodeBytes Config.build (tableCtx nbits w) (tableBytes w) with
  | .ok i _ => some i
  | .reject _ => none

end Sys2Proof
end

