-- ==== Sys2Proof/Machine/State.lean ====
section
/-! DEFINITION. The state of the core: the build's constants, unit `C`, unit `D`, the events still to come, and the result
the last operation returned; the reasons a step can stop; the state after reset (R43). -/

namespace Sys2Proof.Machine

/-- The phase of a unit (R38; log 19). -/
inductive Phase where
  /-- After reset, before launch. -/
  | idle
  /-- The unit steps once per symbol or per pair. -/
  | run
  /-- The run ended and every output byte is on the output tape. -/
  | done
  /-- The run ended on a fault. -/
  | fault
deriving DecidableEq, Repr

/-- The cause a status register holds (R220). Values 6 and 7 are never held (U12; log 19). -/
inductive Cause where
  | none
  | badMagic
  | hdrShort
  | corruptTrunc
  | corruptCode
  /-- Reserved: no operation of this hardware raises it (R226). -/
  | oom
deriving DecidableEq, Repr

/-- A sparse map by natural key, in ascending order without repeats. -/
abbrev Store (α : Type) := List (Nat × α)

/-- A block buffer: its bytes by byte index, sparse (R64). An unlisted byte reads as 0 (log 4). -/
abbrev Memory := List Host.Cell

/-- The trie store (R24, R62): a node and a symbol make one key (`trieKey`). -/
abbrev TrieStore := Store Code

/-- The word table (R31, R63): a slot not listed is `absent`. -/
abbrev WordTable := Store Word

/-- An input tape with its read position (R65). -/
structure InTape where
  bytes : List Byte
  pos   : Nat
deriving DecidableEq, Repr

/-- Unit `C`, the compressor (R20): ports (R21) and state (R23, R24, R26 to R29). -/
structure CUnit where
  /-- `c_go` (R21): the launch pin. -/
  go        : Bool
  /-- `c_prot` (R21): the permission pins. -/
  protPin   : BitVec 16
  /-- `c_phase` (R38). -/
  phase     : Phase
  /-- `c_status` (R29). -/
  status    : Cause
  /-- `c_cur` (R23). -/
  cur       : Code
  /-- `c_par` (R23). -/
  par       : Code
  /-- `c_lsym` (R23). -/
  lsym      : Byte
  /-- `c_next` (R23). -/
  next      : Code
  /-- `TRIE` (R24). -/
  trie      : TrieStore
  /-- `bp_buf` (R26). -/
  bpBuf     : Memory
  /-- `bp_idx` (R26). -/
  bpIdx     : Nat
  /-- `sr_buf` (R27). -/
  srBuf     : Memory
  /-- `sr_idx` (R27). -/
  srIdx     : Nat
  /-- `sr_end` (R27). -/
  srEnd     : Nat
  /-- `c_total_syms` (R28). -/
  totalSyms : Count
  /-- `c_total_bits` (R28). -/
  totalBits : Count
  /-- `SYMIN` (R21, R65). -/
  symIn     : InTape
  /-- `BYTEOUT` (R21, R65). -/
  byteOut   : List Byte
deriving DecidableEq, Repr

/-- Unit `D`, the expander (R20): ports (R22) and state (R30, R31, R33 to R36). -/
structure DUnit where
  /-- `d_go` (R22): the launch pin. -/
  go        : Bool
  /-- `d_phase` (R38). -/
  phase     : Phase
  /-- `d_status` (R36). -/
  status    : Cause
  /-- `d_prot` (R36). -/
  prot      : BitVec 16
  /-- `d_next` (R30). -/
  next      : Code
  /-- `d_code` (R30). -/
  code      : Code
  /-- `d_sym` (R30). -/
  sym       : Byte
  /-- `WT` (R31). -/
  wt        : WordTable
  /-- `bu_buf` (R33). -/
  buBuf     : Memory
  /-- `bu_idx` (R33). -/
  buIdx     : Nat
  /-- `bu_end` (R33). -/
  buEnd     : Nat
  /-- `ww_buf` (R34). -/
  wwBuf     : Memory
  /-- `ww_idx` (R34). -/
  wwIdx     : Nat
  /-- `d_total_bits` (R35). -/
  totalBits : Count
  /-- `d_total_syms` (R35). -/
  totalSyms : Count
  /-- `BYTEIN` (R22, R65). -/
  byteIn    : InTape
  /-- `SYMOUT` (R22, R65). -/
  symOut    : List Byte
deriving DecidableEq, Repr

/-- The two agents (R9). -/
inductive Agent where
  | c
  | d
deriving DecidableEq, Repr

/-- What the host can do to the machine (R250, R254, R256, R258). -/
inductive HostMove where
  /-- Pulse `c_rst` (R250). -/
  | pulseCRst
  /-- Pulse `d_rst` (R250). -/
  | pulseDRst
  /-- Supply the whole tape `SYMIN`, with its end (R254). -/
  | supplySymIn (tape : List Byte)
  /-- Supply the whole tape `BYTEIN`, with its end (R254). -/
  | supplyByteIn (tape : List Byte)
  /-- Carry `BYTEOUT` to `BYTEIN` (R78 (e), R258). -/
  | carry
  /-- Drive `c_prot` (R254). -/
  | driveCProt (prot : BitVec 16)
  /-- Set `c_go` (R254). There is no move that lowers it, only a pulse does: the model's choice (log 9). -/
  | setCGo
  /-- Set `d_go` (R254). There is no move that lowers it, only a pulse does: the model's choice (log 9). -/
  | setDGo
deriving DecidableEq, Repr

/-- What happens next: an agent's turn or a host move (log 7). -/
inductive Event where
  | turn (a : Agent)
  | host (m : HostMove)
deriving DecidableEq, Repr

/-- The result an operation returns to its invoker (R39; log 10). -/
inductive Ret where
  /-- The operation returns nothing. -/
  | nothing
  /-- `PRIM.BITLEN`: a width. -/
  | width (w : Nat)
  /-- `PRIM.SWAP16`: 16 bits. -/
  | half (v : BitVec 16)
  /-- `PRIM.SWAP32`: 32 bits. -/
  | full (v : BitVec 32)
  /-- `PRIM.INCCODE`: `(n', reset)`. -/
  | inc (n : Code) (reset : Bool)
  /-- `BU.GETBIT`: a bit, or `none` for `END`. -/
  | bit (x : Option Bool)
  /-- `BU.RDPAIR`: `has_more` and `trunc`. -/
  | pair (hasMore trunc : Bool)
  /-- `SR.RDSYM`: `has = 1` and the symbol, or `none` for `has = 0`. -/
  | sym (x : Option Byte)
  /-- `TRIE.STEP`: a code, or `none` for `absent`. -/
  | child (x : Option Code)
  /-- `WT.LOOKUP` and `WORD.APPEND`: a word, or `none` for `absent`. -/
  | word (x : Option Word)
deriving DecidableEq, Repr

/-- The whole machine. `build` holds the constants of the build (R44: no operation writes them; log 1), `sched` the
events still to come (log 7), `ret` the result of the last operation (log 10). -/
structure State where
  build : Build
  c     : CUnit
  d     : DUnit
  sched : List Event
  ret   : Ret
deriving DecidableEq, Repr

/-- Why the machine stops where the spec gives no effect. The hardware's own faults (R220) are no such stop: they are
taken as next states (R228). Both of these happen only in states no run reaches (log 15). -/
inductive Fault where
  /-- Raised by `WT.LOOKUP`, `WT.STORE`, and the data pair's effect, for a code of `MAX_CODE` or more: the table has no
  such slot (R63). Safe: the model stops where the spec says the access cannot occur. -/
  | noSuchSlot
  /-- Raised by the data pair's effect when the slot its valid code names is `absent` (R32 (b) rules this out, R191).
  Safe. -/
  | absentSlot
deriving DecidableEq, Repr

/-- What the model gives no meaning. -/
inductive Refusal where
  /-- Raised by exec's arm of an instruction that has no meaning yet. Safe. -/
  | notModelled (mnemonic : String)
  /-- Raised by `BP.WRPAIR` and `BU.RDPAIR` for a width above 16: "not admitted", "a model refuses it" (R133 (c), D34,
  U10). Safe. -/
  | widthNotAdmitted
  /-- Raised by an agent step that is not enabled (R174, R175, R196, R198; log 14). Safe. -/
  | stepNotEnabled
  /-- Raised by a host move that supplies a tape once `go` is set (R256, U11). Safe. -/
  | hostTapeAfterGo
  /-- Raised by a host move that drives `c_prot` between `go` and `RUN`, even with the value it has (R256, U11; log 8).
  Safe. -/
  | hostProtMoved
  /-- Raised by a host move that sets `go` again, or in a phase other than `IDLE`, without a reset (R256, U11). Safe. -/
  | hostGoWithoutReset
  /-- Raised by a host move that carries `BYTEOUT` before `c_phase = DONE` (R258, U11). Safe. -/
  | hostCarryEarly
deriving DecidableEq, Repr

/-- Unit `C` after reset (R43), with no tape supplied and its pins at 0. The elements R43 leaves unspecified hold the
named values of log 3, 4 and 5. -/
def CUnit.reset : CUnit :=
  { go := false, protPin := 0#16, phase := .idle, status := .none, cur := 0#16, par := 0#16, lsym := 0#8, next := 0#16,
    trie := [], bpBuf := [], bpIdx := 0, srBuf := [], srIdx := 0, srEnd := 0, totalSyms := 0#64, totalBits := 0#64,
    symIn := { bytes := [], pos := 0 }, byteOut := [] }

/-- Unit `D` after reset (R43), with no tape supplied and its pin at 0. The elements R43 leaves unspecified hold the
named values of log 3, 4 and 5. -/
def DUnit.reset : DUnit :=
  { go := false, phase := .idle, status := .none, prot := 0#16, next := 0#16, code := 0#16, sym := 0#8, wt := [],
    buBuf := [], buIdx := 0, buEnd := 0, wwBuf := [], wwIdx := 0, totalBits := 0#64, totalSyms := 0#64,
    byteIn := { bytes := [], pos := 0 }, symOut := [] }

/-- The machine right after reset of both units (R43, R250). -/
def State.reset : State :=
  { build := Config.build, c := CUnit.reset, d := DUnit.reset, sched := [], ret := .nothing }

/-- The state with unit `C` replaced. -/
def State.setC (s : State) (c : CUnit) : State := { s with c := c }

/-- The state with unit `D` replaced. -/
def State.setD (s : State) (d : DUnit) : State := { s with d := d }

/-- The state with the returned result replaced. -/
def State.setRet (s : State) (r : Ret) : State := { s with ret := r }

/-- The state with the events to come replaced. -/
def State.setSched (s : State) (es : List Event) : State := { s with sched := es }

end Sys2Proof.Machine
end

