-- ==== Sys2Proof/Machine/Operands.lean ====
section
/-! DEFINITION. How operands and fields are assembled: byte and bit positions, the header's bytes, a pair's bits, the key
of a trie position, and the stores they address. -/

namespace Sys2Proof.Machine

/-- A read of a sparse map: the value at a key, or nothing. -/
def storeGet {α : Type} : Store α → Nat → Option α
  | [], _ => none
  | e :: m, a => if a = e.1 then some e.2 else storeGet m a

/-- A write of a sparse map, keeping the keys in order. -/
def storeSet {α : Type} : Store α → Nat → α → Store α
  | [], a, v => [(a, v)]
  | e :: m, a, v => if a < e.1 then (a, v) :: e :: m else if a = e.1 then (a, v) :: m else e :: storeSet m a v

/-- A sparse map without the entry of a key. -/
def storeErase {α : Type} (m : Store α) (a : Nat) : Store α := m.filter (fun e => decide (e.1 ≠ a))

/-- The canonical form of a sparse map: keys strictly rising. -/
abbrev storeWf {α : Type} (m : Store α) : Prop := m.Pairwise (fun x y => x.1 < y.1)

/-- What a byte of a buffer that nothing has written reads as (log 4). -/
def unlistedByte : Byte := 0#8

/-- The canonical form of a buffer: addresses strictly rising, no entry equal to what an unlisted address reads as. -/
abbrev Memory.wf (m : Memory) : Prop := storeWf m ∧ ∀ e ∈ m, e.2 ≠ unlistedByte

/-- One byte of a buffer (R64). -/
def memRead (m : Memory) (a : Nat) : Byte := (storeGet m a).getD unlistedByte

/-- Writes one byte of a buffer (R64), keeping the canonical form. -/
def memWrite (m : Memory) (a : Nat) (v : Byte) : Memory :=
  if v = unlistedByte then storeErase m a else storeSet m a v

/-- Writes consecutive bytes of a buffer from index `a` on. -/
def memLoad : Memory → Nat → List Byte → Memory
  | m, _, [] => m
  | m, a, x :: xs => memLoad (memWrite m a x) (a + 1) xs

/-- The first `n` bytes of a buffer. -/
def memBytes (m : Memory) (n : Nat) : List Byte := (List.range n).map (memRead m)

/-- A byte with bit `i` replaced and the other seven unchanged (R130). -/
def setByteBit (v : Byte) (i : Nat) (x : Bool) : Byte :=
  if x then v ||| (1#8 <<< i) else v &&& ~~~(1#8 <<< i)

/-- Bit `k` of a bit buffer: bit `k mod 8` of byte `k div 8` (R66). -/
def bufBit (m : Memory) (k : Nat) : Bool := (memRead m (k / 8)).getLsbD (k % 8)

/-- Writes bit `k` of a bit buffer (R66). -/
def setBufBit (m : Memory) (k : Nat) (x : Bool) : Memory := memWrite m (k / 8) (setByteBit (memRead m (k / 8)) (k % 8) x)

/-- Clears `n` bits of a bit buffer from bit `k` on. -/
def clearBufBits : Memory → Nat → Nat → Memory
  | m, _, 0 => m
  | m, k, n + 1 => clearBufBits (setBufBit m k false) (k + 1) n

/-- The key of the trie position `(node, sym)` (R62; log 16). -/
def trieKey (node : Code) (sym : Byte) : Nat := node.toNat * 256 + sym.toNat

/-- The six bytes of a header (R90, R210). -/
def headerBytes (magic : BitVec 32) (prot : BitVec 16) : List Byte :=
  [magic.extractLsb' 0 8, magic.extractLsb' 8 8, magic.extractLsb' 16 8, magic.extractLsb' 24 8,
   prot.extractLsb' 0 8, prot.extractLsb' 8 8]

/-- The byte at an index of a byte sequence read from a tape (only indices below its length are asked for). -/
def byteAt (h : List Byte) (i : Nat) : Nat := (h.getD i 0#8).toNat

/-- The magic of six header bytes: `h[0] + 2^8 h[1] + 2^16 h[2] + 2^24 h[3]` (R97, R212). -/
def headerMagic (h : List Byte) : BitVec 32 :=
  BitVec.ofNat 32 (byteAt h 0 + 2 ^ 8 * byteAt h 1 + 2 ^ 16 * byteAt h 2 + 2 ^ 24 * byteAt h 3)

/-- The protection field of six header bytes: `h[4] + 2^8 h[5]` (R97, R212). -/
def headerProt (h : List Byte) : BitVec 16 := BitVec.ofNat 16 (byteAt h 4 + 2 ^ 8 * byteAt h 5)

/-- The code of a pair of width `w` read as bits, zero-extended (R97). -/
def pairCode (w : Nat) (bits : List Bool) : Code := BitVec.ofNat 16 (natOf (bits.take w))

/-- The symbol of a pair of width `w` read as bits (R97). -/
def pairSym (w : Nat) (bits : List Bool) : Byte := BitVec.ofNat 8 (natOf ((bits.drop w).take 8))

/-- `PRIM.SWAP16` (R124): `{v[7:0], v[15:8]}`. -/
def swap16 (v : BitVec 16) : BitVec 16 := v.extractLsb' 0 8 ++ v.extractLsb' 8 8

/-- `PRIM.SWAP32` (R124): `{v[7:0], v[15:8], v[23:16], v[31:24]}`. -/
def swap32 (v : BitVec 32) : BitVec 32 :=
  v.extractLsb' 0 8 ++ v.extractLsb' 8 8 ++ v.extractLsb' 16 8 ++ v.extractLsb' 24 8

/-- `bitlen(n)` (R120): 0 for 0, otherwise one more than the position of the highest set bit. -/
def bitlen (n : Nat) : Nat := if n = 0 then 0 else Nat.log2 n + 1

/-- `PRIM.INCCODE(n)` (R126): the next code and whether the dictionary is reset. Outside the operand range the result is
free (log 12). -/
def incCode (b : Build) (n : Code) : Code × Bool :=
  if assignable b n then
    if n.toNat + 1 = b.maxCode then (b.startCode, true) else (n + 1#16, false)
  else Config.incCodeOutside b n

end Sys2Proof.Machine
end

