-- ==== Sys2Proof/Machine/Flags.lean ====
section
/-! DEFINITION. The one-bit results of operations (R39), the validity check of a code (R194), the coded values of phase and
status (R38, R220), and which agent step is enabled. -/

namespace Sys2Proof.Machine

/-- The two bits of a phase register (R38). -/
def phaseBits : Phase → BitVec 2
  | .idle => 0#2
  | .run => 1#2
  | .done => 2#2
  | .fault => 3#2

/-- The three bits of a status register (R220). -/
def statusBits : Cause → BitVec 3
  | .none => 0#3
  | .badMagic => 1#3
  | .hdrShort => 2#3
  | .corruptTrunc => 3#3
  | .corruptCode => 4#3
  | .oom => 5#3

/-- `has` of `SR.RDSYM` (R160). -/
def hasSym (x : Option Byte) : Bool := x.isSome

/-- `trunc` of `BU.RDPAIR(w)`: fewer than `w + 8` bits could be taken (R148, R150). -/
def truncFlag (w : Nat) (bits : List Bool) : Bool := decide (bits.length < w + 8)

/-- `has_more` of `BU.RDPAIR(w)`: the pair is complete and its code is not `STOP_CODE` (R148). -/
def hasMoreFlag (b : Build) (w : Nat) (bits : List Bool) : Bool :=
  !truncFlag w bits && pairCode w bits != b.stopCode

/-- The validity check of a data pair's code against the decoder's counter (R194, R100). -/
def validCode (b : Build) (next code : Code) : Bool :=
  code == b.emptyCode || (decide (b.startCode.toNat ≤ code.toNat) && decide (code.toNat < next.toNat))

/-- `C.START` is enabled: `c_phase = IDLE` and `c_go = 1` (R174). -/
def cStartEnabled (c : CUnit) : Bool := c.phase == .idle && c.go

/-- `C.STEP` is enabled: `c_phase = RUN` (R175). -/
def cStepEnabled (c : CUnit) : Bool := c.phase == .run

/-- `D.START` is enabled: `d_phase = IDLE` and `d_go = 1` (R198). -/
def dStartEnabled (d : DUnit) : Bool := d.phase == .idle && d.go

/-- `D.STEP` is enabled: `d_phase = RUN` (R196). -/
def dStepEnabled (d : DUnit) : Bool := d.phase == .run

end Sys2Proof.Machine
end

