-- ==== Sys2Proof/Machine/Ops.lean ====
section
/-! DEFINITION. The shared operations over tapes, buffers, dictionaries and headers, on one unit at a time; taking a fault
(R228) and, beside it, the only way back from one, reset (R230, R250). -/

namespace Sys2Proof.Machine

/-! ### Tapes -/

/-- `SrcRead(port, n)` (R70): the next bytes of an input tape, at most `n`, and the tape moved on by as many (log 20). -/
def srcRead (t : InTape) (n : Nat) : List Byte × InTape :=
  let blk := (t.bytes.drop t.pos).take n
  (blk, { t with pos := t.pos + blk.length })

/-- `SinkWrite(port, bytes)` (R71): appends. -/
def sinkWrite (t bytes : List Byte) : List Byte := t ++ bytes

/-! ### Bit packer -/

/-- `BP.PUTBIT(x)` (R130), with the block transfer of R131. -/
def putBit (b : Build) (x : Bool) (c : CUnit) : CUnit :=
  let buf := setBufBit c.bpBuf c.bpIdx x
  let c' := { c with bpBuf := buf, bpIdx := c.bpIdx + 1, totalBits := c.totalBits + 1#64 }
  if c'.bpIdx = 8 * b.blockBytes then
    { c' with byteOut := sinkWrite c'.byteOut (memBytes buf b.blockBytes), bpIdx := 0 }
  else c'

/-- `BP.PUTBIT` of each bit in turn. -/
def putBits (b : Build) : List Bool → CUnit → CUnit
  | [], c => c
  | x :: xs, c => putBits b xs (putBit b x c)

/-- `BP.WRPAIR(code, sym, w)` (R132) for an admitted width. -/
def wrPair (b : Build) (code : Code) (sym : Byte) (w : Nat) (c : CUnit) : CUnit := putBits b (pairBits code sym w) c

/-- `BP.FLUSH` (R134). -/
def bpFlush (c : CUnit) : CUnit :=
  if 0 < c.bpIdx then
    let n := (c.bpIdx + 7) / 8
    let buf := clearBufBits c.bpBuf c.bpIdx (8 * n - c.bpIdx)
    { c with bpBuf := buf, byteOut := sinkWrite c.byteOut (memBytes buf n), bpIdx := 0 }
  else c

/-! ### Bit unpacker -/

/-- The delivery half of `BU.GETBIT` (R145): the bit at `bu_idx`. -/
def takeBit (d : DUnit) : Option Bool × DUnit :=
  (some (bufBit d.buBuf d.buIdx), { d with buIdx := d.buIdx + 1, totalBits := d.totalBits + 1#64 })

/-- `BU.GETBIT` (R145), with the refill of R146; `none` is `END`. -/
def getBit (b : Build) (d : DUnit) : Option Bool × DUnit :=
  if d.buIdx = d.buEnd then
    let r := srcRead d.byteIn b.blockBytes
    if r.1 = [] then (none, { d with byteIn := r.2 })
    else takeBit { d with byteIn := r.2, buBuf := memLoad d.buBuf 0 r.1, buEnd := 8 * r.1.length, buIdx := 0 }
  else takeBit d

/-- `BU.GETBIT` up to `n` times, stopping at the first `END`: the bits taken, in order. -/
def getBits (b : Build) : Nat → DUnit → List Bool × DUnit
  | 0, d => ([], d)
  | n + 1, d =>
    match getBit b d with
    | (none, d') => ([], d')
    | (some x, d') =>
      let r := getBits b n d'
      (x :: r.1, r.2)

/-- `BU.RDPAIR(w)` (R148, R150) for an admitted width: `has_more`, `trunc`, and the unit with the pair latched, or with
the latch as it was when the tape ended inside the pair. -/
def rdPair (b : Build) (w : Nat) (d : DUnit) : Bool × Bool × DUnit :=
  let r := getBits b (w + 8) d
  (hasMoreFlag b w r.1, truncFlag w r.1,
    if truncFlag w r.1 then r.2 else { r.2 with code := pairCode w r.1, sym := pairSym w r.1 })

/-! ### Symbol reader -/

/-- The delivery half of `SR.RDSYM` (R160): the byte at `sr_idx`. -/
def takeSym (c : CUnit) : Option Byte × CUnit :=
  (some (memRead c.srBuf c.srIdx), { c with srIdx := c.srIdx + 1, totalSyms := c.totalSyms + 1#64 })

/-- `SR.RDSYM` (R160); `none` is `has = 0`. -/
def rdSym (b : Build) (c : CUnit) : Option Byte × CUnit :=
  if c.srIdx = c.srEnd then
    let r := srcRead c.symIn b.blockBytes
    if r.1 = [] then (none, { c with symIn := r.2 })
    else takeSym { c with symIn := r.2, srBuf := memLoad c.srBuf 0 r.1, srEnd := r.1.length, srIdx := 0 }
  else takeSym c

/-! ### Word writer -/

/-- One byte of `WW.WRWORD` (R163). -/
def wrByte (b : Build) (x : Byte) (d : DUnit) : DUnit :=
  let buf := memWrite d.wwBuf d.wwIdx x
  let d' := { d with wwBuf := buf, wwIdx := d.wwIdx + 1, totalSyms := d.totalSyms + 1#64 }
  if d'.wwIdx = b.blockBytes then
    { d' with symOut := sinkWrite d'.symOut (memBytes buf b.blockBytes), wwIdx := 0 }
  else d'

/-- `WW.WRWORD(word)` (R163). -/
def wrWord (b : Build) : Word → DUnit → DUnit
  | [], d => d
  | x :: xs, d => wrWord b xs (wrByte b x d)

/-- `WW.FLUSH` (R164). -/
def wwFlush (d : DUnit) : DUnit :=
  if 0 < d.wwIdx then { d with symOut := sinkWrite d.symOut (memBytes d.wwBuf d.wwIdx), wwIdx := 0 } else d

/-! ### Taking a fault, and reset -/

/-- Fault entry (R228): `WW.FLUSH`, then the status, then the phase. Nothing else changes. -/
def raise (cause : Cause) (d : DUnit) : DUnit := { wwFlush d with status := cause, phase := .fault }

/-- A pulse of `c_rst` (R250): the values of R43, the output tape empty, the input tape at position 0. There is no other
way out of `DONE` (R230 for unit `D`). The pins are as log 9 says. -/
def pulseC (c : CUnit) : CUnit := { CUnit.reset with protPin := c.protPin, symIn := { c.symIn with pos := 0 } }

/-- A pulse of `d_rst` (R250): the values of R43, the output tape empty, the input tape at position 0. It is the only
return from a fault (R230). -/
def pulseD (d : DUnit) : DUnit := { DUnit.reset with byteIn := { d.byteIn with pos := 0 } }

/-! ### Dictionaries -/

/-- `TRIE.CREATE` and `TRIE.RESET` leave every position `absent` (R170, R173). -/
def clearTrie (c : CUnit) : CUnit := { c with trie := [] }

/-- `TRIE[node, sym]` (R62, R171). -/
def trieGet (t : TrieStore) (node : Code) (sym : Byte) : Option Code := storeGet t (trieKey node sym)

/-- `TRIE[node, sym] <- code` (R62, R172). -/
def trieInsert (node : Code) (sym : Byte) (code : Code) (c : CUnit) : CUnit :=
  { c with trie := storeSet c.trie (trieKey node sym) code }

/-- `WT.CREATE` and `WT.RESET` leave slot `EMPTY_CODE` the empty word and every other slot `absent` (R190, R195). -/
def seedWt (b : Build) (d : DUnit) : DUnit := { d with wt := [(b.emptyCode.toNat, [])] }

/-- `WT[code]` (R63, R191): a word or `absent`; a code of `MAX_CODE` or more names no slot (log 15). -/
def wtGet (b : Build) (d : DUnit) (code : Code) : Host.Outcome (Option Word) Fault Refusal :=
  if code.toNat < b.maxCode then .next (storeGet d.wt code.toNat) else .fault .noSuchSlot

/-- `WT[code] <- word` (R63, R193); a code of `MAX_CODE` or more names no slot (log 15). -/
def wtSet (b : Build) (code : Code) (word : Word) (d : DUnit) : Host.Outcome DUnit Fault Refusal :=
  if code.toNat < b.maxCode then .next { d with wt := storeSet d.wt code.toNat word } else .fault .noSuchSlot

/-- `WORD.APPEND(word, sym)` (R192). -/
def wordAppend (word : Word) (sym : Byte) : Word := word ++ [sym]

/-! ### Header -/

/-- `HDR.WR(prot)` (R210): six bytes straight to the tape. -/
def hdrWr (b : Build) (prot : BitVec 16) (c : CUnit) : CUnit :=
  { c with byteOut := sinkWrite c.byteOut (headerBytes b.magic prot) }

/-- What unit `D` does with a complete header (R212): compares the magic, and raises or keeps the protection field. The
flag says whether the header was accepted. -/
def takeHeader (b : Build) (magic : BitVec 32) (prot : BitVec 16) (d : DUnit) : Bool × DUnit :=
  if magic = b.magic then (true, { d with prot := prot }) else (false, raise .badMagic d)

/-- `HDR.RD` (R212, R213): length first, then the magic (R225). The flag says whether the header was accepted. -/
def hdrRd (b : Build) (d : DUnit) : Bool × DUnit :=
  let r := srcRead d.byteIn 6
  let d' := { d with byteIn := r.2 }
  if r.1.length < 6 then (false, raise .hdrShort d') else takeHeader b (headerMagic r.1) (headerProt r.1) d'

/-! ### Outcomes -/

/-- Goes on with the value of an outcome, and passes a stop on. -/
def andThen {α β : Type} (o : Host.Outcome α Fault Refusal) (f : α → Host.Outcome β Fault Refusal) :
    Host.Outcome β Fault Refusal :=
  match o with
  | .next a => f a
  | .fault r => .fault r
  | .refused r => .refused r

/-- An operation of unit `C` is over: its unit and its result stand in the state. -/
def finishC (s : State) (c : CUnit) (r : Ret) : Host.Outcome State Fault Refusal := .next ((s.setC c).setRet r)

/-- An operation of unit `D` is over: its unit and its result stand in the state. -/
def finishD (s : State) (d : DUnit) (r : Ret) : Host.Outcome State Fault Refusal := .next ((s.setD d).setRet r)

/-- A function has its value: nothing but the result changes. -/
def finish (s : State) (r : Ret) : Host.Outcome State Fault Refusal := .next (s.setRet r)

end Sys2Proof.Machine
end

