-- ==== Sys2Proof/Machine/Header.lean ====
section
/-! DEFINITION. The file header HDR (46_header.md). -/

namespace Sys2Proof.Machine

/-- `HDR.WR(prot)` (R210). -/
def execHdrWr (prot : BitVec 16) (s : State) : Host.Outcome State Fault Refusal :=
  finishC s (hdrWr s.build prot s.c) .nothing

/-- `HDR.RD` (R212, R213): a short header or a wrong magic is a fault the unit takes (R228). -/
def execHdrRd (s : State) : Host.Outcome State Fault Refusal := finishD s (hdrRd s.build s.d).2 .nothing

end Sys2Proof.Machine
end

