-- ==== Sys2Proof/Machine/Packer.lean ====
section
/-! DEFINITION. The variable-width bit packer BP (41_bit_packer.md). -/

namespace Sys2Proof.Machine

/-- `BP.PUTBIT(x)` (R130, R131). -/
def execBpPutbit (x : Bool) (s : State) : Host.Outcome State Fault Refusal :=
  finishC s (putBit s.build x s.c) .nothing

/-- `BP.WRPAIR(code, sym, w)` (R132); a width above 16 is refused (R133 (c), D34). -/
def execBpWrpair (code : Code) (sym : Byte) (w : Nat) (s : State) : Host.Outcome State Fault Refusal :=
  if widthAdmitted w then finishC s (wrPair s.build code sym w s.c) .nothing else .refused .widthNotAdmitted

/-- `BP.FLUSH` (R134). -/
def execBpFlush (s : State) : Host.Outcome State Fault Refusal := finishC s (bpFlush s.c) .nothing

end Sys2Proof.Machine
end

