-- ==== Sys2Proof/Machine/Prim.lean ====
section
/-! DEFINITION. The shared bit and byte primitives (40_primitives.md): pure functions of their operands. -/

namespace Sys2Proof.Machine

/-- `PRIM.BITLEN(n)` (R120). -/
def execPrimBitlen (n : Code) (s : State) : Host.Outcome State Fault Refusal := finish s (.width (bitlen n.toNat))

/-- `PRIM.SWAP16(v)` (R124). -/
def execPrimSwap16 (v : BitVec 16) (s : State) : Host.Outcome State Fault Refusal := finish s (.half (swap16 v))

/-- `PRIM.SWAP32(v)` (R124). -/
def execPrimSwap32 (v : BitVec 32) (s : State) : Host.Outcome State Fault Refusal := finish s (.full (swap32 v))

/-- `PRIM.INCCODE(n)` (R126). -/
def execPrimInccode (n : Code) (s : State) : Host.Outcome State Fault Refusal :=
  finish s (.inc (incCode s.build n).1 (incCode s.build n).2)

end Sys2Proof.Machine
end

