-- ==== Sys2Proof/Machine/WordTable.lean ====
section
/-! DEFINITION. The LZ78 word-table decoder: the table operations and the driver of unit `D` (45_decoder_wordtable.md). -/

namespace Sys2Proof.Machine

/-- `WT.CREATE` (R190). -/
def execWtCreate (s : State) : Host.Outcome State Fault Refusal := finishD s (seedWt s.build s.d) .nothing

/-- `WT.LOOKUP(code)` (R191, R63): it writes nothing; an unpopulated slot reads as `absent`. -/
def execWtLookup (code : Code) (s : State) : Host.Outcome State Fault Refusal :=
  andThen (wtGet s.build s.d code) (fun x => finish s (.word x))

/-- `WORD.APPEND(word, sym)` (R192). -/
def execWordAppend (word : Word) (sym : Byte) (s : State) : Host.Outcome State Fault Refusal :=
  finish s (.word (some (wordAppend word sym)))

/-- `WT.STORE(code, word)` (R193; log 17). -/
def execWtStore (code : Code) (word : Word) (s : State) : Host.Outcome State Fault Refusal :=
  andThen (wtSet s.build code word s.d) (fun d => finishD s d .nothing)

/-- `WT.RESET` (R195). -/
def execWtReset (s : State) : Host.Outcome State Fault Refusal := finishD s (seedWt s.build s.d) .nothing

/-- The advance of `d_next` after a data pair, with the reset it may report (R196, R202). -/
def advanceD (b : Build) (d : DUnit) : DUnit :=
  let r := incCode b d.next
  let d' := { d with next := r.1 }
  if r.2 then seedWt b d' else d'

/-- The word a data pair stands for, stored, written out, and the counter advanced (R196, in its order). -/
def takeWord (b : Build) (word : Word) (d : DUnit) : Host.Outcome DUnit Fault Refusal :=
  andThen (wtSet b d.next word d) (fun d' => .next (advanceD b (wrWord b word d')))

/-- What `D.STEP` does with the data pair latched in `d_code`, `d_sym` (R194, R196). -/
def decData (b : Build) (d : DUnit) : Host.Outcome DUnit Fault Refusal :=
  if validCode b d.next d.code then
    andThen (wtGet b d d.code) (fun x =>
      match x with
      | some word => takeWord b (wordAppend word d.sym) d
      | none => .fault .absentSlot)
  else .next (raise .corruptCode d)

/-- What `D.STEP` does on the stop pair (R197). -/
def decStop (d : DUnit) : DUnit := { wwFlush d with phase := .done }

/-- `D.STEP` (R196): truncation first, then the stop test, then the code (R225). -/
def decStep (b : Build) (d : DUnit) : Host.Outcome DUnit Fault Refusal :=
  match rdPair b (bitlen d.next.toNat) d with
  | (hasMore, trunc, d') =>
    if trunc then .next (raise .corruptTrunc d') else if hasMore then decData b d' else .next (decStop d')

/-- `D.START` (R198): the last three lines run only when the header was accepted. -/
def decStart (b : Build) (d : DUnit) : DUnit :=
  match hdrRd b d with
  | (true, d') => { seedWt b d' with next := b.startCode, phase := .run }
  | (false, d') => d'

/-- `D.START` (R198), an agent step: refused where it is not enabled (log 14). -/
def execDStart (s : State) : Host.Outcome State Fault Refusal :=
  if dStartEnabled s.d then finishD s (decStart s.build s.d) .nothing else .refused .stepNotEnabled

/-- `D.STEP` (R196), an agent step: refused where it is not enabled (log 14). -/
def execDStep (s : State) : Host.Outcome State Fault Refusal :=
  if dStepEnabled s.d then andThen (decStep s.build s.d) (fun d => finishD s d .nothing)
  else .refused .stepNotEnabled

end Sys2Proof.Machine
end

