-- ==== Sys2Proof/Machine/Stream.lean ====
section
/-! DEFINITION. The stream units HDR, PAIR.DATA, PAIR.STOP and PAD (R90 to R93) as unit `D` acts on them once it has read
them (log 11). -/

namespace Sys2Proof.Machine

/-- The stream unit `HDR`, read: the magic is compared and the protection field kept, or the unit faults (R102, R212). -/
def execHdr (magic : BitVec 32) (prot : BitVec 16) (s : State) : Host.Outcome State Fault Refusal :=
  finishD s (takeHeader s.build magic prot s.d).2 .nothing

/-- The stream unit `PAIR.DATA`, read: latched (R148), then checked, expanded, stored and written out (R194, R196). The
width has served to read it. -/
def execPairData (_w : Nat) (code : Code) (sym : Byte) (s : State) : Host.Outcome State Fault Refusal :=
  andThen (decData s.build { s.d with code := code, sym := sym }) (fun d => finishD s d .nothing)

/-- The stream unit `PAIR.STOP`, read: latched (R149), then the run ends (R197); its symbol is ignored. -/
def execPairStop (_w : Nat) (sym : Byte) (s : State) : Host.Outcome State Fault Refusal :=
  finishD s (decStop { s.d with code := s.build.stopCode, sym := sym }) .nothing

/-- The stream unit `PAD`: never read, so it has no effect (R93, R101). -/
def execPad (_bits : List Bool) (s : State) : Host.Outcome State Fault Refusal := finish s .nothing

end Sys2Proof.Machine
end

