-- ==== Sys2Proof/Machine/SymbolIO.lean ====
section
/-! DEFINITION. The symbol reader SR and the word writer WW (43_symbol_io.md). -/

namespace Sys2Proof.Machine

/-- `SR.RDSYM` (R160). -/
def execSrRdsym (s : State) : Host.Outcome State Fault Refusal :=
  finishC s (rdSym s.build s.c).2 (.sym (rdSym s.build s.c).1)

/-- `WW.WRWORD(word)` (R163). -/
def execWwWrword (word : Word) (s : State) : Host.Outcome State Fault Refusal :=
  finishD s (wrWord s.build word s.d) .nothing

/-- `WW.FLUSH` (R164). -/
def execWwFlush (s : State) : Host.Outcome State Fault Refusal := finishD s (wwFlush s.d) .nothing

end Sys2Proof.Machine
end

