-- ==== Sys2Proof/Machine/Trie.lean ====
section
/-! DEFINITION. The LZ78 trie encoder: the trie operations and the driver of unit `C` (44_encoder_trie.md). -/

namespace Sys2Proof.Machine

/-- `TRIE.CREATE` (R170). -/
def execTrieCreate (s : State) : Host.Outcome State Fault Refusal := finishC s (clearTrie s.c) .nothing

/-- `TRIE.STEP(node, sym)` (R171): it writes nothing. -/
def execTrieStep (node : Code) (sym : Byte) (s : State) : Host.Outcome State Fault Refusal :=
  finish s (.child (trieGet s.c.trie node sym))

/-- `TRIE.INSERT(node, sym, code)` (R172; log 17). -/
def execTrieInsert (node : Code) (sym : Byte) (code : Code) (s : State) : Host.Outcome State Fault Refusal :=
  finishC s (trieInsert node sym code s.c) .nothing

/-- `TRIE.RESET` (R173). -/
def execTrieReset (s : State) : Host.Outcome State Fault Refusal := finishC s (clearTrie s.c) .nothing

/-- The advance of `c_next` after a data pair, with the reset it may report (R177, R181). -/
def advanceC (b : Build) (c : CUnit) : CUnit :=
  let r := incCode b c.next
  let c' := { c with next := r.1 }
  if r.2 then clearTrie c' else c'

/-- The miss of `C.SYM(sym)` (R176): the pair, the new entry, the walk back at the root, the counter. -/
def missSym (b : Build) (sym : Byte) (c : CUnit) : CUnit :=
  let c₁ := wrPair b c.cur sym (bitlen c.next.toNat) c
  let c₂ := trieInsert c₁.cur sym c₁.next c₁
  advanceC b { c₂ with cur := b.emptyCode }

/-- `C.SYM(sym)` (R176). -/
def encSym (b : Build) (sym : Byte) (c : CUnit) : CUnit :=
  match trieGet c.trie c.cur sym with
  | some child => { c with par := c.cur, cur := child, lsym := sym }
  | none => { missSym b sym c with lsym := sym }

/-- The final pair of `C.END` for a pending prefix (R180, R181). -/
def finalPair (b : Build) (c : CUnit) : CUnit :=
  if c.cur = b.emptyCode then c
  else advanceC b { wrPair b c.par c.lsym (bitlen c.next.toNat) c with cur := b.emptyCode }

/-- `C.END` (R180): the final pair if a prefix is pending, the stop pair at the current width, the flush. -/
def encEnd (b : Build) (c : CUnit) : CUnit :=
  let c₁ := finalPair b c
  let c₂ := wrPair b b.stopCode 0#8 (bitlen c₁.next.toNat) c₁
  { bpFlush c₂ with phase := .done }

/-- `C.STEP` (R175): one symbol, or the end. -/
def encStep (b : Build) (c : CUnit) : CUnit :=
  match rdSym b c with
  | (some sym, c') => encSym b sym c'
  | (none, c') => encEnd b c'

/-- `C.START` (R174). -/
def encStart (b : Build) (c : CUnit) : CUnit :=
  let c₁ := clearTrie (hdrWr b c.protPin c)
  { c₁ with cur := b.emptyCode, next := b.startCode, phase := .run }

/-- `C.START` (R174), an agent step: refused where it is not enabled (log 14). -/
def execCStart (s : State) : Host.Outcome State Fault Refusal :=
  if cStartEnabled s.c then finishC s (encStart s.build s.c) .nothing else .refused .stepNotEnabled

/-- `C.SYM(sym)` (R176, R177). -/
def execCSym (sym : Byte) (s : State) : Host.Outcome State Fault Refusal :=
  finishC s (encSym s.build sym s.c) .nothing

/-- `C.END` (R180, R181). -/
def execCEnd (s : State) : Host.Outcome State Fault Refusal := finishC s (encEnd s.build s.c) .nothing

/-- `C.STEP` (R175), an agent step: refused where it is not enabled (log 14). -/
def execCStep (s : State) : Host.Outcome State Fault Refusal :=
  if cStepEnabled s.c then finishC s (encStep s.build s.c) .nothing else .refused .stepNotEnabled

end Sys2Proof.Machine
end

