-- ==== Sys2Proof/Machine/Unpacker.lean ====
section
/-! DEFINITION. The variable-width bit unpacker BU (42_bit_unpacker.md). -/

namespace Sys2Proof.Machine

/-- `BU.GETBIT` (R145, R146). -/
def execBuGetbit (s : State) : Host.Outcome State Fault Refusal :=
  finishD s (getBit s.build s.d).2 (.bit (getBit s.build s.d).1)

/-- `BU.RDPAIR(w)` (R148 to R150); a width above 16 is refused (U10, D34). -/
def execBuRdpair (w : Nat) (s : State) : Host.Outcome State Fault Refusal :=
  if widthAdmitted w then
    finishD s (rdPair s.build w s.d).2.2 (.pair (rdPair s.build w s.d).1 (rdPair s.build w s.d).2.1)
  else .refused .widthNotAdmitted

end Sys2Proof.Machine
end

