-- ==== Sys2Proof/Machine/Dispatch.lean ====
section
/-! DEFINITION. One arm per constructor of Instr: the meaning of each row of the opcode table. -/

namespace Sys2Proof.Machine

/-- The meaning of an operation or of a stream unit. -/
def exec (i : Instr) (s : State) : Host.Outcome State Fault Refusal :=
  match i with
  | .primBitlen n => Sys2Proof.Machine.execPrimBitlen n s
  | .primSwap16 v => Sys2Proof.Machine.execPrimSwap16 v s
  | .primSwap32 v => Sys2Proof.Machine.execPrimSwap32 v s
  | .primInccode n => Sys2Proof.Machine.execPrimInccode n s
  | .bpPutbit x => Sys2Proof.Machine.execBpPutbit x s
  | .bpWrpair code sym w => Sys2Proof.Machine.execBpWrpair code sym w s
  | .bpFlush => Sys2Proof.Machine.execBpFlush s
  | .buGetbit => Sys2Proof.Machine.execBuGetbit s
  | .buRdpair w => Sys2Proof.Machine.execBuRdpair w s
  | .srRdsym => Sys2Proof.Machine.execSrRdsym s
  | .wwWrword word => Sys2Proof.Machine.execWwWrword word s
  | .wwFlush => Sys2Proof.Machine.execWwFlush s
  | .trieCreate => Sys2Proof.Machine.execTrieCreate s
  | .trieStep node sym => Sys2Proof.Machine.execTrieStep node sym s
  | .trieInsert node sym code => Sys2Proof.Machine.execTrieInsert node sym code s
  | .trieReset => Sys2Proof.Machine.execTrieReset s
  | .cStart => Sys2Proof.Machine.execCStart s
  | .cSym sym => Sys2Proof.Machine.execCSym sym s
  | .cEnd => Sys2Proof.Machine.execCEnd s
  | .cStep => Sys2Proof.Machine.execCStep s
  | .wtCreate => Sys2Proof.Machine.execWtCreate s
  | .wtLookup code => Sys2Proof.Machine.execWtLookup code s
  | .wordAppend word sym => Sys2Proof.Machine.execWordAppend word sym s
  | .wtStore code word => Sys2Proof.Machine.execWtStore code word s
  | .wtReset => Sys2Proof.Machine.execWtReset s
  | .dStart => Sys2Proof.Machine.execDStart s
  | .dStep => Sys2Proof.Machine.execDStep s
  | .hdrWr prot => Sys2Proof.Machine.execHdrWr prot s
  | .hdrRd => Sys2Proof.Machine.execHdrRd s
  | .hdr magic prot => Sys2Proof.Machine.execHdr magic prot s
  | .pairData w code sym => Sys2Proof.Machine.execPairData w code sym s
  | .pairStop w sym => Sys2Proof.Machine.execPairStop w sym s
  | .pad bits => Sys2Proof.Machine.execPad bits s

end Sys2Proof.Machine
end

