-- ==== Sys2Proof/Machine/Sched.lean ====
section
/-! DEFINITION. What moves next: the operation an agent would step with, the agent that moves when no event says which, and
the host's moves with the contract of R254 and R256 (log 7, 8, 9). -/

namespace Sys2Proof.Machine

/-- The agent step that is enabled in unit `C`, if one is (R174, R175, R182). The phase register is what sequences a run
(R38). -/
def nextOpC (c : CUnit) : Option Instr :=
  if cStartEnabled c then some .cStart else if cStepEnabled c then some .cStep else none

/-- The agent step that is enabled in unit `D`, if one is (R196, R198, R199). -/
def nextOpD (d : DUnit) : Option Instr :=
  if dStartEnabled d then some .dStart else if dStepEnabled d then some .dStep else none

/-- The operation an agent steps with, if one is enabled (R9). -/
def nextOp (a : Agent) (s : State) : Option Instr :=
  match a with
  | .c => nextOpC s.c
  | .d => nextOpD s.d

/-- The operation that moves when no event is left: unit `C`'s if it has one, else unit `D`'s (log 7). -/
def defaultOp (s : State) : Option Instr :=
  match nextOp .c s with
  | some i => some i
  | none => nextOp .d s

/-- The first event is over. -/
def popEvent (s : State) : State := s.setSched s.sched.tail

/-- The host supplies `SYMIN` (R254 (3)): before `go`, in `IDLE`. A tape supplied before is replaced, as often as the host
likes; the spec leaves that open, and it is the model's choice (DESIGN CHOICE, log 8). It may come
before or after `c_prot` is driven, which is the model's choice too (log 8). -/
def hostSymIn (tape : List Byte) (s : State) : Host.Outcome State Fault Refusal :=
  if s.c.phase = .idle ∧ s.c.go = false then .next (s.setC { s.c with symIn := { bytes := tape, pos := 0 } })
  else .refused .hostTapeAfterGo

/-- The host supplies `BYTEIN` (R254 (3)): before `go`, in `IDLE`. A tape supplied before is replaced, as often as the host
likes; the spec leaves that open, and it is the model's choice (DESIGN CHOICE, log 8). -/
def hostByteIn (tape : List Byte) (s : State) : Host.Outcome State Fault Refusal :=
  if s.d.phase = .idle ∧ s.d.go = false then .next (s.setD { s.d with byteIn := { bytes := tape, pos := 0 } })
  else .refused .hostTapeAfterGo

/-- The host carries `BYTEOUT` to `BYTEIN`, only when `C` is done (R78 (e), R258). -/
def hostCarry (s : State) : Host.Outcome State Fault Refusal :=
  if s.c.phase = .done then hostByteIn s.c.byteOut s else .refused .hostCarryEarly

/-- The host drives `c_prot`, at any time but from `go` until `RUN` (R254 (2), R256). That a drive with the value the pin has
is refused there too, and that the order of (2) and (3) of R254 is not held to, are the model's choice (DESIGN CHOICE,
log 8). -/
def hostProt (prot : BitVec 16) (s : State) : Host.Outcome State Fault Refusal :=
  if s.c.phase = .idle ∧ s.c.go = true then .refused .hostProtMoved
  else .next (s.setC { s.c with protPin := prot })

/-- The host sets `c_go`, once after a reset (R254 (4), R256), in whatever order it drove `c_prot` and supplied the tape
(DESIGN CHOICE, log 8). -/
def hostCGo (s : State) : Host.Outcome State Fault Refusal :=
  if s.c.phase = .idle ∧ s.c.go = false then .next (s.setC { s.c with go := true })
  else .refused .hostGoWithoutReset

/-- The host sets `d_go`, once after a reset (R254 (4), R256). -/
def hostDGo (s : State) : Host.Outcome State Fault Refusal :=
  if s.d.phase = .idle ∧ s.d.go = false then .next (s.setD { s.d with go := true })
  else .refused .hostGoWithoutReset

/-- A host move (R250, R254, R256, R258). -/
def hostStep (m : HostMove) (s : State) : Host.Outcome State Fault Refusal :=
  match m with
  | .pulseCRst => .next (s.setC (pulseC s.c))
  | .pulseDRst => .next (s.setD (pulseD s.d))
  | .supplySymIn tape => hostSymIn tape s
  | .supplyByteIn tape => hostByteIn tape s
  | .carry => hostCarry s
  | .driveCProt prot => hostProt prot s
  | .setCGo => hostCGo s
  | .setDGo => hostDGo s

/-- Unit `D` standing where it reads its next stream unit: for a header, launched with the header at the front of
`BYTEIN`; for a pair, in `RUN` at the start of an epoch (width `bitlen(START_CODE)`), with the bits at the front of
`BYTEIN`; for the pad, in `DONE`, where it stands after the stop pair and reads no more (log 18). -/
def placeUnit (b : Build) (ctx : Ctx) (tape : List Byte) (d : DUnit) : DUnit :=
  let d₁ := { d with byteIn := { bytes := tape, pos := 0 } }
  match ctx with
  | .header => { d₁ with phase := .idle, go := true }
  | .pair _ => { seedWt b d₁ with phase := .run, next := b.startCode, buIdx := 0, buEnd := 0 }
  | .pad _ => { d₁ with phase := .done }

end Sys2Proof.Machine
end

