-- ==== Sys2Proof/Machine/Step.lean ====
section
/-! DEFINITION. One step: the first event to come, or, when none is left, the enabled agent step (R9; log 7). -/

namespace Sys2Proof.Machine

/-- Runs the operation of an agent that has one enabled; a turn of an agent with none passes without effect (R182, R199,
R230). -/
def runOp (o : Option Instr) (s : State) : Host.Outcome State Fault Refusal :=
  match o with
  | some i => exec i s
  | none => .next s

/-- One step of the machine. -/
def step (s : State) : Host.Outcome State Fault Refusal :=
  match s.sched with
  | [] => runOp (defaultOp s) s
  | .turn a :: _ => runOp (nextOp a s) (popEvent s)
  | .host m :: _ => hostStep m (popEvent s)

/-- The state with a table word where unit `D` reads its next stream unit, and unit `D` next to move (log 18). -/
def State.withFetchWord (s : State) (nbits w : Nat) : State :=
  (s.setD (placeUnit s.build (tableCtx nbits w) (tableBytes w) s.d)).setSched (.turn .d :: s.sched)

end Sys2Proof.Machine
end

