-- ==== Sys2Proof/Safety.lean ====
section
/-! DEFINITION. The terms claims are stated in: what stands in a unit's buffers and tapes as one stream, the invariants of
the spec (R23 to R36, R25, R32), and whole runs (R112). -/

namespace Sys2Proof.Machine

/-! ### The streams a unit holds -/

/-- The bytes of an input tape not yet read (R70). -/
def unread (t : InTape) : List Byte := t.bytes.drop t.pos

/-- Bits `lo` to `hi - 1` of a bit buffer. -/
def bufBits (m : Memory) (lo hi : Nat) : List Bool := (List.range' lo (hi - lo)).map (bufBit m)

/-- Bytes `lo` to `hi - 1` of a byte buffer. -/
def bufSyms (m : Memory) (lo hi : Nat) : List Byte := (List.range' lo (hi - lo)).map (memRead m)

/-- Every bit unit `C` has produced, in order: those on `BYTEOUT`, then those in `bp_buf` (R42). -/
def outBits (c : CUnit) : List Bool := unpack c.byteOut ++ bufBits c.bpBuf 0 c.bpIdx

/-- Every bit unit `D` has not yet used, in order: those in `bu_buf`, then those on `BYTEIN` (R42). -/
def inBits (d : DUnit) : List Bool := bufBits d.buBuf d.buIdx d.buEnd ++ unpack (unread d.byteIn)

/-- Every symbol unit `C` has not yet consumed, in order: those in `sr_buf`, then those on `SYMIN` (R42). -/
def inSyms (c : CUnit) : List Byte := bufSyms c.srBuf c.srIdx c.srEnd ++ unread c.symIn

/-- Every byte unit `D` has produced, in order: those on `SYMOUT`, then those in `ww_buf` (R42). -/
def outSyms (d : DUnit) : List Byte := d.symOut ++ bufSyms d.wwBuf 0 d.wwIdx

/-! ### Invariants -/

/-- A buffer is canonical and has no byte outside its block (R64). -/
structure BufferOk (b : Build) (m : Memory) : Prop where
  wf     : Memory.wf m
  inside : ∀ e ∈ m, e.1 < b.blockBytes

/-- A code register holds an assignable code: `START_CODE .. MAX_CODE - 1` (R23, R30). -/
def CounterOk (b : Build) (n : Code) : Prop := b.startCode.toNat ≤ n.toNat ∧ n.toNat < b.maxCode

/-- The ranges of unit `C`'s state (R23, R26, R27, R29), and what its phase says of it (R38, R43, R226). -/
structure CShape (b : Build) (c : CUnit) : Prop where
  bpOk    : BufferOk b c.bpBuf
  srOk    : BufferOk b c.srBuf
  trieOk  : storeWf c.trie
  bpIdx   : c.bpIdx < 8 * b.blockBytes
  srIdx   : c.srIdx ≤ c.srEnd
  srEnd   : c.srEnd ≤ b.blockBytes
  tape    : c.symIn.pos ≤ c.symIn.bytes.length
  status  : c.status = .none
  noFault : c.phase ≠ .fault
  counter : c.phase = .run → CounterOk b c.next
  flushed : c.phase ≠ .run → c.bpIdx = 0
  idle    : c.phase = .idle → c.byteOut = [] ∧ c.srIdx = c.srEnd ∧ c.symIn.pos = 0

/-- The ranges of unit `D`'s state (R30, R31, R33, R34, R36), and what its phase says of it (R38, R43, R228). -/
structure DShape (b : Build) (d : DUnit) : Prop where
  buOk    : BufferOk b d.buBuf
  wwOk    : BufferOk b d.wwBuf
  wtOk    : storeWf d.wt
  slots   : ∀ e ∈ d.wt, e.1 < b.maxCode
  buIdx   : d.buIdx ≤ d.buEnd
  buEnd   : d.buEnd ≤ 8 * b.blockBytes
  bytes   : 8 ∣ d.buEnd
  wwIdx   : d.wwIdx < b.blockBytes
  tape    : d.byteIn.pos ≤ d.byteIn.bytes.length
  status  : d.status ≠ .none ↔ d.phase = .fault
  noOom   : d.status ≠ .oom
  counter : d.phase = .run → CounterOk b d.next
  flushed : d.phase ≠ .run → d.wwIdx = 0
  idle    : d.phase = .idle → d.symOut = [] ∧ d.prot = 0#16 ∧ d.buIdx = d.buEnd ∧ d.byteIn.pos = 0

/-- The trie invariants of R25, (a) to (e), for a unit in `RUN`. (a) is that no entry holds a code below `START_CODE`, so
none holds `EMPTY_CODE`, part of (b). -/
structure TrieInv (b : Build) (c : CUnit) : Prop where
  /-- (b), first half. -/
  range  : ∀ n x v, trieGet c.trie n x = some v → b.startCode.toNat ≤ v.toNat ∧ v.toNat < c.next.toNat
  /-- (b), second half: each assigned code stands somewhere ... -/
  onto   : ∀ v : Code, b.startCode.toNat ≤ v.toNat → v.toNat < c.next.toNat → ∃ n x, trieGet c.trie n x = some v
  /-- ... and in one place only. -/
  once   : ∀ n x n' x' v, trieGet c.trie n x = some v → trieGet c.trie n' x' = some v → n = n' ∧ x = x'
  /-- (c). -/
  closed : ∀ n x v, trieGet c.trie n x = some v →
    (n = b.emptyCode ∨ ∃ n' x', trieGet c.trie n' x' = some n) ∧ n.toNat < v.toNat
  /-- (d). -/
  walk   : c.cur = b.emptyCode ∨ trieGet c.trie c.par c.lsym = some c.cur
  /-- (e). -/
  count  : c.trie.length = c.next.toNat - b.startCode.toNat

/-- The word-table invariants of R32, (a) to (c), for a unit in `RUN`. -/
structure WtInv (b : Build) (d : DUnit) : Prop where
  /-- (a). -/
  root   : storeGet d.wt b.emptyCode.toNat = some []
  /-- (b). -/
  filled : ∀ a, (storeGet d.wt a).isSome = true ↔
    a = b.emptyCode.toNat ∨ (b.startCode.toNat ≤ a ∧ a < d.next.toNat)
  /-- (c). -/
  parent : ∀ a, b.startCode.toNat ≤ a → a < d.next.toNat →
    ∃ p w x, storeGet d.wt a = some (w ++ [x]) ∧ storeGet d.wt p = some w ∧ (p = b.emptyCode.toNat ∨ p < a)

/-- The state is one the hardware can hold: an admitted build and both units in their ranges. -/
structure Shape (s : State) : Prop where
  build : s.build.Admitted
  c     : CShape s.build s.c
  d     : DShape s.build s.d

/-- The state is one the hardware can hold, and the dictionaries are as R25 and R32 say. -/
structure Inv (s : State) : Prop where
  shape : Shape s
  trie  : s.c.phase = .run → TrieInv s.build s.c
  wt    : s.d.phase = .run → WtInv s.build s.d

/-! ### What the outside sees, and the spec's own words for recurring effects -/

/-- What the host reads of unit `C` is the same in two states (R40, R21). -/
structure PortsC (c c' : CUnit) : Prop where
  phase     : c.phase = c'.phase
  status    : c.status = c'.status
  totalSyms : c.totalSyms = c'.totalSyms
  totalBits : c.totalBits = c'.totalBits
  byteOut   : c.byteOut = c'.byteOut

/-- What the host reads of unit `D` is the same in two states (R40, R22). -/
structure PortsD (d d' : DUnit) : Prop where
  phase     : d.phase = d'.phase
  status    : d.status = d'.status
  prot      : d.prot = d'.prot
  totalBits : d.totalBits = d'.totalBits
  totalSyms : d.totalSyms = d'.totalSyms
  symOut    : d.symOut = d'.symOut

/-- The bits of a pair on the wire, written from R68: `code[0] .. code[w-1]`, then `sym[0] .. sym[7]`. -/
def wireBits (code : Code) (sym : Byte) (w : Nat) : List Bool :=
  (List.range w).map (fun i => code.getLsbD i) ++ (List.range 8).map (fun i => sym.getLsbD i)

/-- The code test of R194, as the rule writes it. -/
def ValidCode (b : Build) (next code : Code) : Prop :=
  code = b.emptyCode ∨ (b.startCode.toNat ≤ code.toNat ∧ code.toNat < next.toNat)

/-- The code of the pair of width `w` unit `D` would read next (R97). -/
def nextCode (d : DUnit) (w : Nat) : Code := BitVec.ofNat 16 (natOf ((inBits d).take w))

/-- The symbol of the pair of width `w` unit `D` would read next (R97). -/
def nextSym (d : DUnit) (w : Nat) : Byte := BitVec.ofNat 8 (natOf (((inBits d).drop w).take 8))

/-- Unit `D` after fault entry, as R228 writes it: the buffered bytes on the tape, the status, the phase. -/
def faultEntry (cause : Cause) (d : DUnit) : DUnit :=
  { d with symOut := d.symOut ++ memBytes d.wwBuf d.wwIdx, wwIdx := 0, status := cause, phase := .fault }

/-- Unit `C` after reset with the elements R43 leaves unspecified taken from any other unit. -/
def CUnit.resetFrom (u : CUnit) : CUnit :=
  { CUnit.reset with cur := u.cur, par := u.par, lsym := u.lsym, next := u.next, trie := u.trie, bpBuf := u.bpBuf,
                     srBuf := u.srBuf }

/-- Unit `D` after reset with the elements R43 leaves unspecified taken from any other unit. -/
def DUnit.resetFrom (u : DUnit) : DUnit :=
  { DUnit.reset with next := u.next, code := u.code, sym := u.sym, wt := u.wt, buBuf := u.buBuf, wwBuf := u.wwBuf }

/-! ### Runs -/

/-- Operations one after another, stopping at the first fault or refusal. -/
def execAll : List Instr → State → Host.Outcome State Fault Refusal
  | [], s => .next s
  | i :: is, s => andThen (exec i s) (execAll is)

/-- `k` steps, stopping at the first fault or refusal. -/
def runSteps : Nat → State → Host.Outcome State Fault Refusal
  | 0, s => .next s
  | k + 1, s => andThen (step s) (runSteps k)

/-- Unit `C` just after its launch on an input (R254): reset, `c_prot` driven, the tape supplied, `go` set. -/
def launchedC (input : List Byte) (prot : BitVec 16) : CUnit :=
  { CUnit.reset with go := true, protPin := prot, symIn := { bytes := input, pos := 0 } }

/-- Unit `D` just after its launch on a tape (R254). -/
def launchedD (tape : List Byte) : DUnit :=
  { DUnit.reset with go := true, byteIn := { bytes := tape, pos := 0 } }

/-- A system of a given build whose unit `C` has just been launched, unit `D` being reset and not launched. -/
def launchC (b : Build) (input : List Byte) (prot : BitVec 16) : State :=
  { build := b, c := launchedC input prot, d := DUnit.reset, sched := [], ret := .nothing }

/-- A system of a given build whose unit `D` has just been launched, unit `C` being reset and not launched. -/
def launchD (b : Build) (tape : List Byte) : State :=
  { build := b, c := CUnit.reset, d := launchedD tape, sched := [], ret := .nothing }

/-- `ENCODE(input, prot)` is `out` (R112): a run of unit `C` of `N + 2` agent steps (R175) ends in `DONE` with that
`BYTEOUT`. -/
def Encodes (b : Build) (input : List Byte) (prot : BitVec 16) (out : List Byte) : Prop :=
  ∃ t, runSteps (input.length + 2) (launchC b input prot) = .next t ∧ t.c.phase = .done ∧ t.c.byteOut = out

/-- The end of a run of unit `D` on a tape: enough steps for every pair (each takes 8 bits or more) leave `RUN`. -/
def DecodesTo (b : Build) (tape : List Byte) (t : State) : Prop :=
  runSteps (tape.length + 2) (launchD b tape) = .next t ∧ t.d.phase ≠ .run ∧ t.d.phase ≠ .idle

/-- `DECODE(tape)` is `(phase, status, out)` (R112). -/
def Decodes (b : Build) (tape : List Byte) (phase : Phase) (status : Cause) (out : List Byte) : Prop :=
  ∃ t, DecodesTo b tape t ∧ t.d.phase = phase ∧ t.d.status = status ∧ t.d.symOut = out

/-- A step that goes on. -/
def Safe (s : State) : Prop := ∃ t, step s = .next t

end Sys2Proof.Machine
end

