-- ==== Sys2Proof/Certificates/Slice0/Obligations.lean ====
section
/-! DEFINITION. The statements for the provers. -/

open Sys2Proof Sys2Proof.Machine

/-! ### Primitives -/

/-- R120: `PRIM.BITLEN(n)` returns the least width that holds `n`, and changes nothing else. -/
def Obligations.BitlenIsTheLeastWidth : Prop :=
  ∀ (s : State) (n : Code), exec (.primBitlen n) s = .next { s with ret := .width (bitlen n.toNat) } ∧
    n.toNat < 2 ^ bitlen n.toNat ∧ ∀ v, n.toNat < 2 ^ v → bitlen n.toNat ≤ v

/-- R121: the laws of `bitlen`, and that the width does not fall within an epoch. -/
def Obligations.BitlenLaws : Prop :=
  (∀ m n : Nat, m ≤ n → bitlen m ≤ bitlen n) ∧
  (∀ n : Nat, n < 2 ^ bitlen n ∧ (1 ≤ n → 2 ^ (bitlen n - 1) ≤ n)) ∧
  (∀ n : Nat, bitlen (n + 1) = bitlen n ∨ bitlen (n + 1) = bitlen n + 1) ∧
  (∀ (b : Build) (n : Code), b.Admitted → CounterOk b n → (incCode b n).2 = false →
    bitlen n.toNat ≤ bitlen (incCode b n).1.toNat)

/-- R122, R123: in a run the width lies between those of `START_CODE` and `MAX_CODE - 1`, is 2 to 16, and holds every
code below the counter and both reserved codes. -/
def Obligations.WidthHoldsEveryCodeOfARun : Prop :=
  ∀ (s : State) (n : Code), Shape s →
    (s.c.phase = .run ∧ n = s.c.next) ∨ (s.d.phase = .run ∧ n = s.d.next) →
    bitlen s.build.startCode.toNat ≤ bitlen n.toNat ∧ bitlen n.toNat ≤ bitlen (s.build.maxCode - 1) ∧
    2 ≤ bitlen n.toNat ∧ bitlen n.toNat ≤ 16 ∧
    ∀ code : Code, code.toNat < n.toNat ∨ code = s.build.emptyCode ∨ code = s.build.stopCode →
      code.toNat < 2 ^ bitlen n.toNat

/-- R124: the swaps reverse the bytes, change nothing else, and each undoes itself. -/
def Obligations.SwapsReverseTheBytes : Prop :=
  ∀ s : State,
    (∀ v : BitVec 16, ∃ r : BitVec 16, exec (.primSwap16 v) s = .next { s with ret := .half r } ∧
      r.extractLsb' 0 8 = v.extractLsb' 8 8 ∧ r.extractLsb' 8 8 = v.extractLsb' 0 8 ∧
      exec (.primSwap16 r) s = .next { s with ret := .half v }) ∧
    (∀ v : BitVec 32, ∃ r : BitVec 32, exec (.primSwap32 v) s = .next { s with ret := .full r } ∧
      r.extractLsb' 0 8 = v.extractLsb' 24 8 ∧ r.extractLsb' 8 8 = v.extractLsb' 16 8 ∧
      r.extractLsb' 16 8 = v.extractLsb' 8 8 ∧ r.extractLsb' 24 8 = v.extractLsb' 0 8 ∧
      exec (.primSwap32 r) s = .next { s with ret := .full v })

/-- R126: `PRIM.INCCODE(n)` on its operand range. -/
def Obligations.InccodeAdvancesOrRestarts : Prop :=
  ∀ (s : State) (n : Code), s.build.Admitted → s.build.startCode.toNat ≤ n.toNat → n.toNat < s.build.maxCode →
    ∃ m r, exec (.primInccode n) s = .next { s with ret := .inc m r } ∧ m.toNat ≠ s.build.maxCode ∧
      (n.toNat + 1 = s.build.maxCode → m = s.build.startCode ∧ r = true) ∧
      (n.toNat + 1 ≠ s.build.maxCode → m.toNat = n.toNat + 1 ∧ r = false)

/-- The model's choices for operands the spec gives no result for: `PRIM.INCCODE` outside its range runs and returns a free
value (log 12), `BU.RDPAIR` wider than 16 is refused (D34, U10; log 13), and a code of `MAX_CODE` or more names no slot
(R63; log 15). -/
def Obligations.OperandsOutsideTheirRange : Prop :=
  ∀ s : State,
    (∀ n : Code, ∃ m r, exec (.primInccode n) s = .next { s with ret := .inc m r }) ∧
    (∀ w, 16 < w → exec (.buRdpair w) s = .refused .widthNotAdmitted) ∧
    (∀ code : Code, s.build.maxCode ≤ code.toNat →
      exec (.wtLookup code) s = .fault .noSuchSlot ∧ ∀ word, exec (.wtStore code word) s = .fault .noSuchSlot)

/-! ### Bit packer -/

/-- R130: `BP.PUTBIT(x)` in every state: the bit, the index, the counter, the block transfer, and nothing else. -/
def Obligations.PutbitAppendsOneBit : Prop :=
  ∀ (s : State) (x : Bool), ∃ t, exec (.bpPutbit x) s = .next t ∧
    (∀ k, bufBit t.c.bpBuf k = if k = s.c.bpIdx then x else bufBit s.c.bpBuf k) ∧
    (∀ a, a ≠ s.c.bpIdx / 8 → memRead t.c.bpBuf a = memRead s.c.bpBuf a) ∧
    t.c.totalBits = s.c.totalBits + 1#64 ∧
    (s.c.bpIdx + 1 = 8 * s.build.blockBytes →
      t.c.byteOut = s.c.byteOut ++ memBytes t.c.bpBuf s.build.blockBytes ∧ t.c.bpIdx = 0) ∧
    (s.c.bpIdx + 1 ≠ 8 * s.build.blockBytes → t.c.byteOut = s.c.byteOut ∧ t.c.bpIdx = s.c.bpIdx + 1) ∧
    t = { s with c := { s.c with bpBuf := t.c.bpBuf, bpIdx := t.c.bpIdx, totalBits := t.c.totalBits,
                                 byteOut := t.c.byteOut }, ret := .nothing }

/-- R132: `BP.WRPAIR(code, sym, w)` is its `BP.PUTBIT`s in order; its net effect; the bytes of `bp_buf` it leaves alone. -/
def Obligations.WrpairIsItsPutbits : Prop :=
  ∀ (s : State) (code : Code) (sym : Byte) (w : Nat), w ≤ 16 →
    exec (.bpWrpair code sym w) s = execAll ((wireBits code sym w).map .bpPutbit) s ∧
    ∃ t, exec (.bpWrpair code sym w) s = .next t ∧
      outBits t.c = outBits s.c ++ wireBits code sym w ∧
      t.c.totalBits = s.c.totalBits + BitVec.ofNat 64 (w + 8) ∧
      (1 ≤ s.build.blockBytes → s.c.bpIdx < 8 * s.build.blockBytes →
        t.c.byteOut.length =
          s.c.byteOut.length + s.build.blockBytes * ((s.c.bpIdx + (w + 8)) / (8 * s.build.blockBytes)) ∧
        t.c.bpIdx = (s.c.bpIdx + (w + 8)) % (8 * s.build.blockBytes) ∧
        ∀ a, (∀ j, j < w + 8 → a ≠ (s.c.bpIdx + j) % (8 * s.build.blockBytes) / 8) →
          memRead t.c.bpBuf a = memRead s.c.bpBuf a) ∧
      t = { s with c := { s.c with bpBuf := t.c.bpBuf, bpIdx := t.c.bpIdx, totalBits := t.c.totalBits,
                                   byteOut := t.c.byteOut }, ret := .nothing }

/-- R133: (a) width 0, (b) a code too wide, (c) a width above 16, (d) the same bits wherever they land, (e) the bits
already there stay. -/
def Obligations.WrpairCornerCases : Prop :=
  (∀ (s : State) (code : Code) (sym : Byte) (w : Nat), w ≤ 16 →
    exec (.bpWrpair code sym w) s = exec (.bpWrpair (BitVec.ofNat 16 (code.toNat % 2 ^ w)) sym w) s) ∧
  (∀ (s : State) (code : Code) (sym : Byte) (w : Nat), 16 < w →
    exec (.bpWrpair code sym w) s = .refused .widthNotAdmitted) ∧
  (∀ (code : Code) (sym : Byte) (w : Nat), w ≤ 16 → ∃ bits : List Bool, bits.length = w + 8 ∧
    (w = 0 → bits = (List.range 8).map (fun i => sym.getLsbD i)) ∧ natOf (bits.take w) = code.toNat % 2 ^ w ∧
    ∀ s : State, ∃ t, exec (.bpWrpair code sym w) s = .next t ∧ outBits t.c = outBits s.c ++ bits)

/-- R134: `BP.FLUSH`: the pad bits cleared, the bytes that hold a bit written, the index back at 0; nothing when nothing is
buffered; a second flush does nothing. -/
def Obligations.FlushPadsAndWrites : Prop :=
  ∀ s : State, ∃ t, exec .bpFlush s = .next t ∧
    (s.c.bpIdx = 0 → t = { s with ret := .nothing }) ∧
    (0 < s.c.bpIdx →
      (∀ k, bufBit t.c.bpBuf k =
        if s.c.bpIdx ≤ k ∧ k < 8 * ((s.c.bpIdx + 7) / 8) then false else bufBit s.c.bpBuf k) ∧
      (∀ a, a ≠ s.c.bpIdx / 8 → memRead t.c.bpBuf a = memRead s.c.bpBuf a) ∧
      t = { s with c := { s.c with bpBuf := t.c.bpBuf, bpIdx := 0,
                                   byteOut := s.c.byteOut ++ memBytes t.c.bpBuf ((s.c.bpIdx + 7) / 8) },
                   ret := .nothing }) ∧
    exec .bpFlush t = .next t

/-- R135: the header, then any pairs, then the flush, put on the tape the six header bytes and the packed bits, whatever
`BLOCK_BYTES` is. -/
def Obligations.PackerTapeIsThePackedBits : Prop :=
  ∀ (s : State) (prot : BitVec 16) (pairs : List (Code × Byte × Nat)), s.build.Admitted → s.c.byteOut = [] →
    s.c.bpIdx = 0 → (∀ p ∈ pairs, p.2.2 ≤ 16) →
    ∃ t, execAll (.hdrWr prot :: pairs.map (fun p => .bpWrpair p.1 p.2.1 p.2.2) ++ [.bpFlush]) s = .next t ∧
      t.c.byteOut = headerBytes s.build.magic prot ++ pack (pairs.flatMap (fun p => wireBits p.1 p.2.1 p.2.2)) ∧
      t.c.byteOut.length = 6 + ((pairs.map (fun p => p.2.2 + 8)).sum + 7) / 8 ∧
      t.c.totalBits = s.c.totalBits + BitVec.ofNat 64 (pairs.map (fun p => p.2.2 + 8)).sum

/-- R85: `unpack` after `pack` gives the bits back, followed by the zeros that fill the last byte; `pack` and `unpack` bit
by bit. -/
def Obligations.PackAndUnpackAgree : Prop :=
  ∀ (b : List Bool) (y : List Byte),
    (pack b).length = (b.length + 7) / 8 ∧ (unpack y).length = 8 * y.length ∧
    (∀ i j, i < 8 → j < (pack b).length → ((pack b).getD j 0#8).getLsbD i = b.getD (8 * j + i) false) ∧
    (∀ i j, i < 8 → j < y.length → (unpack y).getD (8 * j + i) false = (y.getD j 0#8).getLsbD i) ∧
    unpack (pack b) = b ++ List.replicate ((8 - b.length % 8) % 8) false

/-! ### Bit unpacker -/

/-- R145: `BU.GETBIT`: a buffered bit; a refill and its first bit; `END`, which changes nothing. -/
def Obligations.GetbitDeliversOrEnds : Prop :=
  ∀ s : State, 1 ≤ s.build.blockBytes →
    (s.d.buIdx ≠ s.d.buEnd →
      exec .buGetbit s = .next { s with d := { s.d with buIdx := s.d.buIdx + 1, totalBits := s.d.totalBits + 1#64 },
                                        ret := .bit (some (bufBit s.d.buBuf s.d.buIdx)) }) ∧
    (s.d.buIdx = s.d.buEnd → unread s.d.byteIn = [] → exec .buGetbit s = .next { s with ret := .bit none }) ∧
    (s.d.buIdx = s.d.buEnd → unread s.d.byteIn ≠ [] → ∃ blk t, blk = (unread s.d.byteIn).take s.build.blockBytes ∧
      exec .buGetbit s = .next t ∧
      (∀ a, memRead t.d.buBuf a = if a < blk.length then blk.getD a 0#8 else memRead s.d.buBuf a) ∧
      t = { s with d := { s.d with buBuf := t.d.buBuf, buEnd := 8 * blk.length, buIdx := 1,
                                   totalBits := s.d.totalBits + 1#64,
                                   byteIn := { s.d.byteIn with pos := s.d.byteIn.pos + blk.length } },
                   ret := .bit (some ((blk.getD 0 0#8).getLsbD 0)) })

/-- R148, R149, R150: `BU.RDPAIR(w)` takes its bits by `BU.GETBIT`; a complete pair is latched; a truncated one is not, and
its bits stay taken. -/
def Obligations.RdpairReadsOneOrTruncates : Prop :=
  ∀ (s : State) (w : Nat), Shape s → w ≤ 16 →
    ∃ u, execAll (List.replicate (w + 8) .buGetbit) s = .next u ∧
      inBits u.d = (inBits s.d).drop (w + 8) ∧
      u.d.totalBits = s.d.totalBits + BitVec.ofNat 64 (min (w + 8) (inBits s.d).length) ∧
      u = { s with d := { s.d with buBuf := u.d.buBuf, buIdx := u.d.buIdx, buEnd := u.d.buEnd,
                                   totalBits := u.d.totalBits,
                                   byteIn := { s.d.byteIn with pos := u.d.byteIn.pos } }, ret := u.ret } ∧
      (∀ a, s.build.blockBytes ≤ a → memRead u.d.buBuf a = memRead s.d.buBuf a) ∧
      (s.d.buIdx + (w + 8) ≤ s.d.buEnd → u.d.buBuf = s.d.buBuf) ∧
      (w + 8 ≤ (inBits s.d).length →
        exec (.buRdpair w) s =
          .next { u with d := { u.d with code := nextCode s.d w, sym := nextSym s.d w },
                         ret := .pair (nextCode s.d w != s.build.stopCode) false }) ∧
      ((inBits s.d).length < w + 8 → exec (.buRdpair w) s = .next { u with ret := .pair false true })

/-! ### Symbol reader and word writer -/

/-- R160: `SR.RDSYM`: a buffered symbol; a refill and its first symbol; no symbol at the end, which changes nothing. -/
def Obligations.RdsymDeliversOrEnds : Prop :=
  ∀ s : State, 1 ≤ s.build.blockBytes →
    (s.c.srIdx ≠ s.c.srEnd →
      exec .srRdsym s = .next { s with c := { s.c with srIdx := s.c.srIdx + 1, totalSyms := s.c.totalSyms + 1#64 },
                                       ret := .sym (some (memRead s.c.srBuf s.c.srIdx)) }) ∧
    (s.c.srIdx = s.c.srEnd → unread s.c.symIn = [] → exec .srRdsym s = .next { s with ret := .sym none }) ∧
    (s.c.srIdx = s.c.srEnd → unread s.c.symIn ≠ [] → ∃ blk t, blk = (unread s.c.symIn).take s.build.blockBytes ∧
      exec .srRdsym s = .next t ∧
      (∀ a, memRead t.c.srBuf a = if a < blk.length then blk.getD a 0#8 else memRead s.c.srBuf a) ∧
      t = { s with c := { s.c with srBuf := t.c.srBuf, srEnd := blk.length, srIdx := 1,
                                   totalSyms := s.c.totalSyms + 1#64,
                                   symIn := { s.c.symIn with pos := s.c.symIn.pos + blk.length } },
                   ret := .sym (some (blk.getD 0 0#8)) })

/-- R163: `WW.WRWORD(word)`: the empty word does nothing, a word is its bytes one by one, one byte is buffered, counted and
perhaps ends a block; the net effect; the bytes of `ww_buf` it leaves alone. -/
def Obligations.WrwordWritesItsBytes : Prop :=
  ∀ s : State, exec (.wwWrword []) s = .next { s with ret := .nothing } ∧
    (∀ x word, exec (.wwWrword (x :: word)) s = andThen (exec (.wwWrword [x]) s) (exec (.wwWrword word))) ∧
    (∀ x, ∃ t, exec (.wwWrword [x]) s = .next t ∧
      (∀ a, memRead t.d.wwBuf a = if a = s.d.wwIdx then x else memRead s.d.wwBuf a) ∧
      t.d.totalSyms = s.d.totalSyms + 1#64 ∧
      (s.d.wwIdx + 1 = s.build.blockBytes →
        t.d.symOut = s.d.symOut ++ memBytes t.d.wwBuf s.build.blockBytes ∧ t.d.wwIdx = 0) ∧
      (s.d.wwIdx + 1 ≠ s.build.blockBytes → t.d.symOut = s.d.symOut ∧ t.d.wwIdx = s.d.wwIdx + 1)) ∧
    (∀ word, ∃ t, exec (.wwWrword word) s = .next t ∧ outSyms t.d = outSyms s.d ++ word ∧
      t.d.totalSyms = s.d.totalSyms + BitVec.ofNat 64 word.length ∧
      (s.d.wwIdx < s.build.blockBytes →
        ∀ a, (∀ j, j < word.length → a ≠ (s.d.wwIdx + j) % s.build.blockBytes) →
          memRead t.d.wwBuf a = memRead s.d.wwBuf a) ∧
      t = { s with d := { s.d with wwBuf := t.d.wwBuf, wwIdx := t.d.wwIdx, totalSyms := t.d.totalSyms,
                                   symOut := t.d.symOut }, ret := .nothing })

/-- R164: `WW.FLUSH` writes what is buffered, or nothing; a second flush does nothing. -/
def Obligations.WordFlushWritesTheBuffer : Prop :=
  ∀ s : State, ∃ t, exec .wwFlush s = .next t ∧
    (s.d.wwIdx = 0 → t = { s with ret := .nothing }) ∧
    (0 < s.d.wwIdx →
      t = { s with d := { s.d with symOut := s.d.symOut ++ memBytes s.d.wwBuf s.d.wwIdx, wwIdx := 0 },
                   ret := .nothing }) ∧
    exec .wwFlush t = .next t

/-- R165: words, then the flush, put their bytes on `SYMOUT`, whatever `BLOCK_BYTES` is; before the flush, whole blocks. -/
def Obligations.WriterTapeIsTheWords : Prop :=
  ∀ (s : State) (words : List Word), 1 ≤ s.build.blockBytes → s.d.symOut = [] → s.d.wwIdx = 0 →
    ∃ u t, execAll (words.map .wwWrword) s = .next u ∧ exec .wwFlush u = .next t ∧
      t.d.symOut = words.flatten ∧ t.d.totalSyms = s.d.totalSyms + BitVec.ofNat 64 words.flatten.length ∧
      u.d.symOut =
        words.flatten.take (s.build.blockBytes * (words.flatten.length / s.build.blockBytes))

/-! ### Trie and encoder -/

/-- R170, R173: `TRIE.CREATE` and `TRIE.RESET` leave every position absent, and change nothing else. -/
def Obligations.TrieCreateAndResetEmptyIt : Prop :=
  ∀ s : State, ∃ t, exec .trieCreate s = .next t ∧ exec .trieReset s = .next t ∧
    (∀ n x, trieGet t.c.trie n x = none) ∧ t = { s with c := { s.c with trie := t.c.trie }, ret := .nothing }

/-- R171, R172: `TRIE.STEP` reads and writes nothing; `TRIE.INSERT` writes its one position. -/
def Obligations.TrieStepReadsInsertWrites : Prop :=
  ∀ (s : State) (node : Code) (sym : Byte),
    exec (.trieStep node sym) s = .next { s with ret := .child (trieGet s.c.trie node sym) } ∧
    ∀ code : Code, ∃ t, exec (.trieInsert node sym code) s = .next t ∧
      (∀ n x, trieGet t.c.trie n x = if n = node ∧ x = sym then some code else trieGet s.c.trie n x) ∧
      t = { s with c := { s.c with trie := t.c.trie }, ret := .nothing }

/-- R81: a dictionary write is seen by the very next lookup; a reset takes full effect before it. -/
def Obligations.DictionaryWritesAreSeenAtOnce : Prop :=
  (∀ (s : State) (node : Code) (sym : Byte) (code : Code), ∃ t,
    execAll [.trieInsert node sym code, .trieStep node sym] s = .next t ∧ t.ret = .child (some code)) ∧
  (∀ (s : State) (node : Code) (sym : Byte), ∃ t,
    execAll [.trieReset, .trieStep node sym] s = .next t ∧ t.ret = .child none) ∧
  (∀ (s : State) (code : Code) (word : Word), code.toNat < s.build.maxCode → ∃ t,
    execAll [.wtStore code word, .wtLookup code] s = .next t ∧ t.ret = .word (some word)) ∧
  (∀ (s : State) (code : Code), code.toNat < s.build.maxCode → ∃ t,
    execAll [.wtReset, .wtLookup code] s = .next t ∧
      t.ret = .word (if code = s.build.emptyCode then some [] else none))

/-- R174: `C.START`: when it is enabled, and what it does. -/
def Obligations.CStartLaunchesTheEncoder : Prop :=
  ∀ s : State, (nextOp .c s = some .cStart ↔ s.c.phase = .idle ∧ s.c.go = true) ∧
   (s.c.phase = .idle → s.c.go = true → ∃ t, exec .cStart s = .next t ∧
    (∀ n x, trieGet t.c.trie n x = none) ∧
    t = { s with c := { s.c with
            byteOut := s.c.byteOut ++
              [s.build.magic.extractLsb' 0 8, s.build.magic.extractLsb' 8 8, s.build.magic.extractLsb' 16 8,
               s.build.magic.extractLsb' 24 8, s.c.protPin.extractLsb' 0 8, s.c.protPin.extractLsb' 8 8],
            trie := t.c.trie, cur := s.build.emptyCode, next := s.build.startCode, phase := .run }, ret := .nothing })

/-- R176, R177: `C.SYM(sym)`: a match moves the walk and writes nothing; a miss writes the pair at the width of the counter
before its advance, inserts, goes back to the root, and advances or restarts the counter, emptying the trie then. -/
def Obligations.CSymWalksOrEmits : Prop :=
  ∀ (s : State) (sym : Byte),
    (∀ child, trieGet s.c.trie s.c.cur sym = some child →
      exec (.cSym sym) s =
        .next { s with c := { s.c with par := s.c.cur, cur := child, lsym := sym }, ret := .nothing }) ∧
    (trieGet s.c.trie s.c.cur sym = none → s.build.Admitted → CounterOk s.build s.c.next →
      ∃ u t, exec (.bpWrpair s.c.cur sym (bitlen s.c.next.toNat)) s = .next u ∧ exec (.cSym sym) s = .next t ∧
        t = { u with c := { u.c with cur := s.build.emptyCode, lsym := sym, next := t.c.next, trie := t.c.trie } } ∧
        (s.c.next.toNat + 1 = s.build.maxCode →
          t.c.next = s.build.startCode ∧ ∀ n x, trieGet t.c.trie n x = none) ∧
        (s.c.next.toNat + 1 < s.build.maxCode → t.c.next.toNat = s.c.next.toNat + 1 ∧
          ∀ n x, trieGet t.c.trie n x =
            if n = s.c.cur ∧ x = sym then some s.c.next else trieGet s.c.trie n x))

/-- R180, R181: `C.END`: at the root, the stop pair and the flush; with a prefix pending, first the final pair, after which
the counter advances or restarts exactly as after a miss. -/
def Obligations.CEndClosesTheStream : Prop :=
  ∀ s : State, s.build.Admitted → CounterOk s.build s.c.next →
    (s.c.cur = s.build.emptyCode → ∃ t,
      execAll [.bpWrpair s.build.stopCode 0#8 (bitlen s.c.next.toNat), .bpFlush] s = .next t ∧
      exec .cEnd s = .next { t with c := { t.c with phase := .done } }) ∧
    (s.c.cur ≠ s.build.emptyCode → ∃ u v t : State,
      exec (.bpWrpair s.c.par s.c.lsym (bitlen s.c.next.toNat)) s = .next u ∧
      v = { u with c := { u.c with cur := s.build.emptyCode, next := v.c.next, trie := v.c.trie } } ∧
      (s.c.next.toNat + 1 = s.build.maxCode →
        v.c.next = s.build.startCode ∧ ∀ n x, trieGet v.c.trie n x = none) ∧
      (s.c.next.toNat + 1 < s.build.maxCode →
        v.c.next.toNat = s.c.next.toNat + 1 ∧ v.c.trie = s.c.trie) ∧
      execAll [.bpWrpair s.build.stopCode 0#8 (bitlen v.c.next.toNat), .bpFlush] v = .next t ∧
      exec .cEnd s = .next { t with c := { t.c with phase := .done } })

/-- R175: `C.STEP` in `RUN` reads a symbol and does `C.SYM` with it, or `C.END` when there is none. -/
def Obligations.CStepIsSymOrEnd : Prop :=
  ∀ s : State, s.c.phase = .run → ∃ u x t, exec .srRdsym s = .next u ∧ u.ret = .sym x ∧ exec .cStep s = .next t ∧
    (match x with
      | some sym => exec (.cSym sym) u = .next t
      | none => exec .cEnd u = .next t)

/-- R175, R199: every run ends. Unit `C` takes exactly `N + 2` agent steps on `N` symbols, being in `RUN` after each but the
last. Unit `D`, on any tape, leaves `RUN` within as many steps as the tape has bytes, and two. Both in a system where
nothing else moves (log 7). -/
def Obligations.EveryRunEnds : Prop :=
  ∀ b : Build, b.Admitted →
    (∀ (input : List Byte) (prot : BitVec 16),
      (∀ k, 1 ≤ k → k < input.length + 2 → ∃ t, runSteps k (launchC b input prot) = .next t ∧ t.c.phase = .run) ∧
      ∃ t, runSteps (input.length + 2) (launchC b input prot) = .next t ∧ t.c.phase = .done) ∧
    (∀ tape : List Byte, ∃ t, DecodesTo b tape t)

/-! ### Word table and decoder -/

/-- R190, R195: `WT.CREATE` and `WT.RESET` leave slot `EMPTY_CODE` the empty word, every other slot absent, and change
nothing else. -/
def Obligations.WtCreateAndResetSeedIt : Prop :=
  ∀ s : State, ∃ t, exec .wtCreate s = .next t ∧ exec .wtReset s = .next t ∧
    (∀ code : Code, storeGet t.d.wt code.toNat = if code = s.build.emptyCode then some [] else none) ∧
    t = { s with d := { s.d with wt := t.d.wt }, ret := .nothing }

/-- R191, R192, R193: `WT.LOOKUP` reads, and gives a word for every valid code of a run; `WORD.APPEND` is a function;
`WT.STORE` writes its one slot. -/
def Obligations.WtLookupAppendStore : Prop :=
  (∀ (s : State) (code : Code), code.toNat < s.build.maxCode →
    exec (.wtLookup code) s = .next { s with ret := .word (storeGet s.d.wt code.toNat) }) ∧
  (∀ (s : State) (code : Code), Inv s → s.d.phase = .run → ValidCode s.build s.d.next code →
    ∃ word, exec (.wtLookup code) s = .next { s with ret := .word (some word) } ∧
      (code = s.build.emptyCode → word = [])) ∧
  (∀ (s : State) (word : Word) (sym : Byte),
    exec (.wordAppend word sym) s = .next { s with ret := .word (some (word ++ [sym])) }) ∧
  (∀ (s : State) (code : Code) (word : Word), code.toNat < s.build.maxCode → ∃ t,
    exec (.wtStore code word) s = .next t ∧
      (∀ a, storeGet t.d.wt a = if a = code.toNat then some word else storeGet s.d.wt a) ∧
      t = { s with d := { s.d with wt := t.d.wt }, ret := .nothing })

/-- R198: `D.START`: when it is enabled; `HDR.RD`; then, unless it raised, the word table, the counter and the phase. -/
def Obligations.DStartLaunchesTheDecoder : Prop :=
  ∀ s : State, (nextOp .d s = some .dStart ↔ s.d.phase = .idle ∧ s.d.go = true) ∧
   (s.d.phase = .idle → s.d.go = true → ∃ u, exec .hdrRd s = .next u ∧
    (u.d.phase = .fault → exec .dStart s = .next u) ∧
    (u.d.phase ≠ .fault → ∃ t, exec .dStart s = .next t ∧
      (∀ code : Code, storeGet t.d.wt code.toNat = if code = s.build.emptyCode then some [] else none) ∧
      t = { u with d := { u.d with wt := t.d.wt, next := s.build.startCode, phase := .run } }))

/-- R212, R213: `HDR.RD`: six bytes with the right magic give `d_prot`; a wrong magic raises `BAD_MAGIC`; fewer than six
bytes raise `HDR_SHORT`, whatever they are. -/
def Obligations.HdrRdAcceptsOrRaises : Prop :=
  ∀ s : State,
    (∀ (h0 h1 h2 h3 h4 h5 : Byte) (rest : List Byte), unread s.d.byteIn = h0 :: h1 :: h2 :: h3 :: h4 :: h5 :: rest →
      (h0.toNat + 2 ^ 8 * h1.toNat + 2 ^ 16 * h2.toNat + 2 ^ 24 * h3.toNat = s.build.magic.toNat →
        exec .hdrRd s = .next { s with
          d := { s.d with byteIn := { s.d.byteIn with pos := s.d.byteIn.pos + 6 },
                          prot := BitVec.ofNat 16 (h4.toNat + 2 ^ 8 * h5.toNat) }, ret := .nothing }) ∧
      (h0.toNat + 2 ^ 8 * h1.toNat + 2 ^ 16 * h2.toNat + 2 ^ 24 * h3.toNat ≠ s.build.magic.toNat →
        exec .hdrRd s = .next { s with
          d := faultEntry .badMagic { s.d with byteIn := { s.d.byteIn with pos := s.d.byteIn.pos + 6 } },
          ret := .nothing })) ∧
    ((unread s.d.byteIn).length < 6 →
      exec .hdrRd s = .next { s with
        d := faultEntry .hdrShort
          { s.d with byteIn := { s.d.byteIn with pos := s.d.byteIn.pos + (unread s.d.byteIn).length } },
        ret := .nothing })

/-- R196: `D.STEP` on a data pair with a valid code: the pair is read at the width of the counter, its word is the looked-up
word and the symbol, it is stored at the counter and written, and the counter advances or restarts, the table being
re-seeded then. -/
def Obligations.DStepExpandsADataPair : Prop :=
  ∀ (s : State) (w : Nat) (code : Code) (sym : Byte), Inv s → s.d.phase = .run → w = bitlen s.d.next.toNat →
    w + 8 ≤ (inBits s.d).length → code = nextCode s.d w → sym = nextSym s.d w → code ≠ s.build.stopCode →
    ValidCode s.build s.d.next code →
    ∃ u v t word, exec (.buRdpair w) s = .next u ∧ u.d.code = code ∧ u.d.sym = sym ∧
      storeGet s.d.wt code.toNat = some word ∧
      execAll [.wtStore s.d.next (word ++ [sym]), .wwWrword (word ++ [sym])] u = .next v ∧ exec .dStep s = .next t ∧
      t = { v with d := { v.d with next := t.d.next, wt := t.d.wt } } ∧
      (s.d.next.toNat + 1 = s.build.maxCode → t.d.next = s.build.startCode ∧
        ∀ c : Code, storeGet t.d.wt c.toNat = if c = s.build.emptyCode then some [] else none) ∧
      (s.d.next.toNat + 1 < s.build.maxCode → t.d.next.toNat = s.d.next.toNat + 1 ∧ t.d.wt = v.d.wt)

/-- R197: `D.STEP` on the stop pair, whatever its symbol: nothing stored or written, the counter as it was, the writer
flushed, `DONE`, no fault. -/
def Obligations.DStepEndsOnTheStopPair : Prop :=
  ∀ (s : State) (w : Nat), Inv s → s.d.phase = .run → w = bitlen s.d.next.toNat → w + 8 ≤ (inBits s.d).length →
    nextCode s.d w = s.build.stopCode →
    ∃ u v, exec (.buRdpair w) s = .next u ∧ exec .wwFlush u = .next v ∧
      exec .dStep s = .next { v with d := { v.d with phase := .done } } ∧ v.d.status = .none ∧
      v.d.next = s.d.next ∧ v.d.wt = s.d.wt ∧ v.d.symOut = outSyms s.d ∧ v.d.totalSyms = s.d.totalSyms

/-- R194, R201: the code test is exactly "the slot is populated"; a pair that fails it raises `CORRUPT_CODE`, a truncated pair
raises `CORRUPT_TRUNC`; the words of the pairs before are all on `SYMOUT`, and nothing of the failing one. -/
def Obligations.DStepRaisesOnCorruption : Prop :=
  ∀ (s : State) (w : Nat), Inv s → s.d.phase = .run → w = bitlen s.d.next.toNat →
    (∀ code : Code, (storeGet s.d.wt code.toNat).isSome = true ↔ ValidCode s.build s.d.next code) ∧
    ∃ u, exec (.buRdpair w) s = .next u ∧ u.d.symOut ++ memBytes u.d.wwBuf u.d.wwIdx = outSyms s.d ∧
      ((inBits s.d).length < w + 8 →
        exec .dStep s = .next { u with d := faultEntry .corruptTrunc u.d, ret := .nothing }) ∧
      (w + 8 ≤ (inBits s.d).length → nextCode s.d w ≠ s.build.stopCode →
        ¬ ValidCode s.build s.d.next (nextCode s.d w) →
        exec .dStep s = .next { u with d := faultEntry .corruptCode u.d, ret := .nothing })

/-! ### Faults -/

/-- From R228: whichever operation takes unit `D` into `FAULT`, what it does there is fault entry: the buffered bytes flushed,
the cause, the phase, and nothing else. Unit `D` before fault entry is given for each form: for the header, six bytes or what
is left taken from `BYTEIN`; for a pair, what `BU.RDPAIR` leaves. The clauses for the stream units as instructions are the
model's choice (log 11): for `PAIR.DATA`, the pair latched; for `HDR`, unit `D` as it was. No other operation enters `FAULT`,
and no step is enabled after it. -/
def Obligations.FaultEntryChangesNothingElse : Prop :=
  ∀ (i : Instr) (s t : State), exec i s = .next t → s.d.phase ≠ .fault → t.d.phase = .fault →
    nextOp .d t = none ∧ t.c = s.c ∧ t.build = s.build ∧ t.sched = s.sched ∧
    (match i with
      | .hdrRd | .dStart => (t.d.status = .hdrShort ∨ t.d.status = .badMagic) ∧
        t.d = faultEntry t.d.status { s.d with byteIn := (srcRead s.d.byteIn 6).2 }
      | .dStep => (t.d.status = .corruptTrunc ∨ t.d.status = .corruptCode) ∧
        t.d = faultEntry t.d.status (rdPair s.build (bitlen s.d.next.toNat) s.d).2.2
      | .pairData _ code sym => t.d = faultEntry .corruptCode { s.d with code := code, sym := sym }
      | .hdr _ _ => t.d = faultEntry .badMagic s.d
      | _ => False)

/-- R226: no operation raises anything in unit `C`, and none raises `OOM` in unit `D`. -/
def Obligations.UnitCNeverFaults : Prop :=
  ∀ (i : Instr) (s t : State), exec i s = .next t →
    (s.c.phase ≠ .fault → t.c.phase ≠ .fault) ∧ (s.c.status = .none → t.c.status = .none) ∧
    (s.d.status ≠ .oom → t.d.status ≠ .oom)

/-! ### Header -/

/-- R210: `HDR.WR(prot)`: six bytes straight to the tape, and nothing else. -/
def Obligations.HdrWrWritesSixBytes : Prop :=
  ∀ (s : State) (prot : BitVec 16), exec (.hdrWr prot) s = .next { s with
    c := { s.c with byteOut := s.c.byteOut ++
      [s.build.magic.extractLsb' 0 8, s.build.magic.extractLsb' 8 8, s.build.magic.extractLsb' 16 8,
       s.build.magic.extractLsb' 24 8, prot.extractLsb' 0 8, prot.extractLsb' 8 8] }, ret := .nothing }

/-- R214, R215: `HDR.RD` on the output of `HDR.WR(prot)` gives `d_prot = prot` and raises nothing, for every `prot`, in every
state of a unit `D` with the same parameters. -/
def Obligations.HeaderRoundTrip : Prop :=
  ∀ (s s' t : State) (prot : BitVec 16), s.c.byteOut = [] → exec (.hdrWr prot) s = .next t → s'.build = s.build →
    s'.d.byteIn = { bytes := t.c.byteOut, pos := 0 } →
    exec .hdrRd s' = .next { s' with
      d := { s'.d with prot := prot, byteIn := { bytes := t.c.byteOut, pos := 6 } }, ret := .nothing }

/-! ### Stream units -/

/-- The model's meaning of the stream unit `HDR` as an instruction (log 11; R102, R212): the magic is compared, and the
protection field kept or `BAD_MAGIC` raised. -/
def Obligations.HeaderUnitIsChecked : Prop :=
  ∀ (s : State) (magic : BitVec 32) (prot : BitVec 16),
    (magic = s.build.magic →
      exec (.hdr magic prot) s = .next { s with d := { s.d with prot := prot }, ret := .nothing }) ∧
    (magic ≠ s.build.magic →
      exec (.hdr magic prot) s = .next { s with d := faultEntry .badMagic s.d, ret := .nothing })

/-- The model's meaning of the stream units `PAIR.DATA`, `PAIR.STOP` and `PAD` as instructions (log 11; R93, R101, R194,
R196, R197): the pair latched, then expanded, stored, written and counted, or `CORRUPT_CODE`; the run ended; no effect. -/
def Obligations.PairUnitsTakeEffect : Prop :=
  ∀ (s : State) (w : Nat) (sym : Byte),
    (∀ (code : Code) (word : Word), s.build.Admitted → CounterOk s.build s.d.next →
      ValidCode s.build s.d.next code → storeGet s.d.wt code.toNat = some word →
      ∃ v t, execAll [.wtStore s.d.next (word ++ [sym]), .wwWrword (word ++ [sym])]
          { s with d := { s.d with code := code, sym := sym } } = .next v ∧
        exec (.pairData w code sym) s = .next t ∧
        t = { v with d := { v.d with next := t.d.next, wt := t.d.wt } } ∧
        (s.d.next.toNat + 1 = s.build.maxCode → t.d.next = s.build.startCode ∧
          ∀ c : Code, storeGet t.d.wt c.toNat = if c = s.build.emptyCode then some [] else none) ∧
        (s.d.next.toNat + 1 < s.build.maxCode → t.d.next.toNat = s.d.next.toNat + 1 ∧ t.d.wt = v.d.wt)) ∧
    (∀ code : Code, ¬ ValidCode s.build s.d.next code → exec (.pairData w code sym) s =
      .next { s with d := faultEntry .corruptCode { s.d with code := code, sym := sym }, ret := .nothing }) ∧
    (∃ v, exec .wwFlush { s with d := { s.d with code := s.build.stopCode, sym := sym } } = .next v ∧
      exec (.pairStop w sym) s = .next { v with d := { v.d with phase := .done } }) ∧
    (∀ bits, exec (.pad bits) s = .next { s with ret := .nothing })

/-- The bits unit `D` has still to read decode, at the place where it stands, to a stream unit; its step is that unit's
effect on the state with the unit's bits taken (log 11): in `RUN`, a pair at the width of the counter, or truncation; in
`IDLE` and launched, the header, after which an accepted one seeds the table and starts the run, or a short header. -/
def Obligations.StepRunsTheDecodedUnit : Prop :=
  ∀ (s : State) (es : List Event), Inv s → s.sched = .turn .d :: es →
    (s.d.phase = .run →
      (∀ i rest, decode s.build (.pair (bitlen s.d.next.toNat)) (inBits s.d) = .ok i rest → ∃ u : State,
        u = { s with d := { s.d with buBuf := u.d.buBuf, buIdx := u.d.buIdx, buEnd := u.d.buEnd,
                                     totalBits := s.d.totalBits + BitVec.ofNat 64 (bitlen s.d.next.toNat + 8),
                                     byteIn := { s.d.byteIn with pos := u.d.byteIn.pos } }, sched := es } ∧
        inBits u.d = rest ∧ step s = exec i u) ∧
      (decode s.build (.pair (bitlen s.d.next.toNat)) (inBits s.d) = .reject .truncated → ∃ u : State,
        u = { s with d := { s.d with buBuf := u.d.buBuf, buIdx := u.d.buIdx, buEnd := u.d.buEnd,
                                     totalBits := s.d.totalBits + BitVec.ofNat 64 (inBits s.d).length,
                                     byteIn := { s.d.byteIn with pos := u.d.byteIn.pos } }, sched := es } ∧
        inBits u.d = [] ∧ step s = .next { u with d := faultEntry .corruptTrunc u.d, ret := .nothing })) ∧
    (s.d.phase = .idle → s.d.go = true →
      (∀ i rest, decode s.build .header (unpack (unread s.d.byteIn)) = .ok i rest → ∃ u v : State,
        u = { s with d := { s.d with byteIn := { s.d.byteIn with pos := s.d.byteIn.pos + 6 } }, sched := es } ∧
        unpack (unread u.d.byteIn) = rest ∧ exec i u = .next v ∧
        (v.d.phase = .fault → step s = .next v) ∧
        (v.d.phase ≠ .fault → ∃ wt, (∀ code : Code,
            storeGet wt code.toNat = if code = s.build.emptyCode then some [] else none) ∧
          step s = .next { v with d := { v.d with wt := wt, next := s.build.startCode, phase := .run } })) ∧
      (decode s.build .header (unpack (unread s.d.byteIn)) = .reject .truncated →
        step s = .next { s with
          d := faultEntry .hdrShort
            { s.d with byteIn := { s.d.byteIn with pos := s.d.byteIn.pos + (unread s.d.byteIn).length } },
          sched := es, ret := .nothing }))

/-- The words of the opcode table's rows, written out from R90 to R93, decode to what they stand for (`MAGIC = 0xBAADBAAC`,
the vectors' own instance). -/
def Obligations.WrittenOutWordsDecode : Prop :=
  ∀ b : Build, b = { emptyCode := 0#16, stopCode := 1#16, startCode := 2#16, maxCode := 65535, magic := 0xBAADBAAC#32,
                     blockBytes := 4096 } →
    decodeBytes b .header [0xAC#8, 0xBA#8, 0xAD#8, 0xBA#8, 0xA4#8, 0x01#8] = .ok (.hdr 0xBAADBAAC#32 0x01A4#16) [] ∧
    decode b (.pair 2) [false, false, true, false, false, false, false, true, true, false] =
      .ok (.pairData 2 0#16 0x61#8) [] ∧
    decode b (.pair 3) [false, true, false, false, true, false, false, false, true, true, false] =
      .ok (.pairData 3 2#16 0x62#8) [] ∧
    decode b (.pair 2) [true, false, false, false, false, false, false, false, false, false] =
      .ok (.pairStop 2 0#8) [] ∧
    decode b (.pad 4) [false, false, false, false] = .ok (.pad [false, false, false, false]) []

/-- Decoding what the encoder of the model writes gives the unit back, with every operand at every value its encoding
admits, in every build, whatever follows it; and the units with an encoding are exactly the four stream units. -/
def Obligations.DecodeGivesBackTheEncodedUnit : Prop :=
  ∀ (b : Build) (i : Instr),
    (∀ bits ctx rest, i.wf b = true → encode b i = some bits → ctxOf i = some ctx →
      decode b ctx (bits ++ rest) = .ok i rest) ∧
    ((encode b i).isSome = true ↔ (∃ m p, i = .hdr m p) ∨ (∃ w c x, i = .pairData w c x) ∨ (∃ w x, i = .pairStop w x) ∨
      ∃ bits, i = .pad bits) ∧
    ((ctxOf i).isSome = (encode b i).isSome)

/-- What decodes is well formed, and encodes to the bits it was read from: no unit has two encodings, and no encoding two
units. -/
def Obligations.DecodedUnitEncodesBack : Prop :=
  ∀ (b : Build) (ctx : Ctx) (bits : List Bool) (i : Instr) (rest : List Bool), decode b ctx bits = .ok i rest →
    i.wf b = true ∧ ctxOf i = some ctx ∧ ∃ e, encode b i = some e ∧ bits = e ++ rest

/-! ### The machine -/

/-- Which agent step a step of the machine runs (R9, R174, R175, R182, R196, R198, R199), with the model's list of events
and its default order, unit `C` first (log 7), and the refusal of a step that is not enabled (log 14). -/
def Obligations.StepRunsTheEnabledAgent : Prop :=
  ∀ (s : State) (es : List Event),
    (s.c.phase = .idle → s.c.go = true →
      (s.sched = .turn .c :: es → step s = exec .cStart { s with sched := es }) ∧
      (s.sched = [] → step s = exec .cStart s)) ∧
    (s.c.phase = .run →
      (s.sched = .turn .c :: es → step s = exec .cStep { s with sched := es }) ∧
      (s.sched = [] → step s = exec .cStep s)) ∧
    (¬(s.c.phase = .idle ∧ s.c.go = true) → exec .cStart s = .refused .stepNotEnabled) ∧
    (s.c.phase ≠ .run → exec .cStep s = .refused .stepNotEnabled) ∧
    (¬(s.c.phase = .idle ∧ s.c.go = true) → s.c.phase ≠ .run →
      (s.sched = .turn .c :: es → step s = .next { s with sched := es }) ∧
      (s.sched = [] → s.d.phase = .idle → s.d.go = true → step s = exec .dStart s) ∧
      (s.sched = [] → s.d.phase = .run → step s = exec .dStep s) ∧
      (s.sched = [] → ¬(s.d.phase = .idle ∧ s.d.go = true) → s.d.phase ≠ .run → step s = .next s)) ∧
    (s.d.phase = .idle → s.d.go = true → s.sched = .turn .d :: es → step s = exec .dStart { s with sched := es }) ∧
    (s.d.phase = .run → s.sched = .turn .d :: es → step s = exec .dStep { s with sched := es }) ∧
    (¬(s.d.phase = .idle ∧ s.d.go = true) → exec .dStart s = .refused .stepNotEnabled) ∧
    (s.d.phase ≠ .run → exec .dStep s = .refused .stepNotEnabled) ∧
    (¬(s.d.phase = .idle ∧ s.d.go = true) → s.d.phase ≠ .run → s.sched = .turn .d :: es →
      step s = .next { s with sched := es })

/-- The host's moves under R254, R256 and R258: what each does where the model lets it, and the refusals where it does not. The
refusals, and that a supply before `go` replaces the tape of an earlier one, are the model's choice (log 8). -/
def Obligations.HostMovesKeepTheContract : Prop :=
  ∀ s : State,
    (∀ tape, s.c.phase = .idle → s.c.go = false →
      hostStep (.supplySymIn tape) s = .next { s with c := { s.c with symIn := { bytes := tape, pos := 0 } } }) ∧
    (∀ tape, ¬(s.c.phase = .idle ∧ s.c.go = false) → hostStep (.supplySymIn tape) s = .refused .hostTapeAfterGo) ∧
    (∀ tape, s.d.phase = .idle → s.d.go = false →
      hostStep (.supplyByteIn tape) s = .next { s with d := { s.d with byteIn := { bytes := tape, pos := 0 } } }) ∧
    (∀ tape, ¬(s.d.phase = .idle ∧ s.d.go = false) → hostStep (.supplyByteIn tape) s = .refused .hostTapeAfterGo) ∧
    (s.c.phase = .done → hostStep .carry s = hostStep (.supplyByteIn s.c.byteOut) s) ∧
    (s.c.phase ≠ .done → hostStep .carry s = .refused .hostCarryEarly) ∧
    (∀ prot, ¬(s.c.phase = .idle ∧ s.c.go = true) →
      hostStep (.driveCProt prot) s = .next { s with c := { s.c with protPin := prot } }) ∧
    (∀ prot, s.c.phase = .idle → s.c.go = true → hostStep (.driveCProt prot) s = .refused .hostProtMoved) ∧
    (s.c.phase = .idle → s.c.go = false → hostStep .setCGo s = .next { s with c := { s.c with go := true } }) ∧
    (¬(s.c.phase = .idle ∧ s.c.go = false) → hostStep .setCGo s = .refused .hostGoWithoutReset) ∧
    (s.d.phase = .idle → s.d.go = false → hostStep .setDGo s = .next { s with d := { s.d with go := true } }) ∧
    (¬(s.d.phase = .idle ∧ s.d.go = false) → hostStep .setDGo s = .refused .hostGoWithoutReset) ∧
    (∀ m es, s.sched = .host m :: es → step s = hostStep m { s with sched := es })

/-- R43: the values reset leaves, where the table gives one. -/
def Obligations.ResetLeavesTheTablesValues : Prop :=
  (∀ c : CUnit, c = State.reset.c → c.phase = .idle ∧ c.status = .none ∧ c.totalSyms = 0#64 ∧ c.totalBits = 0#64 ∧
    c.bpIdx = 0 ∧ c.srIdx = 0 ∧ c.srEnd = 0 ∧ c.byteOut = [] ∧ c.symIn.pos = 0) ∧
  (∀ d : DUnit, d = State.reset.d → d.phase = .idle ∧ d.status = .none ∧ d.totalBits = 0#64 ∧ d.totalSyms = 0#64 ∧
    d.prot = 0#16 ∧ d.buIdx = 0 ∧ d.buEnd = 0 ∧ d.wwIdx = 0 ∧ d.symOut = [] ∧ d.byteIn.pos = 0)

/-- R250: a pulse of a unit's reset, in any phase, puts that unit at the values of R43, empties its output tape, rewinds its
input tape, and does not touch the other unit. -/
def Obligations.ResetPulseTouchesOneUnit : Prop :=
  ∀ (s : State) (es : List Event),
    (s.sched = .host .pulseCRst :: es → ∃ t, step s = .next t ∧ t.d = s.d ∧ t.build = s.build ∧ t.sched = es ∧
      t.c.phase = .idle ∧ t.c.status = .none ∧ t.c.totalSyms = 0#64 ∧ t.c.totalBits = 0#64 ∧ t.c.bpIdx = 0 ∧
      t.c.srIdx = 0 ∧ t.c.srEnd = 0 ∧ t.c.byteOut = [] ∧ t.c.symIn = { s.c.symIn with pos := 0 }) ∧
    (s.sched = .host .pulseDRst :: es → ∃ t, step s = .next t ∧ t.c = s.c ∧ t.build = s.build ∧ t.sched = es ∧
      t.d.phase = .idle ∧ t.d.status = .none ∧ t.d.totalBits = 0#64 ∧ t.d.totalSyms = 0#64 ∧ t.d.prot = 0#16 ∧
      t.d.buIdx = 0 ∧ t.d.buEnd = 0 ∧ t.d.wwIdx = 0 ∧ t.d.symOut = [] ∧ t.d.byteIn = { s.d.byteIn with pos := 0 })

/-- R230, R250: a unit in `DONE` or `FAULT` stays there, status, registers and tapes unchanged, until its reset is pulsed, and
reset is the only way into `IDLE`. -/
def Obligations.OnlyResetLeavesTheEndOfARun : Prop :=
  ∀ s t : State, step s = .next t →
    (s.c.phase = .done ∨ s.c.phase = .fault →
      (∃ es, s.sched = .host .pulseCRst :: es) ∨ t.c = { s.c with protPin := t.c.protPin }) ∧
    (s.d.phase = .done ∨ s.d.phase = .fault → (∃ es, s.sched = .host .pulseDRst :: es) ∨ t.d = s.d) ∧
    (t.c.phase = .idle → s.c.phase = .idle ∨ ∃ es, s.sched = .host .pulseCRst :: es) ∧
    (t.d.phase = .idle → s.d.phase = .idle ∨ ∃ es, s.sched = .host .pulseDRst :: es)

/-- R20, R44: every operation leaves one unit as it was, and none writes a constant of the build or the events to come: the
operations of unit `C` leave unit `D`, the operations of unit `D` and the stream units leave unit `C`, and the functions
leave both. -/
def Obligations.OperationsTouchOneUnit : Prop :=
  ∀ (i : Instr) (s t : State), exec i s = .next t → t.build = s.build ∧ t.sched = s.sched ∧
    (match i with
      | .primBitlen _ | .primSwap16 _ | .primSwap32 _ | .primInccode _ | .wordAppend _ _ | .trieStep _ _ | .wtLookup _
      | .pad _ => t.c = s.c ∧ t.d = s.d
      | .bpPutbit _ | .bpWrpair _ _ _ | .bpFlush | .srRdsym | .trieCreate | .trieInsert _ _ _ | .trieReset | .cStart
      | .cSym _ | .cEnd | .cStep | .hdrWr _ => t.d = s.d
      | .buGetbit | .buRdpair _ | .wwWrword _ | .wwFlush | .wtCreate | .wtStore _ _ | .wtReset | .dStart | .dStep
      | .hdrRd | .hdr _ _ | .pairData _ _ _ | .pairStop _ _ => t.c = s.c)

/-- The "written by" columns of R21 to R23, R30, R36 to R38 and the access lists of R60, over all instructions: what is not
named there is unchanged (a stream unit counts as the step of unit `D` that reads it, log 11). `c_status` is written by none,
and `d_status` only where fault entry can happen. -/
def Obligations.OnlyTheNamedOperationsWrite : Prop :=
  ∀ (i : Instr) (s t : State), exec i s = .next t →
    t.c.go = s.c.go ∧ t.c.protPin = s.c.protPin ∧ t.d.go = s.d.go ∧ t.c.symIn.bytes = s.c.symIn.bytes ∧
    t.d.byteIn.bytes = s.d.byteIn.bytes ∧
    (match i with | .cStart | .cSym _ | .cEnd | .cStep => True | _ => t.c.cur = s.c.cur ∧ t.c.next = s.c.next) ∧
    (match i with | .cSym _ | .cStep => True | _ => t.c.par = s.c.par ∧ t.c.lsym = s.c.lsym) ∧
    (match i with | .cStart | .cEnd | .cStep => True | _ => t.c.phase = s.c.phase) ∧
    (match i with
      | .trieCreate | .trieInsert _ _ _ | .trieReset | .cStart | .cSym _ | .cEnd | .cStep => True
      | _ => t.c.trie = s.c.trie) ∧
    (match i with
      | .bpPutbit _ | .bpWrpair _ _ _ | .bpFlush | .cSym _ | .cEnd | .cStep => True
      | _ => t.c.bpBuf = s.c.bpBuf ∧ t.c.bpIdx = s.c.bpIdx ∧ t.c.totalBits = s.c.totalBits) ∧
    (match i with
      | .srRdsym | .cStep => True
      | _ => t.c.srBuf = s.c.srBuf ∧ t.c.srIdx = s.c.srIdx ∧ t.c.srEnd = s.c.srEnd ∧ t.c.totalSyms = s.c.totalSyms ∧
        t.c.symIn = s.c.symIn) ∧
    (match i with | .dStart | .dStep | .pairData _ _ _ => True | _ => t.d.next = s.d.next) ∧
    (match i with
      | .buRdpair _ | .dStep | .pairData _ _ _ | .pairStop _ _ => True
      | _ => t.d.code = s.d.code ∧ t.d.sym = s.d.sym) ∧
    (match i with | .hdrRd | .dStart | .hdr _ _ => True | _ => t.d.prot = s.d.prot) ∧
    (match i with
      | .wtCreate | .wtStore _ _ | .wtReset | .dStart | .dStep | .pairData _ _ _ => True
      | _ => t.d.wt = s.d.wt) ∧
    (match i with
      | .buGetbit | .buRdpair _ | .dStep => True
      | _ => t.d.buBuf = s.d.buBuf ∧ t.d.buIdx = s.d.buIdx ∧ t.d.buEnd = s.d.buEnd ∧ t.d.totalBits = s.d.totalBits) ∧
    (match i with
      | .wwWrword _ | .dStep | .pairData _ _ _ => True
      | _ => t.d.wwBuf = s.d.wwBuf ∧ t.d.totalSyms = s.d.totalSyms) ∧
    t.c.status = s.c.status ∧
    (match i with
      | .bpPutbit _ | .bpWrpair _ _ _ | .bpFlush | .hdrWr _ | .cStart | .cSym _ | .cEnd | .cStep => True
      | _ => t.c.byteOut = s.c.byteOut) ∧
    (match i with
      | .hdrRd | .dStart | .dStep | .hdr _ _ | .pairData _ _ _ => True
      | .pairStop _ _ => t.d.status = s.d.status
      | _ => t.d.phase = s.d.phase ∧ t.d.status = s.d.status) ∧
    (match i with
      | .wwWrword _ | .wwFlush | .hdrRd | .dStart | .dStep | .hdr _ _ | .pairData _ _ _ | .pairStop _ _ => True
      | _ => t.d.wwIdx = s.d.wwIdx ∧ t.d.symOut = s.d.symOut) ∧
    (match i with
      | .buGetbit | .buRdpair _ | .hdrRd | .dStart | .dStep => True
      | _ => t.d.byteIn = s.d.byteIn)

/-- R9, R78 (e): the order in which the two agents take a turn makes no difference to either. -/
def Obligations.AgentsCommute : Prop :=
  ∀ s : State, Inv s → ∃ t t', runSteps 2 { s with sched := [.turn .c, .turn .d] } = .next t ∧
    runSteps 2 { s with sched := [.turn .d, .turn .c] } = .next t' ∧ t.c = t'.c ∧ t.d = t'.d ∧ t.build = t'.build ∧
    t.sched = [] ∧ t'.sched = []

/-! ### Invariants -/

/-- Every step keeps the ranges of the state (R23, R26 to R38): the buffers canonical and inside their block, the indices
and counters in their ranges, the status and the phase together. -/
def Obligations.StepKeepsTheRanges : Prop :=
  ∀ s t : State, Inv s → step s = .next t → Shape t

/-- R25: the trie invariants hold after every step of a state that meets them, whenever unit `C` is in `RUN`. -/
def Obligations.StepKeepsTheTrieInvariants : Prop :=
  ∀ s t : State, Inv s → step s = .next t → t.c.phase = .run → TrieInv t.build t.c

/-- R32: the word-table invariants hold after every step of a state that meets them, whenever unit `D` is in `RUN`. -/
def Obligations.StepKeepsTheWordTableInvariants : Prop :=
  ∀ s t : State, Inv s → step s = .next t → t.d.phase = .run → WtInv t.build t.d

/-- The state after reset meets the invariant, in the spec's own instance whatever `MAGIC` is, and in every admitted build. -/
def Obligations.ResetMeetsTheInvariant : Prop :=
  Inv State.reset ∧ ∀ b : Build, b.Admitted → Inv { State.reset with build := b }

/-- R265: from a state that meets the invariant the machine always goes on; it never stops on a fault of the model, and is
refused only a move of the host. -/
def Obligations.OnlyTheHostIsRefused : Prop :=
  ∀ s : State, Inv s → (∃ t, step s = .next t) ∨ ∃ m es r, s.sched = .host m :: es ∧ step s = .refused r

/-! ### Whole runs -/

/-- R200: what unit `D` makes of the tape unit `C` made of an input is that input, with the permission bits, in every
admitted build. -/
def Obligations.DecodingTheEncodedInputGivesItBack : Prop :=
  ∀ (b : Build) (input : List Byte) (prot : BitVec 16), b.Admitted →
    ∃ out t, Encodes b input prot out ∧ DecodesTo b out t ∧ t.d.phase = .done ∧ t.d.status = .none ∧
      t.d.symOut = input ∧ t.d.prot = prot

/-- R151, its consequence: the tape of an input without its last byte ends in `CORRUPT_TRUNC`, all the data out. -/
def Obligations.TruncationIsDetected : Prop :=
  ∀ (b : Build) (input : List Byte) (prot : BitVec 16) (out : List Byte), b.Admitted → Encodes b input prot out →
    Decodes b out.dropLast .fault .corruptTrunc input

/-- R84: what the host reads at the end of a run is the same for every `BLOCK_BYTES`. -/
def Obligations.BlockSizeIsNotObservable : Prop :=
  ∀ (b : Build) (n : Nat), b.Admitted → 1 ≤ n →
    (∀ (input : List Byte) (prot : BitVec 16), ∃ t t', runSteps (input.length + 2) (launchC b input prot) = .next t ∧
      runSteps (input.length + 2) (launchC { b with blockBytes := n } input prot) = .next t' ∧ PortsC t.c t'.c) ∧
    (∀ tape : List Byte, ∃ t t', DecodesTo b tape t ∧ DecodesTo { b with blockBytes := n } tape t' ∧ PortsD t.d t'.d)

/-- R43, R254: what reset leaves unspecified is written before it is read: two systems that differ only there, whatever
tapes, pins and events they are given, agree in every port after any number of steps. -/
def Obligations.UnspecifiedStateIsNeverRead : Prop :=
  ∀ (b : Build) (uc uc' : CUnit) (ud ud' : DUnit) (goC goD : Bool) (prot : BitVec 16) (symIn byteIn : List Byte)
    (es : List Event) (k : Nat) (t : State), b.Admitted →
    runSteps k { build := b, sched := es, ret := .nothing,
                 c := { uc.resetFrom with go := goC, protPin := prot, symIn := { bytes := symIn, pos := 0 } },
                 d := { ud.resetFrom with go := goD, byteIn := { bytes := byteIn, pos := 0 } } } = .next t →
    ∃ t', runSteps k { build := b, sched := es, ret := .nothing,
                       c := { uc'.resetFrom with go := goC, protPin := prot, symIn := { bytes := symIn, pos := 0 } },
                       d := { ud'.resetFrom with go := goD, byteIn := { bytes := byteIn, pos := 0 } } } = .next t' ∧
      PortsC t.c t'.c ∧ PortsD t.d t'.d ∧ t.sched = t'.sched
end

