-- ==== Sys2Proof/Laws/Store.lean ====
section
/-! SUPPORT. Sparse maps and buffers: read after write, other places left alone, the canonical form kept. -/

namespace Sys2Proof.Machine

variable {α : Type}

@[simp] theorem storeGet_nil (a : Nat) : storeGet ([] : Store α) a = none := rfl

theorem storeGet_set_self (m : Store α) (a : Nat) (v : α) : storeGet (storeSet m a v) a = some v := by
  induction m with
  | nil => simp [storeSet, storeGet]
  | cons e m ih =>
    simp only [storeSet]
    split
    · simp [storeGet]
    · split
      · simp [storeGet]
      · simp [storeGet, *]

theorem storeGet_set_other (m : Store α) {a k : Nat} (v : α) (h : k ≠ a) :
    storeGet (storeSet m a v) k = storeGet m k := by
  induction m with
  | nil => simp [storeSet, storeGet, h]
  | cons e m ih =>
    simp only [storeSet]
    split
    · simp [storeGet, h]
    · split
      · rename_i h1 h2
        have : k ≠ e.1 := by omega
        simp [storeGet, h, this]
      · simp only [storeGet, ih]

/-- Read after write on a sparse map. -/
theorem storeGet_set (m : Store α) (a k : Nat) (v : α) :
    storeGet (storeSet m a v) k = if k = a then some v else storeGet m k := by
  split
  · subst_vars; exact storeGet_set_self m k v
  · exact storeGet_set_other m v ‹_›

/-- Read after erasure on a sparse map. -/
theorem storeGet_erase (m : Store α) (a k : Nat) :
    storeGet (storeErase m a) k = if k = a then none else storeGet m k := by
  induction m with
  | nil => simp [storeErase]
  | cons e m ih =>
    simp only [storeErase, List.filter_cons]
    rw [storeErase] at ih
    by_cases h : e.1 = a <;> by_cases hk : k = a <;> simp_all [storeGet]
    intro h; omega

theorem mem_storeSet {m : Store α} {a : Nat} {v : α} {e : Nat × α} (h : e ∈ storeSet m a v) :
    e = (a, v) ∨ e ∈ m := by
  induction m with
  | nil => simp [storeSet] at h; simp [h]
  | cons x m ih =>
    simp only [storeSet] at h
    split at h
    · simpa using h
    · split at h
      · rcases List.mem_cons.1 h with h | h <;> simp [h]
      · rcases List.mem_cons.1 h with h | h
        · simp [h]
        · rcases ih h with h | h <;> simp [h]

theorem storeWf_set {m : Store α} (h : storeWf m) (a : Nat) (v : α) : storeWf (storeSet m a v) := by
  induction m with
  | nil => simp [storeSet]
  | cons e m ih =>
    have h' := List.pairwise_cons.1 h
    simp only [storeSet]
    split
    · rename_i hlt
      refine List.pairwise_cons.2 ⟨fun x hx => ?_, h⟩
      rcases List.mem_cons.1 hx with hx | hx
      · subst hx; exact hlt
      · exact Nat.lt_trans hlt (h'.1 x hx)
    · split
      · rename_i heq
        refine List.pairwise_cons.2 ⟨fun x hx => ?_, h'.2⟩
        have := h'.1 x hx
        simp; omega
      · refine List.pairwise_cons.2 ⟨fun x hx => ?_, ih h'.2⟩
        rcases mem_storeSet hx with hx | hx
        · subst hx; simp; omega
        · exact h'.1 x hx

theorem storeWf_erase {m : Store α} (h : storeWf m) (a : Nat) : storeWf (storeErase m a) :=
  List.Pairwise.filter _ h

/-- A write at a place that was empty adds one entry. -/
theorem length_storeSet_of_none {m : Store α} {a : Nat} (v : α) (h : storeGet m a = none) :
    (storeSet m a v).length = m.length + 1 := by
  induction m with
  | nil => simp [storeSet]
  | cons e m ih =>
    simp only [storeGet] at h
    split at h
    · exact absurd h (by simp)
    · simp only [storeSet]
      split
      · simp
      · simp [ih h, *]

theorem storeGet_mem {m : Store α} {a : Nat} {v : α} (h : storeGet m a = some v) : (a, v) ∈ m := by
  induction m with
  | nil => simp at h
  | cons e m ih =>
    simp only [storeGet] at h
    split at h
    · subst_vars; cases h; simp
    · exact List.mem_cons_of_mem _ (ih h)

@[simp] theorem memRead_nil (a : Nat) : memRead [] a = unlistedByte := rfl

/-- Read after write on a buffer: the byte written, and every other byte as before. -/
theorem memRead_write (m : Memory) (a k : Nat) (v : Byte) :
    memRead (memWrite m a v) k = if k = a then v else memRead m k := by
  simp only [memRead, memWrite]
  split
  · rw [storeGet_erase]; split <;> simp_all
  · rw [storeGet_set]; split <;> simp_all

theorem memory_wf_nil : Memory.wf [] := by simp [Memory.wf, storeWf]

/-- Every write of a buffer keeps the canonical form. -/
theorem memory_wf_write {m : Memory} (h : Memory.wf m) (a : Nat) (v : Byte) : Memory.wf (memWrite m a v) := by
  simp only [memWrite]
  split
  · exact ⟨storeWf_erase h.1 a, fun e he => h.2 e (List.mem_filter.1 he).1⟩
  · refine ⟨storeWf_set h.1 a v, fun e he => ?_⟩
    rcases mem_storeSet he with he | he
    · subst he; assumption
    · exact h.2 e he

theorem bufferOk_nil (b : Build) : BufferOk b [] := ⟨memory_wf_nil, by simp⟩

theorem bufferOk_write {b : Build} {m : Memory} (h : BufferOk b m) {a : Nat} (ha : a < b.blockBytes) (v : Byte) :
    BufferOk b (memWrite m a v) := by
  refine ⟨memory_wf_write h.wf a v, fun e he => ?_⟩
  simp only [memWrite] at he
  split at he
  · exact h.inside e (List.mem_filter.1 he).1
  · rcases mem_storeSet he with he | he
    · subst he; exact ha
    · exact h.inside e he

theorem bufferOk_load {b : Build} (xs : List Byte) : ∀ {m : Memory} {a : Nat}, BufferOk b m →
    a + xs.length ≤ b.blockBytes → BufferOk b (memLoad m a xs) := by
  induction xs with
  | nil => intro m a h _; exact h
  | cons x xs ih =>
    intro m a h hl
    simp only [List.length_cons] at hl
    exact ih (bufferOk_write h (by omega) x) (by omega)

/-- What a buffer holds after a block has been put in it. -/
theorem memRead_load (xs : List Byte) : ∀ (m : Memory) (a k : Nat),
    memRead (memLoad m a xs) k = if a ≤ k ∧ k < a + xs.length then xs.getD (k - a) 0#8 else memRead m k := by
  induction xs with
  | nil => intro m a k; simp [memLoad]
  | cons x xs ih =>
    intro m a k
    simp only [memLoad, ih, memRead_write, List.length_cons]
    by_cases h1 : k = a
    · subst h1; simp
    · by_cases h2 : a + 1 ≤ k ∧ k < a + 1 + xs.length
      · have h3 : a ≤ k ∧ k < a + (xs.length + 1) := by omega
        obtain ⟨j, rfl⟩ : ∃ j, k = a + 1 + j := ⟨k - (a + 1), by omega⟩
        have e1 : a + 1 + j - (a + 1) = j := by omega
        have e2 : a + 1 + j - a = j + 1 := by omega
        rw [if_pos h2, if_pos h3, e1, e2]; simp
      · have h3 : ¬(a ≤ k ∧ k < a + (xs.length + 1)) := by omega
        rw [if_neg h2, if_neg h3, if_neg h1]

theorem trieKey_inj {n n' : Code} {x x' : Byte} (h : trieKey n x = trieKey n' x') : n = n' ∧ x = x' := by
  simp only [trieKey] at h
  have h1 := x.isLt
  have h2 := x'.isLt
  constructor <;> apply BitVec.eq_of_toNat_eq <;> omega

/-- Read after write on the trie store (R62). -/
theorem trieGet_insert (t : TrieStore) (n n' : Code) (x x' : Byte) (v : Code) :
    trieGet (storeSet t (trieKey n x) v) n' x' = if n' = n ∧ x' = x then some v else trieGet t n' x' := by
  simp only [trieGet, storeGet_set]
  by_cases h : n' = n ∧ x' = x
  · obtain ⟨rfl, rfl⟩ := h; simp
  · rw [if_neg h, if_neg (fun hk => h (trieKey_inj hk))]

@[simp] theorem trieGet_nil (n : Code) (x : Byte) : trieGet [] n x = none := rfl

end Sys2Proof.Machine
end

