-- ==== Sys2Proof/Laws/Bits.lean ====
section
/-! SUPPORT. Bit sequences: values and their bits, `pack` and `unpack` (R85), bits of buffers (R66), `bitlen` (R120 to
R123). -/

namespace Sys2Proof

@[simp] theorem bitsOf_length (n v : Nat) : (bitsOf n v).length = n := by simp [bitsOf]

@[simp] theorem bitsOf_zero (v : Nat) : bitsOf 0 v = [] := rfl

theorem bitsOf_succ (n v : Nat) : bitsOf (n + 1) v = v.testBit 0 :: bitsOf n (v / 2) := by
  simp only [bitsOf, List.range_succ_eq_map, List.map_cons, List.map_map]
  congr 1
  apply List.map_congr_left
  intro i _
  simp [Nat.testBit_succ]

/-- A value of `n` bits is the value of its bits. -/
theorem natOf_bitsOf (n : Nat) : ∀ v, natOf (bitsOf n v) = v % 2 ^ n := by
  induction n with
  | zero => intro v; simp [natOf, Nat.mod_one]
  | succ n ih =>
    intro v
    rw [bitsOf_succ, natOf, ih, Nat.testBit_zero]
    rw [Nat.pow_succ, Nat.mul_comm (2 ^ n) 2, Nat.mod_mul]
    by_cases h : v % 2 = 1 <;> simp [h]
    omega

/-- A bit sequence is the bits of its value. -/
theorem bitsOf_natOf (xs : List Bool) : bitsOf xs.length (natOf xs) = xs := by
  induction xs with
  | nil => rfl
  | cons x xs ih =>
    rw [List.length_cons, bitsOf_succ, natOf]
    congr 1
    · cases x <;> simp
    · cases x
      · simpa using ih
      · have : (1 + 2 * natOf xs) / 2 = natOf xs := by omega
        simpa [this] using ih

theorem natOf_lt (xs : List Bool) : natOf xs < 2 ^ xs.length := by
  induction xs with
  | nil => simp [natOf]
  | cons x xs ih =>
    rw [natOf, List.length_cons, Nat.pow_succ]
    cases x <;> simp <;> omega

theorem bitsOf_getElem? (n v i : Nat) : (bitsOf n v)[i]? = if i < n then some (v.testBit i) else none := by
  simp only [bitsOf, List.getElem?_map]
  split
  · rw [List.getElem?_range ‹_›]; rfl
  · rw [List.getElem?_eq_none (by simpa using Nat.le_of_not_lt ‹_›)]; rfl

/-- Bits above the width do not matter. -/
theorem bitsOf_mod (n v : Nat) : bitsOf n (v % 2 ^ n) = bitsOf n v := by
  have := bitsOf_natOf (bitsOf n v)
  rwa [bitsOf_length, natOf_bitsOf] at this

theorem bitsOf_add (m n v : Nat) : bitsOf (m + n) v = bitsOf m v ++ bitsOf n (v / 2 ^ m) := by
  induction m generalizing v with
  | zero => simp
  | succ m ih =>
    rw [Nat.add_right_comm, bitsOf_succ, bitsOf_succ, ih, List.cons_append, Nat.div_div_eq_div_mul, Nat.pow_succ,
      Nat.mul_comm 2]

@[simp] theorem unpack_nil : unpack [] = [] := rfl

@[simp] theorem unpack_append (y z : List Byte) : unpack (y ++ z) = unpack y ++ unpack z := by
  simp [unpack, List.flatMap_append]

theorem unpack_cons (x : Byte) (y : List Byte) : unpack (x :: y) = bitsOf 8 x.toNat ++ unpack y := rfl

@[simp] theorem unpack_length (y : List Byte) : (unpack y).length = 8 * y.length := by
  induction y with
  | nil => rfl
  | cons x y ih => simp [unpack_cons, ih]; omega

@[simp] theorem pairBits_length (code : Code) (sym : Byte) (w : Nat) : (pairBits code sym w).length = w + 8 := by
  simp [pairBits]

theorem bits_of_byte_injective {x y : Byte} (h : bitsOf 8 x.toNat = bitsOf 8 y.toNat) : x = y := by
  have := congrArg natOf h
  rw [natOf_bitsOf, natOf_bitsOf] at this
  apply BitVec.eq_of_toNat_eq
  have h1 := x.isLt
  have h2 := y.isLt
  omega

/-- Tapes with the same bits are the same tape. -/
theorem unpack_injective : ∀ {y z : List Byte}, unpack y = unpack z → y = z := by
  intro y
  induction y with
  | nil =>
    intro z h
    have := congrArg List.length h
    simp at this
    exact this.symm
  | cons x y ih =>
    intro z h
    cases z with
    | nil => simp [unpack_cons] at h; have := congrArg List.length h.1; simp at this
    | cons x' z =>
      rw [unpack_cons, unpack_cons] at h
      have h' := List.append_inj h (by simp)
      rw [bits_of_byte_injective h'.1, ih h'.2]

theorem byte_bits_of_natOf {xs : List Bool} (h : xs.length = 8) :
    bitsOf 8 (BitVec.ofNat 8 (natOf xs)).toNat = xs := by
  rw [BitVec.toNat_ofNat, bitsOf_mod, ← h, bitsOf_natOf]

end Sys2Proof

namespace Sys2Proof.Machine

/-! ### Bits of a buffer -/

theorem getLsbD_setByteBit (v : Byte) (i j : Nat) (x : Bool) (hi : i < 8) :
    (setByteBit v i x).getLsbD j = if j = i then x else v.getLsbD j := by
  revert v x
  by_cases hj : j < 8
  · have : ∀ i : Fin 8, ∀ j : Fin 8, ∀ (v : Byte) (x : Bool),
        (setByteBit v i x).getLsbD j = if (j : Nat) = i then x else v.getLsbD j := by
      intro i j v x
      cases x
      · fin_cases i <;> fin_cases j <;> simp [setByteBit]
      · fin_cases i <;> fin_cases j <;> simp [setByteBit]
    intro v x
    exact this ⟨i, hi⟩ ⟨j, hj⟩ v x
  · intro v x
    have : j ≠ i := by omega
    rw [if_neg this, BitVec.getLsbD_of_ge _ _ (by omega), BitVec.getLsbD_of_ge _ _ (by omega)]

/-- Read after write on a bit buffer: the bit written, and every other bit as before (R130). -/
theorem bufBit_set (m : Memory) (a k : Nat) (x : Bool) :
    bufBit (setBufBit m a x) k = if k = a then x else bufBit m k := by
  simp only [bufBit, setBufBit, memRead_write]
  by_cases h : k / 8 = a / 8
  · rw [if_pos h, getLsbD_setByteBit _ _ _ _ (Nat.mod_lt _ (by omega)), h]
    by_cases hk : k = a
    · simp [hk]
    · have : k % 8 ≠ a % 8 := by omega
      simp [hk, this]
  · rw [if_neg h]
    have : k ≠ a := by rintro rfl; exact h rfl
    rw [if_neg this]

theorem bufferOk_setBit {b : Build} {m : Memory} (h : BufferOk b m) {k : Nat} (hk : k < 8 * b.blockBytes) (x : Bool) :
    BufferOk b (setBufBit m k x) := bufferOk_write h (by omega) _

theorem bufferOk_clear {b : Build} (n : Nat) : ∀ {m : Memory} {k : Nat}, BufferOk b m → k + n ≤ 8 * b.blockBytes →
    BufferOk b (clearBufBits m k n) := by
  induction n with
  | zero => intro m k h _; exact h
  | succ n ih => intro m k h hk; exact ih (bufferOk_setBit h (by omega) false) (by omega)

/-- Cleared bits read 0, the others as before (R134). -/
theorem bufBit_clear (n : Nat) : ∀ (m : Memory) (a k : Nat),
    bufBit (clearBufBits m a n) k = if a ≤ k ∧ k < a + n then false else bufBit m k := by
  induction n with
  | zero => intro m a k; simp [clearBufBits]; omega
  | succ n ih =>
    intro m a k
    simp only [clearBufBits, ih, bufBit_set]
    by_cases h1 : k = a
    · subst h1; simp
    · by_cases h2 : a + 1 ≤ k ∧ k < a + 1 + n
      · rw [if_pos h2, if_pos (by omega)]
      · rw [if_neg h2, if_neg h1, if_neg (by omega)]

@[simp] theorem bufBits_length (m : Memory) (lo hi : Nat) : (bufBits m lo hi).length = hi - lo := by simp [bufBits]

@[simp] theorem bufSyms_length (m : Memory) (lo hi : Nat) : (bufSyms m lo hi).length = hi - lo := by simp [bufSyms]

@[simp] theorem bufBits_self (m : Memory) (k : Nat) : bufBits m k k = [] := by simp [bufBits]

@[simp] theorem bufSyms_self (m : Memory) (k : Nat) : bufSyms m k k = [] := by simp [bufSyms]

theorem bufBits_cons (m : Memory) {lo hi : Nat} (h : lo < hi) : bufBits m lo hi = bufBit m lo :: bufBits m (lo + 1) hi := by
  obtain ⟨n, rfl⟩ : ∃ n, hi = lo + 1 + n := ⟨hi - (lo + 1), by omega⟩
  have h1 : lo + 1 + n - lo = n + 1 := by omega
  have h2 : lo + 1 + n - (lo + 1) = n := by omega
  rw [bufBits, bufBits, h1, h2, List.range'_succ, List.map_cons]

theorem bufSyms_cons (m : Memory) {lo hi : Nat} (h : lo < hi) :
    bufSyms m lo hi = memRead m lo :: bufSyms m (lo + 1) hi := by
  obtain ⟨n, rfl⟩ : ∃ n, hi = lo + 1 + n := ⟨hi - (lo + 1), by omega⟩
  have h1 : lo + 1 + n - lo = n + 1 := by omega
  have h2 : lo + 1 + n - (lo + 1) = n := by omega
  rw [bufSyms, bufSyms, h1, h2, List.range'_succ, List.map_cons]

theorem bufBits_concat (m : Memory) (n : Nat) : bufBits m 0 (n + 1) = bufBits m 0 n ++ [bufBit m n] := by
  simp [bufBits, List.range'_concat]

theorem bufSyms_concat (m : Memory) (n : Nat) : bufSyms m 0 (n + 1) = bufSyms m 0 n ++ [memRead m n] := by
  simp [bufSyms, List.range'_concat]

/-- Bits below the one written are as before. -/
theorem bufBits_set (m : Memory) (k : Nat) (x : Bool) : bufBits (setBufBit m k x) 0 k = bufBits m 0 k := by
  simp only [bufBits]
  apply List.map_congr_left
  intro i hi
  rw [bufBit_set, if_neg]
  simp [List.mem_range'_1] at hi
  omega

/-- Bytes below the one written are as before. -/
theorem bufSyms_write (m : Memory) (k : Nat) (x : Byte) : bufSyms (memWrite m k x) 0 k = bufSyms m 0 k := by
  simp only [bufSyms]
  apply List.map_congr_left
  intro i hi
  rw [memRead_write, if_neg]
  simp [List.mem_range'_1] at hi
  omega

/-- The first bytes of a buffer, as its bits. -/
theorem unpack_memBytes (m : Memory) (n : Nat) : unpack (memBytes m n) = bufBits m 0 (8 * n) := by
  induction n with
  | zero => rfl
  | succ n ih =>
    rw [memBytes, List.range_succ, List.map_append, unpack_append]
    rw [memBytes] at ih
    rw [ih]
    have h : 8 * (n + 1) = 8 * n + 8 := by omega
    rw [h]
    simp only [bufBits, Nat.sub_zero, List.range'_eq_map_range, List.range_add, List.map_append, List.map_map]
    congr 1
    simp only [List.map_cons, List.map_nil, unpack_cons, unpack_nil, List.append_nil, bitsOf]
    apply List.map_congr_left
    intro i hi
    have hi8 := List.mem_range.1 hi
    have h1 : (8 * n + i) / 8 = n := by omega
    have h2 : (8 * n + i) % 8 = i := by omega
    simp [bufBit, h1, h2, BitVec.getLsbD]

theorem memBytes_eq_bufSyms (m : Memory) (n : Nat) : memBytes m n = bufSyms m 0 n := by
  simp [memBytes, bufSyms, List.range_eq_range']

/-- A block just taken into a byte buffer. -/
theorem bufSyms_load (m : Memory) (xs : List Byte) : bufSyms (memLoad m 0 xs) 0 xs.length = xs := by
  apply List.ext_getElem (by simp)
  intro i h1 h2
  simp only [bufSyms, List.getElem_map, List.getElem_range', memRead_load]
  simp [h2]

/-- A block just taken into a bit buffer. -/
theorem bufBits_load (m : Memory) (xs : List Byte) : bufBits (memLoad m 0 xs) 0 (8 * xs.length) = unpack xs := by
  rw [← unpack_memBytes, memBytes_eq_bufSyms, bufSyms_load]

/-! ### `bitlen` -/

theorem lt_two_pow_bitlen (n : Nat) : n < 2 ^ bitlen n := by
  simp only [bitlen]
  split
  · simp [*]
  · exact Nat.lt_log2_self

theorem bitlen_le_of_lt {n v : Nat} (h : n < 2 ^ v) : bitlen n ≤ v := by
  simp only [bitlen]
  split
  · omega
  · exact (Nat.log2_lt ‹_›).2 h

theorem bitlen_le_iff {n v : Nat} : bitlen n ≤ v ↔ n < 2 ^ v :=
  ⟨fun h => Nat.lt_of_lt_of_le (lt_two_pow_bitlen n) (Nat.pow_le_pow_right (by omega) h), bitlen_le_of_lt⟩

theorem bitlen_mono {m n : Nat} (h : m ≤ n) : bitlen m ≤ bitlen n :=
  bitlen_le_of_lt (Nat.lt_of_le_of_lt h (lt_two_pow_bitlen n))

theorem bitlen_code_le (n : Code) : bitlen n.toNat ≤ 16 := bitlen_le_of_lt n.isLt

theorem two_le_bitlen {n : Nat} (h : 2 ≤ n) : 2 ≤ bitlen n := by
  by_contra hc
  have := bitlen_le_iff.1 (show bitlen n ≤ 1 by omega)
  omega

end Sys2Proof.Machine
end

