-- ==== Sys2Proof/Laws/State.lean ====
section
/-! SUPPORT. The small lemmas of the state's updates: one per field per update, and the outcomes that end an operation. -/

namespace Sys2Proof.Machine

@[simp] theorem setC_build (s : State) (x : CUnit) : (s.setC x).build = s.build := rfl
@[simp] theorem setC_c (s : State) (x : CUnit) : (s.setC x).c = x := rfl
@[simp] theorem setC_d (s : State) (x : CUnit) : (s.setC x).d = s.d := rfl
@[simp] theorem setC_sched (s : State) (x : CUnit) : (s.setC x).sched = s.sched := rfl
@[simp] theorem setC_ret (s : State) (x : CUnit) : (s.setC x).ret = s.ret := rfl

@[simp] theorem setD_build (s : State) (x : DUnit) : (s.setD x).build = s.build := rfl
@[simp] theorem setD_c (s : State) (x : DUnit) : (s.setD x).c = s.c := rfl
@[simp] theorem setD_d (s : State) (x : DUnit) : (s.setD x).d = x := rfl
@[simp] theorem setD_sched (s : State) (x : DUnit) : (s.setD x).sched = s.sched := rfl
@[simp] theorem setD_ret (s : State) (x : DUnit) : (s.setD x).ret = s.ret := rfl

@[simp] theorem setRet_build (s : State) (x : Ret) : (s.setRet x).build = s.build := rfl
@[simp] theorem setRet_c (s : State) (x : Ret) : (s.setRet x).c = s.c := rfl
@[simp] theorem setRet_d (s : State) (x : Ret) : (s.setRet x).d = s.d := rfl
@[simp] theorem setRet_sched (s : State) (x : Ret) : (s.setRet x).sched = s.sched := rfl
@[simp] theorem setRet_ret (s : State) (x : Ret) : (s.setRet x).ret = x := rfl

@[simp] theorem setSched_build (s : State) (x : List Event) : (s.setSched x).build = s.build := rfl
@[simp] theorem setSched_c (s : State) (x : List Event) : (s.setSched x).c = s.c := rfl
@[simp] theorem setSched_d (s : State) (x : List Event) : (s.setSched x).d = s.d := rfl
@[simp] theorem setSched_sched (s : State) (x : List Event) : (s.setSched x).sched = x := rfl
@[simp] theorem setSched_ret (s : State) (x : List Event) : (s.setSched x).ret = s.ret := rfl

@[simp] theorem popEvent_build (s : State) : (popEvent s).build = s.build := rfl
@[simp] theorem popEvent_c (s : State) : (popEvent s).c = s.c := rfl
@[simp] theorem popEvent_d (s : State) : (popEvent s).d = s.d := rfl
@[simp] theorem popEvent_sched (s : State) : (popEvent s).sched = s.sched.tail := rfl
@[simp] theorem popEvent_ret (s : State) : (popEvent s).ret = s.ret := rfl

/-- Two states with the same fields are the same. -/
theorem state_ext {s t : State} (hb : s.build = t.build) (hc : s.c = t.c) (hd : s.d = t.d) (hs : s.sched = t.sched)
    (hr : s.ret = t.ret) : s = t := by
  cases s; cases t; simp_all

@[simp] theorem setC_self (s : State) : s.setC s.c = s := rfl
@[simp] theorem setD_self (s : State) : s.setD s.d = s := rfl
@[simp] theorem setRet_self (s : State) : s.setRet s.ret = s := rfl
@[simp] theorem setSched_self (s : State) : s.setSched s.sched = s := rfl

@[simp] theorem andThen_next {α β : Type} (a : α) (f : α → Host.Outcome β Fault Refusal) :
    andThen (.next a) f = f a := rfl
@[simp] theorem andThen_fault {α β : Type} (r : Fault) (f : α → Host.Outcome β Fault Refusal) :
    andThen (.fault r) f = .fault r := rfl
@[simp] theorem andThen_refused {α β : Type} (r : Refusal) (f : α → Host.Outcome β Fault Refusal) :
    andThen (.refused r) f = .refused r := rfl

/-- If an outcome that goes on through another answers next, the first answered next too. -/
theorem andThen_eq_next {α β : Type} {o : Host.Outcome α Fault Refusal} {f : α → Host.Outcome β Fault Refusal} {x : β}
    (h : andThen o f = .next x) : ∃ a, o = .next a ∧ f a = .next x := by
  cases o with
  | next a => exact ⟨a, rfl, h⟩
  | fault r => exact absurd h (by simp)
  | refused r => exact absurd h (by simp)

@[simp] theorem finishC_eq (s : State) (c : CUnit) (r : Ret) : finishC s c r = .next ((s.setC c).setRet r) := rfl
@[simp] theorem finishD_eq (s : State) (d : DUnit) (r : Ret) : finishD s d r = .next ((s.setD d).setRet r) := rfl
@[simp] theorem finish_eq (s : State) (r : Ret) : finish s r = .next (s.setRet r) := rfl

/-- A turn of an agent with no enabled step passes without effect. -/
@[simp] theorem runOp_none (s : State) : runOp none s = .next s := rfl
@[simp] theorem runOp_some (i : Instr) (s : State) : runOp (some i) s = exec i s := rfl

end Sys2Proof.Machine
end

