-- ==== Sys2Proof/Laws/Packer.lean ====
section
/-! SUPPORT. The bit packer: what each operation does to the stream unit `C` has produced, and that nothing but the packer's
state moves (R130 to R135). -/

namespace Sys2Proof.Machine

/-- Unit `C` with the packer's state and `BYTEOUT` taken from another: all a packer operation may write (R130, R134). -/
def withPacker (c p : CUnit) : CUnit :=
  { c with bpBuf := p.bpBuf, bpIdx := p.bpIdx, totalBits := p.totalBits, byteOut := p.byteOut }

/-- What an operation of the packer keeps: all of unit `C` but the packer's state and `BYTEOUT`. -/
def PackerFrame (c c' : CUnit) : Prop := c' = withPacker c c'

theorem PackerFrame.refl (c : CUnit) : PackerFrame c c := rfl

theorem PackerFrame.trans {c c' c'' : CUnit} (h : PackerFrame c c') (h' : PackerFrame c' c'') : PackerFrame c c'' := by
  rw [PackerFrame] at *
  rw [h'] at *
  simp only [withPacker] at *
  rw [h]

theorem putBit_frame (b : Build) (x : Bool) (c : CUnit) : PackerFrame c (putBit b x c) := by
  simp only [PackerFrame, putBit, withPacker]
  split <;> rfl

theorem putBits_frame (b : Build) (xs : List Bool) : ∀ c, PackerFrame c (putBits b xs c) := by
  induction xs with
  | nil => exact PackerFrame.refl
  | cons x xs ih => exact fun c => (putBit_frame b x c).trans (ih _)

theorem bpFlush_frame (c : CUnit) : PackerFrame c (bpFlush c) := by
  simp only [PackerFrame, bpFlush, withPacker]
  split <;> rfl

/-- One bit appended (R130, R131). -/
theorem putBit_outBits (b : Build) (x : Bool) (c : CUnit) : outBits (putBit b x c) = outBits c ++ [x] := by
  have key : bufBits (setBufBit c.bpBuf c.bpIdx x) 0 (c.bpIdx + 1) = bufBits c.bpBuf 0 c.bpIdx ++ [x] := by
    rw [bufBits_concat, bufBits_set, bufBit_set, if_pos rfl]
  simp only [putBit]
  split
  · rename_i h
    simp only [outBits, sinkWrite, unpack_append, unpack_memBytes, bufBits_self, List.append_nil]
    rw [← h, key, List.append_assoc]
  · simp only [outBits, key, List.append_assoc]

/-- Bits appended in order. -/
theorem putBits_outBits (b : Build) (xs : List Bool) : ∀ c, outBits (putBits b xs c) = outBits c ++ xs := by
  induction xs with
  | nil => intro c; simp [putBits]
  | cons x xs ih => intro c; simp [putBits, ih, putBit_outBits]

theorem putBit_totalBits (b : Build) (x : Bool) (c : CUnit) : (putBit b x c).totalBits = c.totalBits + 1#64 := by
  simp only [putBit]; split <;> rfl

/-- The bit counter moves by the number of bits (R28). -/
theorem putBits_totalBits (b : Build) (xs : List Bool) :
    ∀ c, (putBits b xs c).totalBits = c.totalBits + BitVec.ofNat 64 xs.length := by
  induction xs with
  | nil => intro c; simp [putBits]
  | cons x xs ih =>
    intro c
    rw [putBits, ih, putBit_totalBits, List.length_cons, BitVec.add_assoc, BitVec.ofNat_add, BitVec.add_comm 1#64]

theorem putBit_idx {b : Build} {c : CUnit} (x : Bool) (h : c.bpIdx < 8 * b.blockBytes) :
    (putBit b x c).bpIdx < 8 * b.blockBytes := by
  simp only [putBit]
  split
  · simp only; omega
  · rename_i h'; simp only at h' ⊢; omega

theorem putBits_idx {b : Build} (xs : List Bool) : ∀ {c : CUnit}, c.bpIdx < 8 * b.blockBytes →
    (putBits b xs c).bpIdx < 8 * b.blockBytes := by
  induction xs with
  | nil => exact id
  | cons x xs ih => exact fun h => ih (putBit_idx x h)

theorem putBit_bufferOk {b : Build} {c : CUnit} (x : Bool) (h : c.bpIdx < 8 * b.blockBytes) (hb : BufferOk b c.bpBuf) :
    BufferOk b (putBit b x c).bpBuf := by
  simp only [putBit]
  split <;> exact bufferOk_setBit hb h x

theorem putBits_bufferOk {b : Build} (xs : List Bool) : ∀ {c : CUnit}, c.bpIdx < 8 * b.blockBytes → BufferOk b c.bpBuf →
    BufferOk b (putBits b xs c).bpBuf := by
  induction xs with
  | nil => exact fun _ h => h
  | cons x xs ih => exact fun h hb => ih (putBit_idx x h) (putBit_bufferOk x h hb)

/-- The flush puts every buffered bit on the tape, with pad bits 0 up to a byte boundary (R134, R93). -/
theorem bpFlush_spec (c : CUnit) :
    unpack (bpFlush c).byteOut = outBits c ++ List.replicate (8 * ((c.bpIdx + 7) / 8) - c.bpIdx) false ∧
    (bpFlush c).bpIdx = 0 ∧ (bpFlush c).totalBits = c.totalBits := by
  simp only [bpFlush]
  split
  · refine ⟨?_, rfl, rfl⟩
    simp only [sinkWrite, unpack_append, unpack_memBytes, outBits, List.append_assoc, List.append_cancel_left_eq]
    have hle : c.bpIdx ≤ 8 * ((c.bpIdx + 7) / 8) := by omega
    obtain ⟨k, hk⟩ : ∃ k, 8 * ((c.bpIdx + 7) / 8) = c.bpIdx + k := ⟨_, (Nat.add_sub_cancel' hle).symm⟩
    rw [hk, Nat.add_sub_cancel_left]
    apply List.ext_getElem (by simp)
    intro i h1 h2
    simp only [bufBits, List.getElem_map, List.getElem_range', bufBit_clear, List.getElem_append, List.length_map,
      List.length_range']
    simp only [bufBits_length, Nat.sub_zero] at h1
    by_cases h : i < c.bpIdx
    · rw [if_neg (by omega)]; simp [h]
    · rw [if_pos (by omega)]; simp [h]
  · have h0 : c.bpIdx = 0 := by omega
    simp [outBits, h0]

theorem bpFlush_bufferOk {b : Build} {c : CUnit} (h : c.bpIdx < 8 * b.blockBytes) (hb : BufferOk b c.bpBuf) :
    BufferOk b (bpFlush c).bpBuf := by
  simp only [bpFlush]
  split
  · exact bufferOk_clear _ hb (by omega)
  · exact hb

/-- A flushed packer's tape, when its bit stream was a whole number of bytes before it. -/
theorem outBits_of_idx_zero {c : CUnit} (h : c.bpIdx = 0) : outBits c = unpack c.byteOut := by simp [outBits, h]

end Sys2Proof.Machine
end

