-- ==== Sys2Proof/Laws/Unpacker.lean ====
section
/-! SUPPORT. The bit unpacker: what each operation takes from the stream unit `D` has not used, and that nothing but the
unpacker's state (and the pair latch) moves (R145 to R151). -/

namespace Sys2Proof.Machine

/-- The next bytes of a tape, and the tape after them (R70). -/
theorem srcRead_spec (t : InTape) (n : Nat) : (srcRead t n).1 = (unread t).take n ∧
    unread (srcRead t n).2 = (unread t).drop n ∧ (srcRead t n).2.bytes = t.bytes := by
  refine ⟨rfl, ?_, rfl⟩
  simp only [srcRead, unread, List.length_take, List.length_drop]
  by_cases h : n ≤ t.bytes.length - t.pos
  · rw [Nat.min_eq_left h, List.drop_drop]
  · rw [Nat.min_eq_right (by omega), List.drop_drop, List.drop_eq_nil_of_le (by omega), List.drop_eq_nil_of_le (by omega)]

theorem srcRead_pos {t : InTape} (n : Nat) (h : t.pos ≤ t.bytes.length) :
    (srcRead t n).2.pos ≤ (srcRead t n).2.bytes.length := by
  simp only [srcRead, List.length_take, List.length_drop]
  omega

/-- A read at the end of the tape gives nothing and leaves the tape (R70). -/
theorem srcRead_end {t : InTape} {n : Nat} (h : (srcRead t n).1 = []) : (srcRead t n).2 = t := by
  simp only [srcRead] at h ⊢
  rw [h]; rfl

/-- Unit `D` with the unpacker's state taken from another: all `BU.GETBIT` may write (R145). -/
def withUnpacker (d u : DUnit) : DUnit :=
  { d with buBuf := u.buBuf, buIdx := u.buIdx, buEnd := u.buEnd, totalBits := u.totalBits, byteIn := u.byteIn }

/-- What `BU.GETBIT` keeps: all of unit `D` but the unpacker's state and the tape's position. -/
def UnpackerFrame (d d' : DUnit) : Prop := d' = withUnpacker d d' ∧ d'.byteIn.bytes = d.byteIn.bytes

theorem UnpackerFrame.refl (d : DUnit) : UnpackerFrame d d := ⟨rfl, rfl⟩

theorem UnpackerFrame.trans {d d' d'' : DUnit} (h : UnpackerFrame d d') (h' : UnpackerFrame d' d'') :
    UnpackerFrame d d'' := by
  refine ⟨?_, h'.2.trans h.2⟩
  have h1 := h.1
  have h2 := h'.1
  rw [h2] at *
  simp only [withUnpacker] at *
  rw [h1]

/-- The unpacker's state is in its ranges (R33). -/
structure UnpackerOk (b : Build) (d : DUnit) : Prop where
  buf   : BufferOk b d.buBuf
  idx   : d.buIdx ≤ d.buEnd
  fin   : d.buEnd ≤ 8 * b.blockBytes
  bytes : 8 ∣ d.buEnd
  tape  : d.byteIn.pos ≤ d.byteIn.bytes.length

theorem takeBit_spec {b : Build} {d : DUnit} (h : UnpackerOk b d) (hlt : d.buIdx < d.buEnd) :
    ∃ x, (takeBit d).1 = some x ∧ inBits d = x :: inBits (takeBit d).2 ∧
      (takeBit d).2.totalBits = d.totalBits + 1#64 ∧ UnpackerFrame d (takeBit d).2 ∧ UnpackerOk b (takeBit d).2 := by
  refine ⟨_, rfl, ?_, rfl, ⟨rfl, rfl⟩, ?_⟩
  · simp only [takeBit, inBits, bufBits_cons _ hlt, List.cons_append]
  · exact ⟨h.buf, hlt, h.fin, h.bytes, h.tape⟩

/-- The end of the stream: `END`, and nothing changes (R145). -/
theorem getBit_end {b : Build} {d : DUnit} (h : UnpackerOk b d) (he : inBits d = []) :
    getBit b d = (none, d) := by
  simp only [inBits, List.append_eq_nil_iff] at he
  have h1 := congrArg List.length he.1
  have h2 := congrArg List.length he.2
  simp only [bufBits_length, unpack_length, List.length_nil] at h1 h2
  have hi := h.idx
  have heq : d.buIdx = d.buEnd := by omega
  have hnil : (srcRead d.byteIn b.blockBytes).1 = [] := by
    rw [(srcRead_spec _ _).1]
    have : unread d.byteIn = [] := List.eq_nil_of_length_eq_zero (by omega)
    rw [this, List.take_nil]
  rw [getBit, if_pos heq]
  simp only [hnil, if_true, srcRead_end hnil]

/-- A bit of the stream delivered (R145, R146, R151). -/
theorem getBit_spec {b : Build} {d : DUnit} (hb : 1 ≤ b.blockBytes) (h : UnpackerOk b d) {x : Bool} {r : List Bool}
    (he : inBits d = x :: r) :
    (getBit b d).1 = some x ∧ inBits (getBit b d).2 = r ∧ (getBit b d).2.totalBits = d.totalBits + 1#64 ∧
      UnpackerFrame d (getBit b d).2 ∧ UnpackerOk b (getBit b d).2 := by
  simp only [getBit]
  split
  · rename_i heq
    have hs := srcRead_spec d.byteIn b.blockBytes
    have hp := srcRead_pos b.blockBytes h.tape
    have hu : inBits d = unpack (unread d.byteIn) := by simp [inBits, heq]
    have hne : (srcRead d.byteIn b.blockBytes).1 ≠ [] := by
      intro hn
      rw [hs.1, List.take_eq_nil_iff] at hn
      rcases hn with hn | hn
      · omega
      · rw [hu, hn] at he; exact absurd he (by simp)
    rw [if_neg hne]
    generalize hr : srcRead d.byteIn b.blockBytes = rr at *
    obtain ⟨blk, t'⟩ := rr
    simp only at *
    have hlen : blk.length ≤ b.blockBytes := by rw [hs.1]; simp
    have hpos : 0 < blk.length := List.length_pos_iff.2 hne
    have hok : UnpackerOk b { d with byteIn := t', buBuf := memLoad d.buBuf 0 blk, buEnd := 8 * blk.length, buIdx := 0 } :=
      ⟨bufferOk_load blk h.buf (by omega), by simp, by simp; omega, ⟨_, rfl⟩, hp⟩
    obtain ⟨y, h1, h2, h3, h4, h5⟩ := takeBit_spec hok (by simp; omega)
    have hin : inBits { d with byteIn := t', buBuf := memLoad d.buBuf 0 blk, buEnd := 8 * blk.length, buIdx := 0 }
        = inBits d := by
      rw [hu, inBits]
      simp only [bufBits_load]
      rw [← unpack_append, hs.1, hs.2.1, List.take_append_drop]
    rw [hin, he] at h2
    cases h2
    refine ⟨h1, rfl, h3, ?_, h5⟩
    refine UnpackerFrame.trans ⟨?_, hs.2.2⟩ h4
    rfl
  · rename_i hne
    have hi := h.idx
    obtain ⟨y, h1, h2, h3, h4, h5⟩ := takeBit_spec h (by omega)
    rw [he] at h2
    cases h2
    exact ⟨h1, rfl, h3, h4, h5⟩

/-- Several bits delivered, in order, as many as there are (R151). -/
theorem getBits_spec {b : Build} (hb : 1 ≤ b.blockBytes) (n : Nat) : ∀ {d : DUnit}, UnpackerOk b d →
    (getBits b n d).1 = (inBits d).take n ∧ inBits (getBits b n d).2 = (inBits d).drop n ∧
      (getBits b n d).2.totalBits = d.totalBits + BitVec.ofNat 64 (min n (inBits d).length) ∧
      UnpackerFrame d (getBits b n d).2 ∧ UnpackerOk b (getBits b n d).2 := by
  induction n with
  | zero => intro d h; simp [getBits, h, UnpackerFrame.refl]
  | succ n ih =>
    intro d h
    cases he : inBits d with
    | nil => simp [getBits, getBit_end h he, he, h, UnpackerFrame.refl]
    | cons x r =>
      obtain ⟨h1, h2, h3, h4, h5⟩ := getBit_spec hb h he
      obtain ⟨g1, g2, g3, g4, g5⟩ := ih h5
      have hg : getBit b d = (some x, (getBit b d).2) := Prod.ext h1 rfl
      simp only [getBits]
      rw [hg]
      simp only
      rw [h2] at g1 g2 g3
      refine ⟨by simp [g1], by simp [g2], ?_, h4.trans g4, g5⟩
      rw [g3, h3, List.length_cons, Nat.add_min_add_right, BitVec.add_assoc, BitVec.ofNat_add, BitVec.add_comm 1#64]

/-- A complete pair: the two fields latched, `w + 8` bits used and counted (R148). -/
theorem rdPair_complete {b : Build} (hb : 1 ≤ b.blockBytes) {w : Nat} {d : DUnit} (h : UnpackerOk b d)
    {p r : List Bool} (hp : p.length = w + 8) (he : inBits d = p ++ r) :
    ∃ u, rdPair b w d = (pairCode w p != b.stopCode, false, { u with code := pairCode w p, sym := pairSym w p }) ∧
      inBits u = r ∧ u.totalBits = d.totalBits + BitVec.ofNat 64 (w + 8) ∧ UnpackerFrame d u ∧ UnpackerOk b u := by
  obtain ⟨h1, h2, h3, h4, h5⟩ := getBits_spec hb (w + 8) h
  have e1 : (inBits d).take (w + 8) = p := by rw [he, ← hp, List.take_left]
  have e2 : (inBits d).drop (w + 8) = r := by rw [he, ← hp, List.drop_left]
  have e3 : min (w + 8) (inBits d).length = w + 8 := by rw [he, List.length_append]; omega
  rw [e1] at h1
  rw [e2] at h2
  rw [e3] at h3
  refine ⟨(getBits b (w + 8) d).2, ?_, h2, h3, h4, h5⟩
  have ht : truncFlag w p = false := by simp [truncFlag, hp]
  simp only [rdPair, h1, ht, hasMoreFlag]
  simp

/-- A truncated pair: the bits that were left are used and counted, the latch keeps what it held (R150). -/
theorem rdPair_trunc {b : Build} (hb : 1 ≤ b.blockBytes) {w : Nat} {d : DUnit} (h : UnpackerOk b d)
    (hlt : (inBits d).length < w + 8) :
    ∃ u, rdPair b w d = (false, true, u) ∧ inBits u = [] ∧
      u.totalBits = d.totalBits + BitVec.ofNat 64 (inBits d).length ∧ UnpackerFrame d u ∧ UnpackerOk b u := by
  obtain ⟨h1, h2, h3, h4, h5⟩ := getBits_spec hb (w + 8) h
  rw [List.take_of_length_le (by omega)] at h1
  rw [List.drop_of_length_le (by omega)] at h2
  rw [Nat.min_eq_right (by omega)] at h3
  refine ⟨(getBits b (w + 8) d).2, ?_, h2, h3, h4, h5⟩
  have ht : truncFlag w (inBits d) = true := by simp [truncFlag, hlt]
  simp only [rdPair, h1, ht, hasMoreFlag]
  simp

end Sys2Proof.Machine
end

