-- ==== Sys2Proof/Laws/SymbolIO.lean ====
section
/-! SUPPORT. The symbol reader and the word writer (R160 to R165). -/

namespace Sys2Proof.Machine

/-- Unit `C` with the reader's state taken from another: all `SR.RDSYM` may write (R160). -/
def withReader (c r : CUnit) : CUnit :=
  { c with srBuf := r.srBuf, srIdx := r.srIdx, srEnd := r.srEnd, totalSyms := r.totalSyms, symIn := r.symIn }

/-- What `SR.RDSYM` keeps: all of unit `C` but the reader's state and the tape's position. -/
def ReaderFrame (c c' : CUnit) : Prop := c' = withReader c c' ∧ c'.symIn.bytes = c.symIn.bytes

/-- The symbol reader's state is in its ranges (R27). -/
structure ReaderOk (b : Build) (c : CUnit) : Prop where
  buf  : BufferOk b c.srBuf
  idx  : c.srIdx ≤ c.srEnd
  fin  : c.srEnd ≤ b.blockBytes
  tape : c.symIn.pos ≤ c.symIn.bytes.length

theorem takeSym_spec {b : Build} {c : CUnit} (h : ReaderOk b c) (hlt : c.srIdx < c.srEnd) :
    ∃ x, (takeSym c).1 = some x ∧ inSyms c = x :: inSyms (takeSym c).2 ∧
      (takeSym c).2.totalSyms = c.totalSyms + 1#64 ∧ ReaderFrame c (takeSym c).2 ∧ ReaderOk b (takeSym c).2 := by
  refine ⟨_, rfl, ?_, rfl, ⟨rfl, rfl⟩, ?_⟩
  · simp only [takeSym, inSyms, bufSyms_cons _ hlt, List.cons_append]
  · exact ⟨h.buf, hlt, h.fin, h.tape⟩

/-- The end of the input: `has = 0`, and nothing changes (R160). -/
theorem rdSym_end {b : Build} {c : CUnit} (h : ReaderOk b c) (he : inSyms c = []) : rdSym b c = (none, c) := by
  simp only [inSyms, List.append_eq_nil_iff] at he
  have h1 := congrArg List.length he.1
  simp only [bufSyms_length, List.length_nil] at h1
  have hi := h.idx
  have heq : c.srIdx = c.srEnd := by omega
  have hnil : (srcRead c.symIn b.blockBytes).1 = [] := by rw [(srcRead_spec _ _).1, he.2, List.take_nil]
  rw [rdSym, if_pos heq]
  simp only [hnil, if_true, srcRead_end hnil]

/-- A symbol of the input delivered (R160, R162). -/
theorem rdSym_spec {b : Build} {c : CUnit} (hb : 1 ≤ b.blockBytes) (h : ReaderOk b c) {x : Byte} {r : List Byte}
    (he : inSyms c = x :: r) :
    (rdSym b c).1 = some x ∧ inSyms (rdSym b c).2 = r ∧ (rdSym b c).2.totalSyms = c.totalSyms + 1#64 ∧
      ReaderFrame c (rdSym b c).2 ∧ ReaderOk b (rdSym b c).2 := by
  simp only [rdSym]
  split
  · rename_i heq
    have hs := srcRead_spec c.symIn b.blockBytes
    have hp := srcRead_pos b.blockBytes h.tape
    have hu : inSyms c = unread c.symIn := by simp [inSyms, heq]
    have hne : (srcRead c.symIn b.blockBytes).1 ≠ [] := by
      intro hn
      rw [hs.1, List.take_eq_nil_iff] at hn
      rcases hn with hn | hn
      · omega
      · rw [hu, hn] at he; exact absurd he (by simp)
    rw [if_neg hne]
    generalize hr : srcRead c.symIn b.blockBytes = rr at *
    obtain ⟨blk, t'⟩ := rr
    simp only at *
    have hlen : blk.length ≤ b.blockBytes := by rw [hs.1]; simp
    have hpos : 0 < blk.length := List.length_pos_iff.2 hne
    have hok : ReaderOk b { c with symIn := t', srBuf := memLoad c.srBuf 0 blk, srEnd := blk.length, srIdx := 0 } :=
      ⟨bufferOk_load blk h.buf (by omega), by simp, hlen, hp⟩
    obtain ⟨y, h1, h2, h3, h4, h5⟩ := takeSym_spec hok hpos
    have hin : inSyms { c with symIn := t', srBuf := memLoad c.srBuf 0 blk, srEnd := blk.length, srIdx := 0 }
        = inSyms c := by
      rw [hu, inSyms]
      simp only [bufSyms_load]
      rw [hs.1, hs.2.1, List.take_append_drop]
    rw [hin, he] at h2
    cases h2
    refine ⟨h1, rfl, h3, ⟨?_, h4.2.trans hs.2.2⟩, h5⟩
    rfl
  · rename_i hne
    have hi := h.idx
    obtain ⟨y, h1, h2, h3, h4, h5⟩ := takeSym_spec h (by omega)
    rw [he] at h2
    cases h2
    exact ⟨h1, rfl, h3, h4, h5⟩

/-- Unit `D` with the writer's state and `SYMOUT` taken from another: all a writer operation may write (R163, R164). -/
def withWriter (d w : DUnit) : DUnit :=
  { d with wwBuf := w.wwBuf, wwIdx := w.wwIdx, totalSyms := w.totalSyms, symOut := w.symOut }

/-- What an operation of the word writer keeps: all of unit `D` but the writer's state and `SYMOUT`. -/
def WriterFrame (d d' : DUnit) : Prop := d' = withWriter d d'

theorem WriterFrame.refl (d : DUnit) : WriterFrame d d := rfl

theorem WriterFrame.trans {d d' d'' : DUnit} (h : WriterFrame d d') (h' : WriterFrame d' d'') : WriterFrame d d'' := by
  rw [WriterFrame] at *
  rw [h'] at *
  simp only [withWriter] at *
  rw [h]

theorem wrByte_frame (b : Build) (x : Byte) (d : DUnit) : WriterFrame d (wrByte b x d) := by
  simp only [WriterFrame, wrByte, withWriter]
  split <;> rfl

theorem wrWord_frame (b : Build) (xs : Word) : ∀ d, WriterFrame d (wrWord b xs d) := by
  induction xs with
  | nil => exact WriterFrame.refl
  | cons x xs ih => exact fun d => (wrByte_frame b x d).trans (ih _)

theorem wwFlush_frame (d : DUnit) : WriterFrame d (wwFlush d) := by
  simp only [WriterFrame, wwFlush, withWriter]
  split <;> rfl

theorem wrByte_outSyms (b : Build) (x : Byte) (d : DUnit) : outSyms (wrByte b x d) = outSyms d ++ [x] := by
  have key : bufSyms (memWrite d.wwBuf d.wwIdx x) 0 (d.wwIdx + 1) = bufSyms d.wwBuf 0 d.wwIdx ++ [x] := by
    rw [bufSyms_concat, bufSyms_write, memRead_write, if_pos rfl]
  simp only [wrByte]
  split
  · rename_i h
    simp only [outSyms, sinkWrite, memBytes_eq_bufSyms, bufSyms_self, List.append_nil]
    rw [← h, key, List.append_assoc]
  · simp only [outSyms, key, List.append_assoc]

/-- A word written, first byte first (R163). -/
theorem wrWord_outSyms (b : Build) (xs : Word) : ∀ d, outSyms (wrWord b xs d) = outSyms d ++ xs := by
  induction xs with
  | nil => intro d; simp [wrWord]
  | cons x xs ih => intro d; simp [wrWord, ih, wrByte_outSyms]

theorem wrByte_totalSyms (b : Build) (x : Byte) (d : DUnit) : (wrByte b x d).totalSyms = d.totalSyms + 1#64 := by
  simp only [wrByte]; split <;> rfl

/-- The symbol counter moves by the word's length (R35). -/
theorem wrWord_totalSyms (b : Build) (xs : Word) :
    ∀ d, (wrWord b xs d).totalSyms = d.totalSyms + BitVec.ofNat 64 xs.length := by
  induction xs with
  | nil => intro d; simp [wrWord]
  | cons x xs ih =>
    intro d
    rw [wrWord, ih, wrByte_totalSyms, List.length_cons, BitVec.add_assoc, BitVec.ofNat_add, BitVec.add_comm 1#64]

theorem wrByte_idx {b : Build} {d : DUnit} (x : Byte) (h : d.wwIdx < b.blockBytes) :
    (wrByte b x d).wwIdx < b.blockBytes := by
  simp only [wrByte]
  split
  · simp only; omega
  · rename_i h'; simp only at h' ⊢; omega

theorem wrWord_idx {b : Build} (xs : Word) : ∀ {d : DUnit}, d.wwIdx < b.blockBytes →
    (wrWord b xs d).wwIdx < b.blockBytes := by
  induction xs with
  | nil => exact id
  | cons x xs ih => exact fun h => ih (wrByte_idx x h)

theorem wrByte_bufferOk {b : Build} {d : DUnit} (x : Byte) (h : d.wwIdx < b.blockBytes) (hb : BufferOk b d.wwBuf) :
    BufferOk b (wrByte b x d).wwBuf := by
  simp only [wrByte]
  split <;> exact bufferOk_write hb h x

theorem wrWord_bufferOk {b : Build} (xs : Word) : ∀ {d : DUnit}, d.wwIdx < b.blockBytes → BufferOk b d.wwBuf →
    BufferOk b (wrWord b xs d).wwBuf := by
  induction xs with
  | nil => exact fun _ h => h
  | cons x xs ih => exact fun h hb => ih (wrByte_idx x h) (wrByte_bufferOk x h hb)

/-- The flush puts every buffered byte on the tape (R164). -/
theorem wwFlush_spec (d : DUnit) : (wwFlush d).symOut = outSyms d ∧ (wwFlush d).wwIdx = 0 ∧
    (wwFlush d).wwBuf = d.wwBuf ∧ (wwFlush d).totalSyms = d.totalSyms := by
  simp only [wwFlush]
  split
  · simp [outSyms, sinkWrite, memBytes_eq_bufSyms]
  · have h0 : d.wwIdx = 0 := by omega
    simp [outSyms, h0]

/-- Fault entry (R228): the buffered bytes on the tape, the cause, the phase; the rest of the unit as it was. -/
theorem raise_spec (cause : Cause) (d : DUnit) :
    raise cause d = { d with symOut := outSyms d, wwIdx := 0, status := cause, phase := .fault } := by
  have h := wwFlush_spec d
  have hf := wwFlush_frame d
  rw [WriterFrame] at hf
  rw [raise, hf]
  simp only [withWriter]
  rw [h.1, h.2.1, h.2.2.1, h.2.2.2]

/-- Fault entry as the claims write it (R228). -/
theorem raise_eq_faultEntry (cause : Cause) (d : DUnit) : raise cause d = faultEntry cause d := by
  rw [raise_spec, faultEntry, outSyms, memBytes_eq_bufSyms]

end Sys2Proof.Machine
end

