-- ==== Sys2Proof/Laws/Encoder.lean ====
section
/-! SUPPORT. The encoder driver of unit `C`: the counter's advance, what one symbol and the end of the input do, and that
the ranges and R25's invariants are kept. -/

namespace Sys2Proof.Machine

/-! ### Fields a packer or reader operation keeps -/

section
variable {c c' : CUnit}

theorem PackerFrame.cur (h : PackerFrame c c') : c'.cur = c.cur := by rw [h]; rfl
theorem PackerFrame.par (h : PackerFrame c c') : c'.par = c.par := by rw [h]; rfl
theorem PackerFrame.lsym (h : PackerFrame c c') : c'.lsym = c.lsym := by rw [h]; rfl
theorem PackerFrame.next (h : PackerFrame c c') : c'.next = c.next := by rw [h]; rfl
theorem PackerFrame.trie (h : PackerFrame c c') : c'.trie = c.trie := by rw [h]; rfl
theorem PackerFrame.phase (h : PackerFrame c c') : c'.phase = c.phase := by rw [h]; rfl
theorem PackerFrame.status (h : PackerFrame c c') : c'.status = c.status := by rw [h]; rfl
theorem PackerFrame.go (h : PackerFrame c c') : c'.go = c.go := by rw [h]; rfl
theorem PackerFrame.protPin (h : PackerFrame c c') : c'.protPin = c.protPin := by rw [h]; rfl
theorem PackerFrame.srBuf (h : PackerFrame c c') : c'.srBuf = c.srBuf := by rw [h]; rfl
theorem PackerFrame.srIdx (h : PackerFrame c c') : c'.srIdx = c.srIdx := by rw [h]; rfl
theorem PackerFrame.srEnd (h : PackerFrame c c') : c'.srEnd = c.srEnd := by rw [h]; rfl
theorem PackerFrame.totalSyms (h : PackerFrame c c') : c'.totalSyms = c.totalSyms := by rw [h]; rfl
theorem PackerFrame.symIn (h : PackerFrame c c') : c'.symIn = c.symIn := by rw [h]; rfl

end

/-- The ranges that depend on neither the walk nor the phase. -/
structure CBuffers (b : Build) (c : CUnit) : Prop where
  bpOk   : BufferOk b c.bpBuf
  bpIdx  : c.bpIdx < 8 * b.blockBytes
  reader : ReaderOk b c

theorem CShape.buffers {b : Build} {c : CUnit} (h : CShape b c) : CBuffers b c :=
  ⟨h.bpOk, h.bpIdx, ⟨h.srOk, h.srIdx, h.srEnd, h.tape⟩⟩

theorem putBits_buffers {b : Build} {c : CUnit} (xs : List Bool) (h : CBuffers b c) : CBuffers b (putBits b xs c) := by
  have hf := putBits_frame b xs c
  refine ⟨putBits_bufferOk xs h.bpIdx h.bpOk, putBits_idx xs h.bpIdx, ?_⟩
  obtain ⟨h1, h2, h3, h4⟩ := h.reader
  exact ⟨by rw [hf.srBuf]; exact h1, by rw [hf.srIdx, hf.srEnd]; exact h2, by rw [hf.srEnd]; exact h3,
    by rw [hf.symIn]; exact h4⟩

theorem wrPair_buffers {b : Build} {c : CUnit} (code : Code) (sym : Byte) (w : Nat) (h : CBuffers b c) :
    CBuffers b (wrPair b code sym w c) := putBits_buffers _ h

theorem wrPair_frame (b : Build) (code : Code) (sym : Byte) (w : Nat) (c : CUnit) :
    PackerFrame c (wrPair b code sym w c) := putBits_frame _ _ _

theorem wrPair_outBits (b : Build) (code : Code) (sym : Byte) (w : Nat) (c : CUnit) :
    outBits (wrPair b code sym w c) = outBits c ++ pairBits code sym w := putBits_outBits _ _ _

theorem wrPair_totalBits (b : Build) (code : Code) (sym : Byte) (w : Nat) (c : CUnit) :
    (wrPair b code sym w c).totalBits = c.totalBits + BitVec.ofNat 64 (w + 8) := by
  rw [wrPair, putBits_totalBits, pairBits_length]

/-! ### The counter -/

/-- `PRIM.INCCODE` on an operand in its range (R126). -/
theorem incCode_spec {b : Build} {n : Code} (hb : b.Admitted) (h : CounterOk b n) :
    (n.toNat + 1 = b.maxCode ∧ incCode b n = (b.startCode, true)) ∨
    (n.toNat + 1 < b.maxCode ∧ incCode b n = (n + 1#16, false) ∧ (n + 1#16).toNat = n.toNat + 1) := by
  have ha : assignable b n = true := by simp [assignable, h.1, h.2]
  have hm := hb.2.2.2.2.2.2.1
  have h2 := h.2
  by_cases he : n.toNat + 1 = b.maxCode
  · left; simp [incCode, ha, he]
  · right
    refine ⟨by omega, by simp [incCode, ha, he], ?_⟩
    rw [BitVec.toNat_add]
    simp
    omega

theorem counterOk_start {b : Build} (hb : b.Admitted) : CounterOk b b.startCode := ⟨Nat.le_refl _, hb.2.2.2.2.2.1⟩

theorem incCode_counterOk {b : Build} {n : Code} (hb : b.Admitted) (h : CounterOk b n) : CounterOk b (incCode b n).1 := by
  rcases incCode_spec hb h with ⟨_, h2⟩ | ⟨h1, h2, h3⟩
  · rw [h2]; exact counterOk_start hb
  · rw [h2]; have := h.1; exact ⟨by simp only [h3]; omega, by simp only [h3]; exact h1⟩

/-- Everything the advance of `c_next` does (R177, R181). -/
theorem advanceC_spec {b : Build} {c : CUnit} (hb : b.Admitted) (h : CounterOk b c.next) :
    (c.next.toNat + 1 = b.maxCode ∧ advanceC b c = { c with next := b.startCode, trie := [] }) ∨
    (c.next.toNat + 1 < b.maxCode ∧ advanceC b c = { c with next := c.next + 1#16 } ∧
      (c.next + 1#16).toNat = c.next.toNat + 1) := by
  rcases incCode_spec hb h with ⟨h1, h2⟩ | ⟨h1, h2, h3⟩
  · left; exact ⟨h1, by simp [advanceC, h2, clearTrie]⟩
  · right; exact ⟨h1, by simp [advanceC, h2], h3⟩

/-! ### The trie -/

/-- What R25 says of the trie and the counter alone. -/
theorem TrieInv.empty {b : Build} {c : CUnit} (ht : c.trie = []) (hn : c.next = b.startCode) (hc : c.cur = b.emptyCode) :
    TrieInv b c := by
  refine ⟨?_, ?_, ?_, ?_, Or.inl hc, ?_⟩
  · simp [ht]
  · intro v h1 h2; rw [hn] at h2; omega
  · simp [ht]
  · simp [ht]
  · simp [ht, hn]

/-- A node of the walk is below the counter. -/
theorem TrieInv.cur_lt {b : Build} {c : CUnit} (hb : b.Admitted) (hn : CounterOk b c.next) (h : TrieInv b c) :
    c.cur.toNat < c.next.toNat := by
  rcases h.walk with h | hw
  · rw [h]; have := hb.2.2.2.1; have := hn.1; omega
  · exact (h.range _ _ _ hw).2

/-- The insertion of a miss keeps R25 for the counter one higher (R176). -/
theorem TrieInv.insert {b : Build} {c : CUnit} (hb : b.Admitted) (hn : CounterOk b c.next) (h : TrieInv b c) {sym : Byte}
    (habs : trieGet c.trie c.cur sym = none) {c' : CUnit} (ht : c'.trie = storeSet c.trie (trieKey c.cur sym) c.next)
    (hnext : c'.next.toNat = c.next.toNat + 1) (hcur : c'.cur = b.emptyCode) : TrieInv b c' := by
  have hcl := h.cur_lt hb hn
  have hget : ∀ n x, trieGet c'.trie n x = if n = c.cur ∧ x = sym then some c.next else trieGet c.trie n x := by
    intro n x; rw [ht, trieGet_insert]
  refine ⟨?_, ?_, ?_, ?_, Or.inl hcur, ?_⟩
  · intro n x v hv
    rw [hget] at hv
    split at hv
    · cases hv; rw [hnext]; exact ⟨hn.1, by omega⟩
    · have := h.range n x v hv; rw [hnext]; omega
  · intro v h1 h2
    rw [hnext] at h2
    by_cases hv : v = c.next
    · exact ⟨c.cur, sym, by rw [hget, if_pos ⟨rfl, rfl⟩, hv]⟩
    · have : v.toNat ≠ c.next.toNat := fun he => hv (BitVec.eq_of_toNat_eq he)
      obtain ⟨n, x, hx⟩ := h.onto v h1 (by omega)
      refine ⟨n, x, ?_⟩
      rw [hget, if_neg, hx]
      rintro ⟨rfl, rfl⟩
      rw [habs] at hx; exact absurd hx (by simp)
  · intro n x n' x' v h1 h2
    rw [hget] at h1 h2
    split at h1 <;> split at h2
    · rename_i ha hb'; exact ⟨ha.1.trans hb'.1.symm, ha.2.trans hb'.2.symm⟩
    · cases h1; have := (h.range _ _ _ h2).2; omega
    · cases h2; have := (h.range _ _ _ h1).2; omega
    · exact h.once _ _ _ _ _ h1 h2
  · have lift : ∀ {n : Code}, (∃ n' x', trieGet c.trie n' x' = some n) → ∃ n' x', trieGet c'.trie n' x' = some n := by
      rintro n ⟨n', x', hx⟩
      refine ⟨n', x', ?_⟩
      rw [hget, if_neg, hx]
      rintro ⟨rfl, rfl⟩
      rw [habs] at hx; exact absurd hx (by simp)
    intro n x v hv
    rw [hget] at hv
    split at hv
    · rename_i hcs
      cases hv
      rw [hcs.1]
      refine ⟨?_, hcl⟩
      rcases h.walk with hw | hw
      · exact Or.inl hw
      · exact Or.inr (lift ⟨_, _, hw⟩)
    · have := h.closed n x v hv
      exact ⟨this.1.imp_right lift, this.2⟩
  · rw [ht, length_storeSet_of_none _ habs, h.count, hnext]
    have := hn.1
    omega

/-! ### One symbol -/

theorem encSym_match {b : Build} {c : CUnit} {sym : Byte} {child : Code} (h : trieGet c.trie c.cur sym = some child) :
    encSym b sym c = { c with par := c.cur, cur := child, lsym := sym } := by simp [encSym, h]

/-- The miss before the counter moves: the pair is out, the entry is in, the walk is at the root. -/
def missCore (b : Build) (sym : Byte) (c : CUnit) : CUnit :=
  { withPacker c (wrPair b c.cur sym (bitlen c.next.toNat) c) with
    trie := storeSet c.trie (trieKey c.cur sym) c.next, cur := b.emptyCode }

theorem missSym_eq (b : Build) (sym : Byte) (c : CUnit) : missSym b sym c = advanceC b (missCore b sym c) := by
  have hf := wrPair_frame b c.cur sym (bitlen c.next.toNat) c
  have he : withPacker c (wrPair b c.cur sym (bitlen c.next.toNat) c) = wrPair b c.cur sym (bitlen c.next.toNat) c :=
    hf.symm
  simp only [missSym, missCore, trieInsert, hf.trie, hf.cur, hf.next, he]

theorem encSym_miss {b : Build} {c : CUnit} {sym : Byte} (h : trieGet c.trie c.cur sym = none) :
    encSym b sym c = { advanceC b (missCore b sym c) with lsym := sym } := by
  simp only [encSym, h, missSym_eq]

theorem missCore_buffers {b : Build} {c : CUnit} (sym : Byte) (h : CBuffers b c) : CBuffers b (missCore b sym c) := by
  have h' := wrPair_buffers c.cur sym (bitlen c.next.toNat) h
  exact ⟨h'.bpOk, h'.bpIdx, ⟨h.reader.buf, h.reader.idx, h.reader.fin, h.reader.tape⟩⟩

theorem missCore_outBits (b : Build) (sym : Byte) (c : CUnit) :
    outBits (missCore b sym c) = outBits c ++ pairBits c.cur sym (bitlen c.next.toNat) := by
  rw [← wrPair_outBits b]; rfl

/-- What one symbol does on a match (R176). On a miss see `encSym_miss_spec`. -/
theorem encSym_match_keeps {b : Build} {c : CUnit} {sym : Byte} {child : Code} (hs : CShape b c) (hr : c.phase = .run)
    (ht : TrieInv b c) (h : trieGet c.trie c.cur sym = some child) :
    CShape b (encSym b sym c) ∧ TrieInv b (encSym b sym c) ∧ (encSym b sym c).phase = .run := by
  rw [encSym_match h]
  exact ⟨⟨hs.bpOk, hs.srOk, hs.trieOk, hs.bpIdx, hs.srIdx, hs.srEnd, hs.tape, hs.status, hs.noFault, hs.counter,
    hs.flushed, hs.idle⟩, ⟨ht.range, ht.onto, ht.once, ht.closed, Or.inr h, ht.count⟩, hr⟩

/-- What one symbol does on a miss (R176, R177): the two ends of the counter's advance. -/
theorem encSym_miss_spec {b : Build} {c : CUnit} {sym : Byte} (hb : b.Admitted) (hn : CounterOk b c.next)
    (h : trieGet c.trie c.cur sym = none) :
    (c.next.toNat + 1 = b.maxCode ∧
      encSym b sym c = { missCore b sym c with next := b.startCode, trie := [], lsym := sym }) ∨
    (c.next.toNat + 1 < b.maxCode ∧ encSym b sym c = { missCore b sym c with next := c.next + 1#16, lsym := sym } ∧
      (c.next + 1#16).toNat = c.next.toNat + 1) := by
  rw [encSym_miss h]
  rcases advanceC_spec (c := missCore b sym c) hb hn with ⟨h1, h2⟩ | ⟨h1, h2, h3⟩
  · left; exact ⟨h1, by rw [h2]⟩
  · right; exact ⟨h1, by rw [h2]; rfl, h3⟩

theorem encSym_miss_keeps {b : Build} {c : CUnit} {sym : Byte} (hb : b.Admitted) (hs : CShape b c) (hr : c.phase = .run)
    (ht : TrieInv b c) (h : trieGet c.trie c.cur sym = none) :
    CShape b (encSym b sym c) ∧ TrieInv b (encSym b sym c) ∧ (encSym b sym c).phase = .run := by
  have hn := hs.counter hr
  have hbuf := missCore_buffers sym hs.buffers
  rcases encSym_miss_spec (sym := sym) hb hn h with ⟨h1, h2⟩ | ⟨h1, h2, h3⟩
  · rw [h2]
    refine ⟨⟨hbuf.bpOk, hs.srOk, List.Pairwise.nil, hbuf.bpIdx, hs.srIdx, hs.srEnd, hs.tape, hs.status, hs.noFault,
      fun _ => counterOk_start hb, fun hp => absurd hr hp, fun hp => ?_⟩, TrieInv.empty rfl rfl rfl, hr⟩
    exact absurd (hr.symm.trans hp) (by decide)
  · rw [h2]
    refine ⟨⟨hbuf.bpOk, hs.srOk, storeWf_set hs.trieOk _ _, hbuf.bpIdx, hs.srIdx, hs.srEnd, hs.tape, hs.status, hs.noFault,
      fun _ => ⟨by simp only [h3]; have := hn.1; omega, by simp only [h3]; exact h1⟩, fun hp => absurd hr hp, fun hp => ?_⟩,
      ht.insert hb hn h rfl h3 rfl, hr⟩
    exact absurd (hr.symm.trans hp) (by decide)

/-- One symbol keeps the ranges, R25 and the phase. -/
theorem encSym_keeps {b : Build} {c : CUnit} (hb : b.Admitted) (hs : CShape b c) (hr : c.phase = .run)
    (ht : TrieInv b c) (sym : Byte) :
    CShape b (encSym b sym c) ∧ TrieInv b (encSym b sym c) ∧ (encSym b sym c).phase = .run := by
  cases h : trieGet c.trie c.cur sym with
  | some child => exact encSym_match_keeps hs hr ht h
  | none => exact encSym_miss_keeps hb hs hr ht h

/-! ### The end of the input -/

/-- The final pair (R180, R181): nothing when no prefix is pending, else the pair and the counter's advance. -/
theorem finalPair_root {b : Build} {c : CUnit} (h : c.cur = b.emptyCode) : finalPair b c = c := by simp [finalPair, h]

/-- The final pair before the counter moves. -/
def finalCore (b : Build) (c : CUnit) : CUnit :=
  { withPacker c (wrPair b c.par c.lsym (bitlen c.next.toNat) c) with cur := b.emptyCode }

theorem finalPair_pending {b : Build} {c : CUnit} (h : c.cur ≠ b.emptyCode) :
    finalPair b c = advanceC b (finalCore b c) := by
  have hf := wrPair_frame b c.par c.lsym (bitlen c.next.toNat) c
  rw [PackerFrame] at hf
  rw [finalPair, if_neg h, finalCore, ← hf]

theorem finalCore_outBits (b : Build) (c : CUnit) :
    outBits (finalCore b c) = outBits c ++ pairBits c.par c.lsym (bitlen c.next.toNat) := by
  rw [← wrPair_outBits b]; rfl

theorem finalPair_keeps {b : Build} {c : CUnit} (hb : b.Admitted) (hbuf : CBuffers b c) (hw : storeWf c.trie)
    (hn : CounterOk b c.next) :
    CBuffers b (finalPair b c) ∧ storeWf (finalPair b c).trie ∧ CounterOk b (finalPair b c).next ∧
      (finalPair b c).cur = b.emptyCode ∧ (finalPair b c).status = c.status := by
  by_cases h : c.cur = b.emptyCode
  · rw [finalPair_root h]; exact ⟨hbuf, hw, hn, h, rfl⟩
  · have h' := wrPair_buffers c.par c.lsym (bitlen c.next.toNat) hbuf
    have hb2 : CBuffers b (finalCore b c) :=
      ⟨h'.bpOk, h'.bpIdx, ⟨hbuf.reader.buf, hbuf.reader.idx, hbuf.reader.fin, hbuf.reader.tape⟩⟩
    rw [finalPair_pending h]
    rcases advanceC_spec (c := finalCore b c) hb hn with ⟨h1, h2⟩ | ⟨h1, h2, h3⟩
    · rw [h2]
      exact ⟨⟨hb2.bpOk, hb2.bpIdx, ⟨hb2.reader.buf, hb2.reader.idx, hb2.reader.fin, hb2.reader.tape⟩⟩, List.Pairwise.nil,
        counterOk_start hb, rfl, rfl⟩
    · rw [h2]
      refine ⟨⟨hb2.bpOk, hb2.bpIdx, ⟨hb2.reader.buf, hb2.reader.idx, hb2.reader.fin, hb2.reader.tape⟩⟩, hw, ?_, rfl, rfl⟩
      exact ⟨by simp only [h3]; have := hn.1; simp only [finalCore, withPacker] at *; omega, by simp only [h3]; exact h1⟩

/-- The end of the input keeps the ranges and ends the run (R180). -/
theorem encEnd_keeps {b : Build} {c : CUnit} (hb : b.Admitted) (hs : CShape b c) (hr : c.phase = .run) :
    CShape b (encEnd b c) ∧ (encEnd b c).phase = .done := by
  obtain ⟨f1, f2, f3, f4, f5⟩ := finalPair_keeps hb hs.buffers hs.trieOk (hs.counter hr)
  have h' := wrPair_buffers b.stopCode 0#8 (bitlen (finalPair b c).next.toNat) f1
  have hf := wrPair_frame b b.stopCode 0#8 (bitlen (finalPair b c).next.toNat) (finalPair b c)
  have hf2 := hf.trans (bpFlush_frame (wrPair b b.stopCode 0#8 (bitlen (finalPair b c).next.toNat) (finalPair b c)))
  refine ⟨⟨bpFlush_bufferOk h'.bpIdx h'.bpOk, ?_, ?_, ?_, ?_, ?_, ?_, ?_, by simp [encEnd], by simp [encEnd], ?_,
    by simp [encEnd]⟩, rfl⟩
  · simp only [encEnd]; rw [hf2.srBuf]; exact f1.reader.buf
  · simp only [encEnd]; rw [hf2.trie]; exact f2
  · simp only [encEnd]; rw [(bpFlush_spec _).2.1]; have := hs.bpIdx; omega
  · simp only [encEnd]; rw [hf2.srIdx, hf2.srEnd]; exact f1.reader.idx
  · simp only [encEnd]; rw [hf2.srEnd]; exact f1.reader.fin
  · simp only [encEnd]; rw [hf2.symIn]; exact f1.reader.tape
  · simp only [encEnd]; rw [hf2.status, f5]; exact hs.status
  · intro _; simp only [encEnd]; exact (bpFlush_spec _).2.1

/-- Everything the end of the input puts on the stream (R180): the final pair, the stop pair, the pad. -/
theorem encEnd_tape (b : Build) (c : CUnit) : ∃ k, k < 8 ∧
    unpack (encEnd b c).byteOut = outBits (finalPair b c) ++
      pairBits b.stopCode 0#8 (bitlen (finalPair b c).next.toNat) ++ List.replicate k false := by
  simp only [encEnd]
  rw [(bpFlush_spec _).1, wrPair_outBits]
  exact ⟨_, by omega, rfl⟩

/-! ### One agent step -/

theorem ReaderFrame.walk {c c' : CUnit} (h : ReaderFrame c c') :
    c'.cur = c.cur ∧ c'.par = c.par ∧ c'.lsym = c.lsym ∧ c'.next = c.next ∧ c'.trie = c.trie ∧ c'.phase = c.phase ∧
      c'.status = c.status ∧ c'.bpBuf = c.bpBuf ∧ c'.bpIdx = c.bpIdx ∧ c'.byteOut = c.byteOut ∧
      c'.totalBits = c.totalBits ∧ c'.go = c.go ∧ c'.protPin = c.protPin := by
  rw [h.1]; exact ⟨rfl, rfl, rfl, rfl, rfl, rfl, rfl, rfl, rfl, rfl, rfl, rfl, rfl⟩

/-- Reading a symbol keeps the ranges and R25 in `RUN`. -/
theorem rdSym_keeps {b : Build} {c : CUnit} (hb : b.Admitted) (hs : CShape b c) (hr : c.phase = .run) (ht : TrieInv b c) :
    CShape b (rdSym b c).2 ∧ TrieInv b (rdSym b c).2 ∧ (rdSym b c).2.phase = .run := by
  cases he : inSyms c with
  | nil => rw [rdSym_end hs.buffers.reader he]; exact ⟨hs, ht, hr⟩
  | cons x r =>
    obtain ⟨_, _, _, h4, h5⟩ := rdSym_spec hb.2.2.2.2.2.2.2 hs.buffers.reader he
    obtain ⟨w1, w2, w3, w4, w5, w6, w7, w8, w9, w10, _⟩ := h4.walk
    have hrun : (rdSym b c).2.phase = .run := w6.trans hr
    refine ⟨⟨by rw [w8]; exact hs.bpOk, h5.buf, by rw [w5]; exact hs.trieOk, by rw [w9]; exact hs.bpIdx, h5.idx, h5.fin,
      h5.tape, by rw [w7]; exact hs.status, by rw [hrun]; decide, fun _ => by rw [w4]; exact hs.counter hr,
      fun hp => absurd hrun hp, fun hp => ?_⟩, ?_, hrun⟩
    · exact absurd (hrun.symm.trans hp) (by decide)
    · exact ⟨by rw [w4, w5]; exact ht.range, by rw [w4, w5]; exact ht.onto, by rw [w5]; exact ht.once,
        by rw [w5]; exact ht.closed, by rw [w1, w2, w3, w5]; exact ht.walk, by rw [w4, w5]; exact ht.count⟩

/-- `C.STEP` keeps the ranges, and R25 while the unit stays in `RUN` (R175). -/
theorem encStep_keeps {b : Build} {c : CUnit} (hb : b.Admitted) (hs : CShape b c) (hr : c.phase = .run)
    (ht : TrieInv b c) : CShape b (encStep b c) ∧ ((encStep b c).phase = .run → TrieInv b (encStep b c)) := by
  obtain ⟨k1, k2, k3⟩ := rdSym_keeps hb hs hr ht
  simp only [encStep]
  generalize rdSym b c = r at *
  obtain ⟨o, c'⟩ := r
  cases o with
  | some x =>
    obtain ⟨e1, e2, _⟩ := encSym_keeps hb k1 k3 k2 x
    exact ⟨e1, fun _ => e2⟩
  | none =>
    obtain ⟨e1, e2⟩ := encEnd_keeps hb k1 k3
    exact ⟨e1, fun h => absurd (h.symm.trans e2) (by decide)⟩

/-- `C.START` from a launched unit gives a running one at the root with an empty trie (R174). -/
theorem encStart_keeps {b : Build} {c : CUnit} (hb : b.Admitted) (hs : CShape b c) :
    CShape b (encStart b c) ∧ TrieInv b (encStart b c) ∧ (encStart b c).phase = .run := by
  refine ⟨⟨hs.bpOk, hs.srOk, List.Pairwise.nil, hs.bpIdx, hs.srIdx, hs.srEnd, hs.tape, hs.status,
    by simp [encStart], fun _ => counterOk_start hb, fun h => absurd rfl h, ?_⟩, TrieInv.empty rfl rfl rfl, rfl⟩
  intro h
  exact absurd h (by simp [encStart])

end Sys2Proof.Machine
end

