-- ==== Sys2Proof/Laws/Decoder.lean ====
section
/-! SUPPORT. The decoder driver of unit `D`: what a data pair, the stop pair, a truncated pair and a bad code do, and that
the ranges and R32's invariants are kept. -/

namespace Sys2Proof.Machine

/-! ### Fields an unpacker or writer operation keeps -/

section
variable {d d' : DUnit}

theorem UnpackerFrame.keeps (h : UnpackerFrame d d') :
    d'.go = d.go ∧ d'.phase = d.phase ∧ d'.status = d.status ∧ d'.prot = d.prot ∧ d'.next = d.next ∧ d'.code = d.code ∧
      d'.sym = d.sym ∧ d'.wt = d.wt ∧ d'.wwBuf = d.wwBuf ∧ d'.wwIdx = d.wwIdx ∧ d'.totalSyms = d.totalSyms ∧
      d'.symOut = d.symOut := by
  rw [h.1]; exact ⟨rfl, rfl, rfl, rfl, rfl, rfl, rfl, rfl, rfl, rfl, rfl, rfl⟩

theorem WriterFrame.keeps (h : WriterFrame d d') :
    d'.go = d.go ∧ d'.phase = d.phase ∧ d'.status = d.status ∧ d'.prot = d.prot ∧ d'.next = d.next ∧ d'.code = d.code ∧
      d'.sym = d.sym ∧ d'.wt = d.wt ∧ d'.buBuf = d.buBuf ∧ d'.buIdx = d.buIdx ∧ d'.buEnd = d.buEnd ∧
      d'.totalBits = d.totalBits ∧ d'.byteIn = d.byteIn := by
  rw [h]; exact ⟨rfl, rfl, rfl, rfl, rfl, rfl, rfl, rfl, rfl, rfl, rfl, rfl, rfl⟩

/-- What a writer operation leaves of the unread stream: all of it. -/
theorem WriterFrame.inBits (h : WriterFrame d d') : inBits d' = Machine.inBits d := by
  obtain ⟨_, _, _, _, _, _, _, _, h1, h2, h3, _, h4⟩ := h.keeps
  simp only [Machine.inBits, h1, h2, h3, h4]

end

theorem DShape.unpacker {b : Build} {d : DUnit} (h : DShape b d) : UnpackerOk b d :=
  ⟨h.buOk, h.buIdx, h.buEnd, h.bytes, h.tape⟩

/-- The ranges of unit `D` that depend on neither the counter nor the phase. -/
structure DBuffers (b : Build) (d : DUnit) : Prop where
  unpacker : UnpackerOk b d
  wwOk     : BufferOk b d.wwBuf
  wwIdx    : d.wwIdx < b.blockBytes
  wtOk     : storeWf d.wt
  slots    : ∀ e ∈ d.wt, e.1 < b.maxCode

theorem DShape.buffers {b : Build} {d : DUnit} (h : DShape b d) : DBuffers b d :=
  ⟨h.unpacker, h.wwOk, h.wwIdx, h.wtOk, h.slots⟩

theorem seedWt_buffers {b : Build} {d : DUnit} (hb : b.Admitted) (h : DBuffers b d) : DBuffers b (seedWt b d) := by
  refine ⟨⟨h.unpacker.buf, h.unpacker.idx, h.unpacker.fin, h.unpacker.bytes, h.unpacker.tape⟩, h.wwOk, h.wwIdx, ?_, ?_⟩
  · simp [seedWt]
  · intro e he
    simp only [seedWt, List.mem_singleton] at he
    subst he
    have h1 := hb.2.2.2.1
    have h2 := hb.2.2.2.2.2.1
    simp only; omega

theorem wrWord_buffers {b : Build} {d : DUnit} (word : Word) (h : DBuffers b d) : DBuffers b (wrWord b word d) := by
  obtain ⟨_, _, _, _, _, _, _, k8, k9, k10, k11, _, k13⟩ := (wrWord_frame b word d).keeps
  exact ⟨⟨by rw [k9]; exact h.unpacker.buf, by rw [k10, k11]; exact h.unpacker.idx, by rw [k11]; exact h.unpacker.fin,
    by rw [k11]; exact h.unpacker.bytes, by rw [k13]; exact h.unpacker.tape⟩, wrWord_bufferOk word h.wwIdx h.wwOk,
    wrWord_idx word h.wwIdx, by rw [k8]; exact h.wtOk, by rw [k8]; exact h.slots⟩

/-- Everything the advance of `d_next` does (R196, R202). -/
theorem advanceD_spec {b : Build} {d : DUnit} (hb : b.Admitted) (h : CounterOk b d.next) :
    (d.next.toNat + 1 = b.maxCode ∧ advanceD b d = { d with next := b.startCode, wt := [(b.emptyCode.toNat, [])] }) ∨
    (d.next.toNat + 1 < b.maxCode ∧ advanceD b d = { d with next := d.next + 1#16 } ∧
      (d.next + 1#16).toNat = d.next.toNat + 1) := by
  rcases incCode_spec hb h with ⟨h1, h2⟩ | ⟨h1, h2, h3⟩
  · left; exact ⟨h1, by simp [advanceD, h2, seedWt]⟩
  · right; exact ⟨h1, by simp [advanceD, h2], h3⟩

/-- The word stored and written, before the counter moves (R196). -/
def storeWord (b : Build) (word : Word) (d : DUnit) : DUnit :=
  withWriter { d with wt := storeSet d.wt d.next.toNat word }
    (wrWord b word { d with wt := storeSet d.wt d.next.toNat word })

/-- Everything a data pair's word does (R196): stored, written, the counter advanced. -/
theorem takeWord_eq {b : Build} {d : DUnit} (word : Word) (h : CounterOk b d.next) :
    takeWord b word d = .next (advanceD b (storeWord b word d)) := by
  have hf := wrWord_frame b word { d with wt := storeSet d.wt d.next.toNat word }
  rw [WriterFrame] at hf
  rw [takeWord, wtSet, if_pos h.2, andThen_next, hf]
  rfl

theorem storeWord_buffers {b : Build} {d : DUnit} (word : Word) (hd : DBuffers b d) (hn : CounterOk b d.next) :
    DBuffers b (storeWord b word d) := by
  have hf := wrWord_frame b word { d with wt := storeSet d.wt d.next.toNat word }
  rw [WriterFrame] at hf
  rw [storeWord, ← hf]
  refine wrWord_buffers word ⟨⟨hd.unpacker.buf, hd.unpacker.idx, hd.unpacker.fin, hd.unpacker.bytes, hd.unpacker.tape⟩,
    hd.wwOk, hd.wwIdx, storeWf_set hd.wtOk _ _, fun e he => ?_⟩
  rcases mem_storeSet he with he | he
  · subst he; exact hn.2
  · exact hd.slots e he

theorem storeWord_outSyms (b : Build) (word : Word) (d : DUnit) : outSyms (storeWord b word d) = outSyms d ++ word := by
  have := wrWord_outSyms b word { d with wt := storeSet d.wt d.next.toNat word }
  exact this

theorem storeWord_inBits (b : Build) (word : Word) (d : DUnit) : inBits (storeWord b word d) = inBits d := rfl

/-- The word table right after it is seeded. -/
theorem WtInv.seeded {b : Build} {d : DUnit} (hb : b.Admitted) (ht : d.wt = [(b.emptyCode.toNat, [])])
    (hn : d.next = b.startCode) : WtInv b d := by
  refine ⟨by simp [ht, storeGet], ?_, ?_⟩
  · intro a
    have h1 := hb.2.2.2.1
    rw [ht, hn]
    simp only [storeGet]
    split
    · simp [*]
    · simp only [Option.isSome_none, Bool.false_eq_true, false_iff]; omega
  · intro a h1 h2
    rw [hn] at h2; omega

/-- A data pair's word keeps R32 for the counter one higher (R196). -/
theorem WtInv.store {b : Build} {d : DUnit} (hb : b.Admitted) (hn : CounterOk b d.next) (h : WtInv b d) {p : Code}
    {w : Word} {x : Byte} (hp : storeGet d.wt p.toNat = some w) (hv : validCode b d.next p = true) {d' : DUnit}
    (ht : d'.wt = storeSet d.wt d.next.toNat (w ++ [x])) (hnext : d'.next.toNat = d.next.toNat + 1) : WtInv b d' := by
  have h1 := hb.2.2.2.1
  have h2 := hn.1
  have hne : b.emptyCode.toNat ≠ d.next.toNat := by omega
  have hpv : p.toNat = b.emptyCode.toNat ∨ p.toNat < d.next.toNat := by
    simp only [validCode, Bool.or_eq_true, beq_iff_eq, Bool.and_eq_true, decide_eq_true_eq] at hv
    rcases hv with hv | hv
    · left; rw [hv]
    · right; exact hv.2
  have hpn : p.toNat ≠ d.next.toNat := by omega
  refine ⟨?_, ?_, ?_⟩
  · rw [ht, storeGet_set_other _ _ hne]; exact h.root
  · intro a
    rw [ht, storeGet_set, hnext]
    split
    · simp; omega
    · rw [h.filled a]; omega
  · intro a ha1 ha2
    rw [hnext] at ha2
    rw [ht]
    by_cases ha : a = d.next.toNat
    · subst ha
      refine ⟨p.toNat, w, x, by rw [storeGet_set_self], by rw [storeGet_set_other _ _ hpn]; exact hp, hpv⟩
    · obtain ⟨q, v, y, e1, e2, e3⟩ := h.parent a ha1 (by omega)
      have hq : q ≠ d.next.toNat := by omega
      exact ⟨q, v, y, by rw [storeGet_set_other _ _ ha]; exact e1, by rw [storeGet_set_other _ _ hq]; exact e2, e3⟩

/-- The slot of a valid code is populated (R194, R32 (b)). -/
theorem WtInv.lookup {b : Build} {d : DUnit} (h : WtInv b d) {p : Code} (hv : validCode b d.next p = true) :
    ∃ w, storeGet d.wt p.toNat = some w := by
  rw [← Option.isSome_iff_exists, h.filled]
  simp only [validCode, Bool.or_eq_true, beq_iff_eq, Bool.and_eq_true, decide_eq_true_eq] at hv
  rcases hv with hv | hv
  · left; rw [hv]
  · right; exact hv

theorem validCode_lt {b : Build} {n p : Code} (hb : b.Admitted) (hn : CounterOk b n) (hv : validCode b n p = true) :
    p.toNat < b.maxCode := by
  have h1 := hb.2.2.2.1
  have h2 := hn.1
  have h3 := hn.2
  simp only [validCode, Bool.or_eq_true, beq_iff_eq, Bool.and_eq_true, decide_eq_true_eq] at hv
  rcases hv with hv | hv
  · rw [hv]; omega
  · omega

/-- A valid data pair (R196). -/
theorem decData_valid {b : Build} {d : DUnit} (hb : b.Admitted) (hn : CounterOk b d.next)
    (hv : validCode b d.next d.code = true) {w : Word} (hw : storeGet d.wt d.code.toNat = some w) :
    decData b d = .next (advanceD b (storeWord b (wordAppend w d.sym) d)) := by
  rw [decData, if_pos hv, wtGet, if_pos (validCode_lt hb hn hv), andThen_next, hw]
  exact takeWord_eq _ hn

/-- A data pair whose code names no entry (R194, R201). -/
theorem decData_invalid {b : Build} {d : DUnit} (hv : validCode b d.next d.code = false) :
    decData b d = .next (raise .corruptCode d) := by simp [decData, hv]

/-- The ranges of a unit that has raised, or stopped, in `RUN`. -/
theorem flushed_shape {b : Build} {d : DUnit} (hd : DBuffers b d) {ph : Phase} {st : Cause}
    (h1 : ph = .done ∨ ph = .fault) (h2 : st ≠ .none ↔ ph = .fault) (h3 : st ≠ .oom) :
    DShape b { d with symOut := outSyms d, wwIdx := 0, status := st, phase := ph } := by
  have hww := hd.wwIdx
  refine ⟨hd.unpacker.buf, hd.wwOk, hd.wtOk, hd.slots, hd.unpacker.idx, hd.unpacker.fin, hd.unpacker.bytes, ?_,
    hd.unpacker.tape, h2, h3, ?_, fun _ => rfl, ?_⟩
  · simp only; omega
  · intro h; simp only at h; rcases h1 with h1 | h1 <;> rw [h1] at h <;> exact absurd h (by decide)
  · intro h; simp only at h; rcases h1 with h1 | h1 <;> rw [h1] at h <;> exact absurd h (by decide)

theorem decStop_eq (d : DUnit) : decStop d = { d with symOut := outSyms d, wwIdx := 0, phase := .done } := by
  have h := wwFlush_spec d
  have hf := wwFlush_frame d
  rw [WriterFrame] at hf
  rw [decStop, hf]
  simp only [withWriter]
  rw [h.1, h.2.1, h.2.2.1, h.2.2.2]

/-- A data pair keeps the ranges, and R32 while the unit stays in `RUN`; it always goes on. -/
theorem decData_keeps {b : Build} {d : DUnit} (hb : b.Admitted) (hd : DShape b d) (hr : d.phase = .run)
    (hw : WtInv b d) : ∃ d', decData b d = .next d' ∧ DShape b d' ∧ (d'.phase = .run → WtInv b d') := by
  have hn := hd.counter hr
  have hst : d.status = .none := by
    by_contra h
    exact absurd (hr.symm.trans (hd.status.1 h)) (by decide)
  cases hv : validCode b d.next d.code with
  | false =>
    refine ⟨_, decData_invalid hv, ?_, ?_⟩
    · rw [raise_spec]
      exact flushed_shape hd.buffers (Or.inr rfl) (by decide) (by decide)
    · rw [raise_spec]; intro h; exact absurd h (by simp)
  | true =>
    obtain ⟨w, hl⟩ := hw.lookup hv
    refine ⟨_, decData_valid hb hn hv hl, ?_⟩
    have hbuf := storeWord_buffers (wordAppend w d.sym) hd.buffers hn
    have hn' : CounterOk b (storeWord b (wordAppend w d.sym) d).next := hn
    rcases advanceD_spec hb hn' with ⟨_, e2⟩ | ⟨e1, e2, e3⟩
    · rw [e2]
      have hs := seedWt_buffers hb hbuf
      refine ⟨⟨hs.unpacker.buf, hs.wwOk, hs.wtOk, hs.slots, hs.unpacker.idx, hs.unpacker.fin, hs.unpacker.bytes, hs.wwIdx,
        hs.unpacker.tape, hd.status, hd.noOom, fun _ => counterOk_start hb, fun h => absurd hr h, fun h => ?_⟩,
        fun _ => WtInv.seeded hb rfl rfl⟩
      exact absurd (hr.symm.trans h) (by decide)
    · rw [e2]
      refine ⟨⟨hbuf.unpacker.buf, hbuf.wwOk, hbuf.wtOk, hbuf.slots, hbuf.unpacker.idx, hbuf.unpacker.fin,
        hbuf.unpacker.bytes, hbuf.wwIdx, hbuf.unpacker.tape, hd.status, hd.noOom, fun _ => ?_, fun h => absurd hr h,
        fun h => ?_⟩, fun _ => hw.store hb hn hl hv rfl e3⟩
      · exact ⟨by simp only [e3]; have := hn'.1; omega, by simp only [e3]; exact e1⟩
      · exact absurd (hr.symm.trans h) (by decide)

/-- Reading bits keeps the ranges and R32 in `RUN`, whatever is latched. -/
theorem unpacked_keeps {b : Build} {d u : DUnit} (hd : DShape b d) (hr : d.phase = .run) (hw : WtInv b d)
    (hf : UnpackerFrame d u) (hu : UnpackerOk b u) (code : Code) (sym : Byte) :
    DShape b { u with code := code, sym := sym } ∧ WtInv b { u with code := code, sym := sym } := by
  obtain ⟨k1, k2, k3, k4, k5, k6, k7, k8, k9, k10, k11, k12⟩ := hf.keeps
  refine ⟨⟨hu.buf, by simp only [k9]; exact hd.wwOk, by simp only [k8]; exact hd.wtOk, by simp only [k8]; exact hd.slots,
    hu.idx, hu.fin, hu.bytes, by simp only [k10]; exact hd.wwIdx, hu.tape, by simp only [k2, k3]; exact hd.status,
    by simp only [k3]; exact hd.noOom, by simp only [k2, k5]; exact hd.counter, by simp only [k2, k10]; exact hd.flushed,
    fun h => ?_⟩, ⟨?_, ?_, ?_⟩⟩
  · simp only [k2] at h; exact absurd (hr.symm.trans h) (by decide)
  · simp only [k8]; exact hw.root
  · simp only [k8, k5]; exact hw.filled
  · simp only [k8, k5]; exact hw.parent

/-- `D.STEP` on a tape that ends inside the pair (R201): fault entry, the bits that were left used and counted. -/
theorem decStep_trunc {b : Build} {d : DUnit} (hb : 1 ≤ b.blockBytes) (h : UnpackerOk b d)
    (hl : (inBits d).length < bitlen d.next.toNat + 8) :
    ∃ u, decStep b d = .next (raise .corruptTrunc u) ∧ inBits u = [] ∧
      u.totalBits = d.totalBits + BitVec.ofNat 64 (inBits d).length ∧ UnpackerFrame d u ∧ UnpackerOk b u := by
  obtain ⟨u, h1, h2⟩ := rdPair_trunc hb h hl
  exact ⟨u, by simp only [decStep, h1]; rfl, h2⟩

/-- `D.STEP` on a complete pair (R196, R197): the pair latched, then its own effect. -/
theorem decStep_complete {b : Build} {d : DUnit} (hb : 1 ≤ b.blockBytes) (h : UnpackerOk b d) {w : Nat}
    (hw : w = bitlen d.next.toNat) {p r : List Bool} (hp : p.length = w + 8) (he : inBits d = p ++ r) :
    ∃ u, decStep b d = (if pairCode w p = b.stopCode then
          .next (decStop { u with code := pairCode w p, sym := pairSym w p })
        else decData b { u with code := pairCode w p, sym := pairSym w p }) ∧
      inBits u = r ∧ u.totalBits = d.totalBits + BitVec.ofNat 64 (w + 8) ∧ UnpackerFrame d u ∧ UnpackerOk b u := by
  obtain ⟨u, h1, h2⟩ := rdPair_complete hb h hp he
  refine ⟨u, ?_, h2⟩
  rw [decStep, ← hw, h1]
  by_cases hs : pairCode w p = b.stopCode
  · simp [hs]
  · have hne : (pairCode w p != b.stopCode) = true := by simp [hs]
    simp only [hne, hs, Bool.false_eq_true, if_false, if_true]

/-- `D.STEP` goes on from every state the hardware can hold; it keeps the ranges, and R32 while the unit stays in `RUN`
(R196, R265). -/
theorem decStep_keeps {b : Build} {d : DUnit} (hb : b.Admitted) (hd : DShape b d) (hr : d.phase = .run)
    (hw : WtInv b d) : ∃ d', decStep b d = .next d' ∧ DShape b d' ∧ (d'.phase = .run → WtInv b d') := by
  have hst : d.status = .none := by
    by_contra h
    exact absurd (hr.symm.trans (hd.status.1 h)) (by decide)
  by_cases hl : (inBits d).length < bitlen d.next.toNat + 8
  · obtain ⟨u, h1, _, _, h4, h5⟩ := decStep_trunc hb.2.2.2.2.2.2.2 hd.unpacker hl
    refine ⟨_, h1, ?_, ?_⟩
    · have := (unpacked_keeps hd hr hw h4 h5 u.code u.sym).1
      rw [raise_spec]
      exact flushed_shape this.buffers (Or.inr rfl) (by decide) (by decide)
    · rw [raise_spec]; intro h; exact absurd h (by simp)
  · have hlen : ((inBits d).take (bitlen d.next.toNat + 8)).length = bitlen d.next.toNat + 8 := by
      rw [List.length_take]; omega
    obtain ⟨u, h1, _, _, h4, h5⟩ := decStep_complete hb.2.2.2.2.2.2.2 hd.unpacker rfl hlen
      (List.take_append_drop (bitlen d.next.toNat + 8) (inBits d)).symm
    generalize hpc : pairCode (bitlen d.next.toNat) ((inBits d).take (bitlen d.next.toNat + 8)) = code at h1
    generalize hps : pairSym (bitlen d.next.toNat) ((inBits d).take (bitlen d.next.toNat + 8)) = sym at h1
    have hk := unpacked_keeps hd hr hw h4 h5 code sym
    have hru : u.phase = .run := h4.keeps.2.1.trans hr
    by_cases hs : code = b.stopCode
    · rw [if_pos hs] at h1
      refine ⟨_, h1, ?_, ?_⟩
      · rw [decStop_eq]
        have hu3 : u.status = .none := h4.keeps.2.2.1.trans hst
        have := flushed_shape hk.1.buffers (ph := .done) (st := .none) (Or.inl rfl) (by decide) (by decide)
        simpa only [hu3] using this
      · rw [decStop_eq]; intro h; exact absurd h (by simp)
    · rw [if_neg hs] at h1
      obtain ⟨d', e1, e2, e3⟩ := decData_keeps hb hk.1 hru hk.2
      exact ⟨d', h1.trans e1, e2, e3⟩

/-- What reading the header does (R212, R213, R225). -/
theorem hdrRd_spec (b : Build) (d : DUnit) :
    let r := srcRead d.byteIn 6
    let d' := { d with byteIn := r.2 }
    hdrRd b d = if r.1.length < 6 then (false, raise .hdrShort d')
      else if headerMagic r.1 = b.magic then (true, { d' with prot := headerProt r.1 }) else (false, raise .badMagic d') :=
  rfl

/-- `D.START` from a launched unit (R198): running with a seeded table, or faulted. -/
theorem decStart_keeps {b : Build} {d : DUnit} (hb : b.Admitted) (hd : DShape b d) (hi : d.phase = .idle) :
    DShape b (decStart b d) ∧ ((decStart b d).phase = .run → WtInv b (decStart b d)) := by
  have hst : d.status = .none := by
    by_contra h
    exact absurd (hi.symm.trans (hd.status.1 h)) (by decide)
  have hpos := srcRead_pos 6 hd.tape
  have hbuf : DBuffers b { d with byteIn := (srcRead d.byteIn 6).2 } :=
    ⟨⟨hd.buOk, hd.buIdx, hd.buEnd, hd.bytes, hpos⟩, hd.wwOk, hd.wwIdx, hd.wtOk, hd.slots⟩
  have hh := hdrRd_spec b d
  simp only at hh
  simp only [decStart, hh]
  split
  · rename_i heq
    split at heq
    · exact absurd heq (by simp)
    · split at heq
      · cases heq
        have hs := seedWt_buffers hb hbuf
        exact ⟨⟨hd.buOk, hd.wwOk, hs.wtOk, hs.slots, hd.buIdx, hd.buEnd, hd.bytes, hd.wwIdx, hpos,
          by simp [seedWt, hst], hd.noOom, fun _ => counterOk_start hb, fun h => absurd rfl h,
          fun h => absurd h (by simp)⟩, fun _ => WtInv.seeded hb rfl rfl⟩
      · exact absurd heq (by simp)
  · rename_i heq
    split at heq
    · cases heq
      rw [raise_spec]
      exact ⟨flushed_shape hbuf (Or.inr rfl) (by decide) (by decide), fun h => absurd h (by simp)⟩
    · split at heq
      · exact absurd heq (by simp)
      · cases heq
        rw [raise_spec]
        exact ⟨flushed_shape hbuf (Or.inr rfl) (by decide) (by decide), fun h => absurd h (by simp)⟩

end Sys2Proof.Machine
end

