-- ==== Sys2Proof/Laws/Step.lean ====
section
/-! SUPPORT. What a step can do: one inversion lemma for the step, and what each host move keeps. -/

namespace Sys2Proof.Machine

theorem cStartEnabled_iff {c : CUnit} : cStartEnabled c = true ↔ c.phase = .idle ∧ c.go = true := by
  simp [cStartEnabled]

theorem cStepEnabled_iff {c : CUnit} : cStepEnabled c = true ↔ c.phase = .run := by simp [cStepEnabled]

theorem dStartEnabled_iff {d : DUnit} : dStartEnabled d = true ↔ d.phase = .idle ∧ d.go = true := by
  simp [dStartEnabled]

theorem dStepEnabled_iff {d : DUnit} : dStepEnabled d = true ↔ d.phase = .run := by simp [dStepEnabled]

/-- What an enabled agent step does to the two units (R174, R175, R196, R198); the events to come are as before. -/
inductive AgentMove (b : Build) (c : CUnit) (d : DUnit) : Host.Outcome (CUnit × DUnit) Fault Refusal → Prop where
  | cStart : c.phase = .idle → c.go = true → AgentMove b c d (.next (encStart b c, d))
  | cStep : c.phase = .run → AgentMove b c d (.next (encStep b c, d))
  | dStart : d.phase = .idle → d.go = true → AgentMove b c d (.next (c, decStart b d))
  | dStep : d.phase = .run → AgentMove b c d (andThen (decStep b d) (fun d' => .next (c, d')))

/-- The outcome of an agent step, as a state. -/
def settle (s : State) (o : Host.Outcome (CUnit × DUnit) Fault Refusal) : Host.Outcome State Fault Refusal :=
  andThen o (fun p => .next (((s.setC p.1).setD p.2).setRet .nothing))

/-- Running an agent's operation: nothing when none is enabled, else that agent's move. -/
theorem runOp_nextOp (a : Agent) (s s' : State) (hb : s'.build = s.build) (hc : s'.c = s.c) (hd : s'.d = s.d) :
    (nextOp a s = none ∧ runOp (nextOp a s) s' = .next s') ∨
    ∃ i o, nextOp a s = some i ∧ AgentMove s.build s.c s.d o ∧ runOp (nextOp a s) s' = settle s' o := by
  cases a with
  | c =>
    cases h1 : cStartEnabled s.c with
    | true =>
      have hi := cStartEnabled_iff.1 h1
      right
      refine ⟨.cStart, _, by simp [nextOp, nextOpC, h1], .cStart hi.1 hi.2, ?_⟩
      simp only [nextOp, nextOpC, h1, if_true, runOp_some, exec, execCStart, hc, hb, finishC_eq, settle, andThen_next]
      rw [← hd]; rfl
    | false =>
      cases h2 : cStepEnabled s.c with
      | true =>
        right
        refine ⟨.cStep, _, by simp [nextOp, nextOpC, h1, h2], .cStep (cStepEnabled_iff.1 h2), ?_⟩
        simp only [nextOp, nextOpC, h1, h2, if_true, runOp_some, exec, execCStep, hc, hb, finishC_eq, settle, andThen_next,
          Bool.false_eq_true, if_false]
        rw [← hd]; rfl
      | false => left; simp [nextOp, nextOpC, h1, h2]
  | d =>
    cases h1 : dStartEnabled s.d with
    | true =>
      have hi := dStartEnabled_iff.1 h1
      right
      refine ⟨.dStart, _, by simp [nextOp, nextOpD, h1], .dStart hi.1 hi.2, ?_⟩
      simp only [nextOp, nextOpD, h1, if_true, runOp_some, exec, execDStart, hd, hb, finishD_eq, settle, andThen_next]
      rw [← hc]; rfl
    | false =>
      cases h2 : dStepEnabled s.d with
      | true =>
        right
        refine ⟨.dStep, _, by simp [nextOp, nextOpD, h1, h2], .dStep (dStepEnabled_iff.1 h2), ?_⟩
        simp only [nextOp, nextOpD, h1, h2, if_true, runOp_some, exec, execDStep, hd, hb, settle,
          Bool.false_eq_true, if_false]
        cases decStep s.build s.d with
        | next d' => simp only [andThen_next, finishD_eq]; rw [← hc]; rfl
        | fault r => rfl
        | refused r => rfl
      | false => left; simp [nextOp, nextOpD, h1, h2]

/-- Everything a step can be: nothing but the end of an event, an agent's move, or a host move. -/
theorem step_cases (s : State) :
    (step s = .next (popEvent s) ∧ ∀ m es, s.sched ≠ .host m :: es) ∨
    (∃ o, AgentMove s.build s.c s.d o ∧ step s = settle (popEvent s) o) ∨
    (∃ m es, s.sched = .host m :: es ∧ step s = hostStep m (popEvent s)) := by
  cases hs : s.sched with
  | nil =>
    have hp : popEvent s = s := state_ext rfl rfl rfl (by simp [hs]) rfl
    have key : step s = runOp (defaultOp s) s := by simp only [step, hs]
    rw [key, hp]
    rcases runOp_nextOp .c s s rfl rfl rfl with ⟨h1, h2⟩ | ⟨i, o, h1, h2, h3⟩
    · have hd : defaultOp s = nextOp .d s := by simp [defaultOp, h1]
      rw [hd]
      rcases runOp_nextOp .d s s rfl rfl rfl with ⟨_, h2⟩ | ⟨i, o, _, h2, h3⟩
      · left; exact ⟨h2, by simp⟩
      · right; left; exact ⟨o, h2, h3⟩
    · have hd : defaultOp s = nextOp .c s := by simp [defaultOp, h1]
      rw [hd]
      right; left; exact ⟨o, h2, h3⟩
  | cons e es =>
    cases e with
    | turn a =>
      have key : step s = runOp (nextOp a s) (popEvent s) := by simp only [step, hs]
      rw [key]
      rcases runOp_nextOp a s (popEvent s) rfl rfl rfl with ⟨_, h2⟩ | ⟨i, o, _, h2, h3⟩
      · left; exact ⟨h2, by simp⟩
      · right; left; exact ⟨o, h2, h3⟩
    | host m => right; right; exact ⟨m, es, rfl, by simp only [step, hs]⟩

/-! ### Reset and the host's moves -/

theorem pulseC_shape (b : Build) (hb : b.Admitted) (c : CUnit) : CShape b (pulseC c) := by
  have h := hb.2.2.2.2.2.2.2
  exact ⟨bufferOk_nil b, bufferOk_nil b, List.Pairwise.nil, by simp [pulseC, CUnit.reset]; omega, Nat.le_refl _,
    Nat.zero_le _, Nat.zero_le _, rfl, by simp [pulseC, CUnit.reset], fun h => absurd h (by simp [pulseC, CUnit.reset]),
    fun _ => rfl, fun _ => ⟨rfl, rfl, rfl⟩⟩

theorem pulseD_shape (b : Build) (hb : b.Admitted) (d : DUnit) : DShape b (pulseD d) := by
  have h := hb.2.2.2.2.2.2.2
  exact ⟨bufferOk_nil b, bufferOk_nil b, List.Pairwise.nil, by simp [pulseD, DUnit.reset], Nat.le_refl _,
    Nat.zero_le _, ⟨0, rfl⟩, h, Nat.zero_le _, by simp [pulseD, DUnit.reset], by simp [pulseD, DUnit.reset],
    fun h => absurd h (by simp [pulseD, DUnit.reset]), fun _ => rfl, fun _ => ⟨rfl, rfl, rfl, rfl⟩⟩

/-- The ranges of unit `C` do not read its pins, nor where its tape starts before the launch. -/
theorem CShape.pins {b : Build} {c : CUnit} (h : CShape b c) (go : Bool) (prot : BitVec 16) :
    CShape b { c with go := go, protPin := prot } :=
  ⟨h.bpOk, h.srOk, h.trieOk, h.bpIdx, h.srIdx, h.srEnd, h.tape, h.status, h.noFault, h.counter, h.flushed, h.idle⟩

theorem TrieInv.pins {b : Build} {c : CUnit} (h : TrieInv b c) (go : Bool) (prot : BitVec 16) :
    TrieInv b { c with go := go, protPin := prot } := ⟨h.range, h.onto, h.once, h.closed, h.walk, h.count⟩

theorem CShape.supplied {b : Build} {c : CUnit} (h : CShape b c) (tape : List Byte) :
    CShape b { c with symIn := { bytes := tape, pos := 0 } } :=
  ⟨h.bpOk, h.srOk, h.trieOk, h.bpIdx, h.srIdx, h.srEnd, Nat.zero_le _, h.status, h.noFault, h.counter, h.flushed,
    fun hi => ⟨(h.idle hi).1, (h.idle hi).2.1, rfl⟩⟩

theorem DShape.pins {b : Build} {d : DUnit} (h : DShape b d) (go : Bool) : DShape b { d with go := go } :=
  ⟨h.buOk, h.wwOk, h.wtOk, h.slots, h.buIdx, h.buEnd, h.bytes, h.wwIdx, h.tape, h.status, h.noOom, h.counter, h.flushed,
    h.idle⟩

theorem DShape.supplied {b : Build} {d : DUnit} (h : DShape b d) (tape : List Byte) :
    DShape b { d with byteIn := { bytes := tape, pos := 0 } } :=
  ⟨h.buOk, h.wwOk, h.wtOk, h.slots, h.buIdx, h.buEnd, h.bytes, h.wwIdx, Nat.zero_le _, h.status, h.noOom, h.counter,
    h.flushed, fun hi => ⟨(h.idle hi).1, (h.idle hi).2.1, (h.idle hi).2.2.1, rfl⟩⟩

/-- What a host move can make of unit `C` (R250, R254, R256). -/
inductive HostC (c : CUnit) : CUnit → Prop where
  | same : HostC c c
  | pulse : HostC c (pulseC c)
  | tape (t : List Byte) : c.phase = .idle → c.go = false → HostC c { c with symIn := { bytes := t, pos := 0 } }
  | prot (p : BitVec 16) : ¬(c.phase = .idle ∧ c.go = true) → HostC c { c with protPin := p }
  | go : c.phase = .idle → c.go = false → HostC c { c with go := true }

/-- What a host move can make of unit `D` (R250, R254, R256). -/
inductive HostD (d : DUnit) : DUnit → Prop where
  | same : HostD d d
  | pulse : HostD d (pulseD d)
  | tape (t : List Byte) : d.phase = .idle → d.go = false → HostD d { d with byteIn := { bytes := t, pos := 0 } }
  | go : d.phase = .idle → d.go = false → HostD d { d with go := true }

/-- A host move that goes on touches one unit in one of these ways, and nothing else. -/
theorem hostStep_cases {m : HostMove} {s t : State} (h : hostStep m s = .next t) :
    t.build = s.build ∧ t.sched = s.sched ∧ t.ret = s.ret ∧ HostC s.c t.c ∧ HostD s.d t.d ∧ (t.c = s.c ∨ t.d = s.d) := by
  have byteIn : ∀ {tape : List Byte}, hostByteIn tape s = .next t →
      t.build = s.build ∧ t.sched = s.sched ∧ t.ret = s.ret ∧ HostC s.c t.c ∧ HostD s.d t.d ∧ (t.c = s.c ∨ t.d = s.d) := by
    intro tape h
    simp only [hostByteIn] at h
    split at h
    · cases h; rename_i hi; exact ⟨rfl, rfl, rfl, .same, .tape _ hi.1 hi.2, Or.inl rfl⟩
    · cases h
  cases m with
  | pulseCRst => cases h; exact ⟨rfl, rfl, rfl, .pulse, .same, Or.inr rfl⟩
  | pulseDRst => cases h; exact ⟨rfl, rfl, rfl, .same, .pulse, Or.inl rfl⟩
  | supplySymIn tape =>
    simp only [hostStep, hostSymIn] at h
    split at h
    · cases h; rename_i hi; exact ⟨rfl, rfl, rfl, .tape _ hi.1 hi.2, .same, Or.inr rfl⟩
    · cases h
  | supplyByteIn tape => exact byteIn h
  | carry =>
    simp only [hostStep, hostCarry] at h
    split at h
    · exact byteIn h
    · cases h
  | driveCProt p =>
    simp only [hostStep, hostProt] at h
    split at h
    · cases h
    · cases h; rename_i hi; exact ⟨rfl, rfl, rfl, .prot _ hi, .same, Or.inr rfl⟩
  | setCGo =>
    simp only [hostStep, hostCGo] at h
    split at h
    · cases h; rename_i hi; exact ⟨rfl, rfl, rfl, .go hi.1 hi.2, .same, Or.inr rfl⟩
    · cases h
  | setDGo =>
    simp only [hostStep, hostDGo] at h
    split at h
    · cases h; rename_i hi; exact ⟨rfl, rfl, rfl, .same, .go hi.1 hi.2, Or.inl rfl⟩
    · cases h

/-- A host move keeps the ranges and R25 of unit `C`. -/
theorem HostC.keeps {b : Build} {c c' : CUnit} (hb : b.Admitted) (h : HostC c c') (hs : CShape b c)
    (ht : c.phase = .run → TrieInv b c) : CShape b c' ∧ (c'.phase = .run → TrieInv b c') := by
  cases h with
  | same => exact ⟨hs, ht⟩
  | pulse => exact ⟨pulseC_shape b hb c, fun h => absurd h (by simp [pulseC, CUnit.reset])⟩
  | tape t h1 h2 => exact ⟨hs.supplied t, fun h => absurd (h1.symm.trans h) (by decide)⟩
  | prot p hp => exact ⟨hs.pins c.go p, fun h => (ht h).pins c.go p⟩
  | go h1 h2 => exact ⟨hs.pins true c.protPin, fun h => (ht h).pins true c.protPin⟩

/-- A host move keeps the ranges and R32 of unit `D`. -/
theorem HostD.keeps {b : Build} {d d' : DUnit} (hb : b.Admitted) (h : HostD d d') (hs : DShape b d)
    (hw : d.phase = .run → WtInv b d) : DShape b d' ∧ (d'.phase = .run → WtInv b d') := by
  cases h with
  | same => exact ⟨hs, hw⟩
  | pulse => exact ⟨pulseD_shape b hb d, fun h => absurd h (by simp [pulseD, DUnit.reset])⟩
  | tape t h1 h2 => exact ⟨hs.supplied t, fun h => absurd (h1.symm.trans h) (by decide)⟩
  | go h1 h2 => exact ⟨hs.pins true, fun h => absurd (h1.symm.trans h) (by decide)⟩

end Sys2Proof.Machine
end

