-- ==== Sys2Proof/Laws/Lockstep.lean ====
section
/-! SUPPORT. The lockstep of the two units (R45, R200): the decoder's dictionary as a function of the pairs written so far,
how each encoder operation keeps it in step with the trie, and how unit `D` reads those pairs back. -/

namespace Sys2Proof.Machine

/-- What the decoder's dictionary is after some pairs: the table, the counter, and the bytes written out. -/
structure Dict where
  wt   : WordTable
  next : Code
  out  : List Byte

/-- The dictionary at the start of a run (R190, R198). -/
def Dict.start (b : Build) : Dict := { wt := [(b.emptyCode.toNat, [])], next := b.startCode, out := [] }

/-- The dictionary after one more data pair, whose word is `word` (R196). -/
def Dict.take (b : Build) (a : Dict) (word : Word) : Dict :=
  { wt := if (incCode b a.next).2 then [(b.emptyCode.toNat, [])] else storeSet a.wt a.next.toNat word,
    next := (incCode b a.next).1, out := a.out ++ word }

/-- `Feeds b E a n`: the bits `E` are `n` data pairs, each valid and at the width of its turn, and lead to `a`. -/
inductive Feeds (b : Build) : List Bool → Dict → Nat → Prop where
  | start : Feeds b [] (Dict.start b) 0
  | pair {E : List Bool} {a : Dict} {n : Nat} {code : Code} {w : Word} (sym : Byte) (h : Feeds b E a n)
      (hs : code ≠ b.stopCode) (hv : validCode b a.next code = true) (hw : storeGet a.wt code.toNat = some w) :
      Feeds b (E ++ pairBits code sym (bitlen a.next.toNat)) (a.take b (wordAppend w sym)) (n + 1)

theorem Feeds.length {b : Build} {E : List Bool} {a : Dict} {n : Nat} (h : Feeds b E a n) : 8 * n ≤ E.length := by
  induction h with
  | start => simp
  | pair sym h hs hv hw ih => simp; omega

theorem Feeds.counter {b : Build} (hb : b.Admitted) {E : List Bool} {a : Dict} {n : Nat} (h : Feeds b E a n) :
    CounterOk b a.next := by
  induction h with
  | start => exact counterOk_start hb
  | pair sym h hs hv hw ih => exact incCode_counterOk hb ih

/-! ### The encoder's side -/

/-- The encoder's state is in step with the decoder's dictionary for what it has written: header bits `H`, consumed
symbols `P`. -/
structure InStep (b : Build) (H : List Bool) (P : List Byte) (c : CUnit) (E : List Bool) (a : Dict) (n : Nat) : Prop where
  written : outBits c = H ++ E
  feeds   : Feeds b E a n
  next    : a.next = c.next
  root    : storeGet a.wt b.emptyCode.toNat = some []
  trie    : ∀ m x v, trieGet c.trie m x = some v →
    ∃ w, storeGet a.wt m.toNat = some w ∧ storeGet a.wt v.toNat = some (w ++ [x])
  pending : ∃ w, storeGet a.wt c.cur.toNat = some w ∧ P = a.out ++ w

/-- The codes of data pairs are valid and are not the stop code (R183). -/
theorem TrieInv.emitted {b : Build} {c : CUnit} (hb : b.Admitted) (h : TrieInv b c) {p : Code}
    (hp : p = b.emptyCode ∨ ∃ m x, trieGet c.trie m x = some p) : p ≠ b.stopCode ∧ validCode b c.next p = true := by
  rcases hp with rfl | ⟨m, x, hx⟩
  · exact ⟨hb.1, by simp [validCode]⟩
  · have hr := h.range _ _ _ hx
    have hst := hb.2.2.2.2.1
    refine ⟨?_, by simp [validCode, hr.1, hr.2]⟩
    rintro rfl
    omega

theorem TrieInv.node {b : Build} {c : CUnit} (h : TrieInv b c) :
    c.cur = b.emptyCode ∨ ∃ m x, trieGet c.trie m x = some c.cur := by
  rcases h.walk with h | h
  · exact Or.inl h
  · exact Or.inr ⟨_, _, h⟩

/-- One symbol keeps the units in step (R176, R177). -/
theorem InStep.sym {b : Build} {H E : List Bool} {P : List Byte} {c : CUnit} {a : Dict} {n : Nat} (hb : b.Admitted)
    (hs : CShape b c) (hr : c.phase = .run) (ht : TrieInv b c) (h : InStep b H P c E a n) (x : Byte) :
    ∃ E' a' n', InStep b H (P ++ [x]) (encSym b x c) E' a' n' := by
  have hn := hs.counter hr
  obtain ⟨w, hw, hP⟩ := h.pending
  cases hg : trieGet c.trie c.cur x with
  | some child =>
    refine ⟨E, a, n, ?_⟩
    rw [encSym_match hg]
    obtain ⟨w', h1, h2⟩ := h.trie _ _ _ hg
    rw [hw] at h1; cases h1
    exact ⟨h.written, h.feeds, h.next, h.root, h.trie, ⟨w ++ [x], h2, by rw [hP, List.append_assoc]⟩⟩
  | none =>
    obtain ⟨hstop, hval⟩ := ht.emitted hb ht.node
    rw [← h.next] at hval
    have hf := Feeds.pair x h.feeds hstop hval hw
    refine ⟨E ++ pairBits c.cur x (bitlen a.next.toNat), a.take b (wordAppend w x), n + 1, ?_⟩
    · have hout : P ++ [x] = (a.take b (wordAppend w x)).out ++ [] := by
        simp [Dict.take, wordAppend, hP]
      have hwr : outBits (missCore b x c) = H ++ (E ++ pairBits c.cur x (bitlen a.next.toNat)) := by
        rw [missCore_outBits, h.written, h.next, List.append_assoc]
      have hnx : incCode b a.next = incCode b c.next := by rw [h.next]
      rcases encSym_miss_spec (sym := x) hb hn hg with ⟨h1, h2⟩ | ⟨h1, h2, h3⟩
      · rw [h2]
        have hi : incCode b c.next = (b.startCode, true) := by
          rcases incCode_spec hb hn with ⟨_, h⟩ | ⟨h, _⟩
          · exact h
          · omega
        refine ⟨hwr, hf, ?_, ?_, ?_, ⟨[], ?_, hout⟩⟩
        · simp [Dict.take, hnx, hi]
        · simp [Dict.take, hnx, hi, storeGet]
        · intro m y v hv; simp at hv
        · simp [Dict.take, hnx, hi, storeGet, missCore]
      · rw [h2]
        have hi : incCode b c.next = (c.next + 1#16, false) := by
          rcases incCode_spec hb hn with ⟨h, _⟩ | ⟨_, h, _⟩
          · omega
          · exact h
        have hwt : (a.take b (wordAppend w x)).wt = storeSet a.wt c.next.toNat (w ++ [x]) := by
          simp [Dict.take, hi, h.next, wordAppend]
        have hroot : b.emptyCode.toNat ≠ c.next.toNat := by
          have := hb.2.2.2.1; have := hn.1; omega
        have hcl := ht.cur_lt hb hn
        refine ⟨hwr, hf, by simp [Dict.take, hnx, hi], ?_, ?_, ⟨[], ?_, hout⟩⟩
        · rw [hwt, storeGet_set_other _ _ hroot]; exact h.root
        · intro m y v hv
          rw [hwt]
          simp only [missCore] at hv
          rw [trieGet_insert] at hv
          split at hv
          · rename_i hm
            cases hv
            refine ⟨w, ?_, ?_⟩
            · rw [hm.1, storeGet_set_other _ _ (by omega)]; exact hw
            · rw [storeGet_set_self, hm.2]
          · obtain ⟨w', e1, e2⟩ := h.trie m y v hv
            have h4 := (ht.range m y v hv).2
            have h5 := (ht.closed m y v hv).2
            exact ⟨w', by rw [storeGet_set_other _ _ (by omega)]; exact e1,
              by rw [storeGet_set_other _ _ (by omega)]; exact e2⟩
        · rw [hwt]; simp only [missCore]; rw [storeGet_set_other _ _ hroot]; exact h.root

/-- The final pair hands the pending prefix to the decoder (R180, R181). -/
theorem InStep.final {b : Build} {H E : List Bool} {P : List Byte} {c : CUnit} {a : Dict} {n : Nat} (hb : b.Admitted)
    (hn : CounterOk b c.next) (ht : TrieInv b c) (h : InStep b H P c E a n) :
    ∃ E' a' n', outBits (finalPair b c) = H ++ E' ∧ Feeds b E' a' n' ∧ a'.next = (finalPair b c).next ∧ a'.out = P := by
  obtain ⟨w, hw, hP⟩ := h.pending
  by_cases hc : c.cur = b.emptyCode
  · rw [finalPair_root hc]
    rw [hc, h.root] at hw; cases hw
    exact ⟨E, a, n, h.written, h.feeds, h.next, by simp [hP]⟩
  · rcases ht.walk with hwk | hwk
    · exact absurd hwk hc
    obtain ⟨w', e1, e2⟩ := h.trie _ _ _ hwk
    rw [hw] at e2; cases e2
    obtain ⟨hstop, hval⟩ := ht.emitted hb (ht.closed _ _ _ hwk).1
    rw [← h.next] at hval
    have hf := Feeds.pair c.lsym h.feeds hstop hval e1
    refine ⟨_, _, _, ?_, hf, ?_, by simp [Dict.take, wordAppend, hP]⟩
    · have : outBits (finalPair b c) = outBits (finalCore b c) := by
        rw [finalPair_pending hc]
        rcases advanceC_spec (c := finalCore b c) hb hn with ⟨_, h2⟩ | ⟨_, h2, _⟩ <;> rw [h2] <;> rfl
      rw [this, finalCore_outBits, h.written, h.next, List.append_assoc]
    · rw [finalPair_pending hc]
      have hi : (Dict.take b a (wordAppend w' c.lsym)).next = (incCode b c.next).1 := by simp [Dict.take, h.next]
      rw [hi]
      by_cases ho : (incCode b c.next).2 = true <;> simp [advanceC, finalCore, withPacker, ho, clearTrie]

/-! ### The decoder's side -/

/-- The fields of a pair read back (R97, R151). -/
theorem pairCode_pairBits {code : Code} {sym : Byte} {w : Nat} (h : code.toNat < 2 ^ w) :
    pairCode w (pairBits code sym w) = code := by
  rw [pairCode, pairBits, List.take_left' (bitsOf_length _ _), natOf_bitsOf, Nat.mod_eq_of_lt h]
  simp

theorem pairSym_pairBits (code : Code) (sym : Byte) (w : Nat) : pairSym w (pairBits code sym w) = sym := by
  have : (bitsOf 8 sym.toNat).take 8 = bitsOf 8 sym.toNat := List.take_of_length_le (by simp)
  rw [pairSym, pairBits, List.drop_left' (bitsOf_length _ _), this, natOf_bitsOf]
  apply BitVec.eq_of_toNat_eq
  have := sym.isLt
  simp
  omega

/-- A valid code fits the width of its turn (R123). -/
theorem validCode_fits {b : Build} {n p : Code} (hb : b.Admitted) (hn : CounterOk b n) (hv : validCode b n p = true) :
    p.toNat < 2 ^ bitlen n.toNat := by
  have h1 := hb.2.2.2.1
  have h2 := hn.1
  have h3 := lt_two_pow_bitlen n.toNat
  simp only [validCode, Bool.or_eq_true, beq_iff_eq, Bool.and_eq_true, decide_eq_true_eq] at hv
  rcases hv with hv | hv
  · rw [hv]; omega
  · omega

/-- Unit `D` holds the dictionary `a` and has the bits `R` still to read. -/
structure Holds (b : Build) (d : DUnit) (a : Dict) (R : List Bool) : Prop where
  shape : DShape b d
  wtInv : WtInv b d
  run   : d.phase = .run
  wt    : d.wt = a.wt
  next  : d.next = a.next
  out   : outSyms d = a.out
  bits  : inBits d = R

/-- One data pair read (R196). -/
theorem Holds.pair {b : Build} {d : DUnit} {a : Dict} {code : Code} {sym : Byte} {w : Word} {R : List Bool}
    (hb : b.Admitted) (h : Holds b d a (pairBits code sym (bitlen a.next.toNat) ++ R)) (hs : code ≠ b.stopCode)
    (hv : validCode b a.next code = true) (hw : storeGet a.wt code.toNat = some w) :
    ∃ d', decStep b d = .next d' ∧ Holds b d' (a.take b (wordAppend w sym)) R ∧ d'.prot = d.prot := by
  have hn := h.shape.counter h.run
  have hfit := validCode_fits hb (h.next ▸ hn) hv
  obtain ⟨u, h1, h2, h3, h4, h5⟩ := decStep_complete hb.2.2.2.2.2.2.2 h.shape.unpacker
    (congrArg (fun n : Code => bitlen n.toNat) h.next.symm) (pairBits_length code sym _) h.bits
  rw [pairCode_pairBits hfit, pairSym_pairBits, if_neg hs] at h1
  have hk := unpacked_keeps h.shape h.run h.wtInv h4 h5 code sym
  obtain ⟨k1, k2, k3, k4, k5, k6, k7, k8, k9, k10, k11, k12⟩ := h4.keeps
  have hru : u.phase = .run := k2.trans h.run
  obtain ⟨d', e1, e2, e3⟩ := decData_keeps hb hk.1 hru hk.2
  have hnu : u.next = a.next := k5.trans h.next
  have hwu : u.wt = a.wt := k8.trans h.wt
  have hval := decData_valid (d := { u with code := code, sym := sym }) hb (by simp only [hnu]; exact h.next ▸ hn)
    (by simp only [hnu]; exact hv) (w := w) (by simp only [hwu]; exact hw)
  rw [hval] at e1
  cases e1
  have hou : outSyms (storeWord b (wordAppend w sym) { u with code := code, sym := sym }) = a.out ++ wordAppend w sym := by
    rw [storeWord_outSyms]
    congr 1
    rw [← h.out]
    simp only [outSyms, k9, k10, k12]
  have hin : inBits (storeWord b (wordAppend w sym) { u with code := code, sym := sym }) = R := by
    rw [storeWord_inBits, ← h2]; rfl
  refine ⟨_, h1.trans hval, ?_, ?_⟩
  · rcases advanceD_spec (d := storeWord b (wordAppend w sym) { u with code := code, sym := sym }) hb
      (by simp only [storeWord, withWriter, hnu]; exact h.next ▸ hn) with ⟨g1, g2⟩ | ⟨g1, g2, g3⟩
    · have hnx : u.next.toNat + 1 = b.maxCode := g1
      have hi : incCode b a.next = (b.startCode, true) := by
        rcases incCode_spec hb (h.next ▸ hn) with ⟨_, h⟩ | ⟨h, _⟩
        · exact h
        · rw [hnu] at hnx; omega
      rw [g2] at e2 e3 ⊢
      exact ⟨e2, e3 hru, hru, by simp [Dict.take, hi], by simp [Dict.take, hi], by rw [Dict.take, ← hou]; rfl,
        by rw [← hin]; rfl⟩
    · have hnx : u.next.toNat + 1 < b.maxCode := g1
      have hi : incCode b a.next = (a.next + 1#16, false) := by
        rcases incCode_spec hb (h.next ▸ hn) with ⟨h, _⟩ | ⟨_, h, _⟩
        · rw [hnu] at hnx; omega
        · exact h
      rw [g2] at e2 e3 ⊢
      refine ⟨e2, e3 hru, hru, ?_, ?_, by rw [Dict.take, ← hou]; rfl, by rw [← hin]; rfl⟩
      · simp only [Dict.take, hi, storeWord, withWriter, hnu, hwu, Bool.false_eq_true, if_false]
      · simp only [Dict.take, hi, storeWord, withWriter, hnu]
  · simp only [advanceD]
    split <;> exact k4

/-- The stop pair read (R197). -/
theorem Holds.stop {b : Build} {d : DUnit} {a : Dict} {sym : Byte} {R : List Bool} (hb : b.Admitted)
    (h : Holds b d a (pairBits b.stopCode sym (bitlen a.next.toNat) ++ R)) :
    ∃ d', decStep b d = .next d' ∧ d'.phase = .done ∧ d'.status = .none ∧ d'.symOut = a.out ∧ d'.prot = d.prot ∧
      d'.next = a.next := by
  have hn := h.shape.counter h.run
  have hst : d.status = .none := by
    by_contra hc
    exact absurd (h.run.symm.trans (h.shape.status.1 hc)) (by decide)
  have hfit : b.stopCode.toNat < 2 ^ bitlen a.next.toNat := by
    have h1 := hb.2.2.2.2.1
    have h2 := (h.next ▸ hn : CounterOk b a.next).1
    have h3 := lt_two_pow_bitlen a.next.toNat
    omega
  obtain ⟨u, h1, h2, h3, h4, h5⟩ := decStep_complete hb.2.2.2.2.2.2.2 h.shape.unpacker
    (congrArg (fun n : Code => bitlen n.toNat) h.next.symm) (pairBits_length b.stopCode sym _) h.bits
  rw [pairCode_pairBits hfit, if_pos rfl, decStop_eq] at h1
  obtain ⟨k1, k2, k3, k4, k5, k6, k7, k8, k9, k10, k11, k12⟩ := h4.keeps
  refine ⟨_, h1, rfl, k3.trans hst, ?_, k4, k5.trans h.next⟩
  rw [← h.out]
  simp only [outSyms, k9, k10, k12]

/-! ### Runs of the machine -/

theorem runSteps_add (m n : Nat) : ∀ s, runSteps (m + n) s = andThen (runSteps m s) (runSteps n) := by
  induction m with
  | zero => intro s; rw [Nat.zero_add]; rfl
  | succ m ih =>
    intro s
    rw [Nat.add_right_comm, runSteps, runSteps]
    cases step s with
    | next t => simp only [andThen_next]; exact ih t
    | fault r => rfl
    | refused r => rfl

/-- A state that stays stays for ever (R265). -/
theorem runSteps_stays {s : State} (h : step s = .next s) (n : Nat) : runSteps n s = .next s := by
  induction n with
  | zero => rfl
  | succ n ih => rw [runSteps, h, andThen_next, ih]

/-- The step of a system whose only enabled agent is `C` in `RUN`. -/
theorem step_encStep {s : State} (hs : s.sched = []) (hr : s.c.phase = .run) :
    step s = .next ((s.setC (encStep s.build s.c)).setRet .nothing) := by
  have h1 : cStartEnabled s.c = false := by simp [cStartEnabled, hr]
  have h2 : cStepEnabled s.c = true := cStepEnabled_iff.2 hr
  simp [step, hs, defaultOp, nextOp, nextOpC, h1, h2, exec, execCStep]

/-- The step of a system whose unit `C` is launched. -/
theorem step_encStart {s : State} (hs : s.sched = []) (hi : s.c.phase = .idle) (hg : s.c.go = true) :
    step s = .next ((s.setC (encStart s.build s.c)).setRet .nothing) := by
  have h1 : cStartEnabled s.c = true := cStartEnabled_iff.2 ⟨hi, hg⟩
  simp [step, hs, defaultOp, nextOp, nextOpC, h1, exec, execCStart]

/-- The step of a system whose only enabled agent is `D` in `RUN`. -/
theorem step_decStep {s : State} {d' : DUnit} (hs : s.sched = []) (hc : nextOpC s.c = none) (hr : s.d.phase = .run)
    (h : decStep s.build s.d = .next d') : step s = .next ((s.setD d').setRet .nothing) := by
  have h1 : dStartEnabled s.d = false := by simp [dStartEnabled, hr]
  have h2 : dStepEnabled s.d = true := dStepEnabled_iff.2 hr
  simp [step, hs, defaultOp, nextOp, nextOpD, hc, h1, h2, exec, execDStep, h]

/-- The step of a system whose only unit that can move is a launched `D`. -/
theorem step_decStart {s : State} (hs : s.sched = []) (hc : nextOpC s.c = none) (hi : s.d.phase = .idle)
    (hg : s.d.go = true) : step s = .next ((s.setD (decStart s.build s.d)).setRet .nothing) := by
  have h1 : dStartEnabled s.d = true := dStartEnabled_iff.2 ⟨hi, hg⟩
  simp [step, hs, defaultOp, nextOp, nextOpD, hc, h1, exec, execDStart]

/-- A system with no enabled agent and no event stays as it is (R240, R265). -/
theorem step_rest {s : State} (hs : s.sched = []) (hc : nextOpC s.c = none) (hd : nextOpD s.d = none) :
    step s = .next s := by
  simp [step, hs, defaultOp, nextOp, hc, hd]

/-- A run of unit `C` over the symbols that are left, to its end (R175): the tape is the header, pairs the decoder's
dictionary takes, the stop pair and the pad, and the pairs stand for every symbol consumed. -/
theorem runC_to_done {b : Build} {H : List Bool} (hb : b.Admitted) : ∀ (xs : List Byte) {s : State} {P : List Byte}
    {E : List Bool} {a : Dict} {n : Nat}, s.build = b → s.sched = [] → s.c.phase = .run → CShape b s.c →
    TrieInv b s.c → inSyms s.c = xs → InStep b H P s.c E a n →
    ∃ t E' a' n' k, runSteps (xs.length + 1) s = .next t ∧ t.c.phase = .done ∧ k < 8 ∧
      unpack t.c.byteOut = H ++ E' ++ pairBits b.stopCode 0#8 (bitlen a'.next.toNat) ++ List.replicate k false ∧
      Feeds b E' a' n' ∧ a'.out = P ++ xs ∧ a'.next = t.c.next ∧ t.sched = [] ∧ t.build = b ∧ t.d = s.d := by
  intro xs
  induction xs with
  | nil =>
    intro s P E a n hbd hsc hr hs ht hin h
    have hrd : encStep b s.c = encEnd b s.c := by simp [encStep, rdSym_end hs.buffers.reader hin]
    obtain ⟨E', a', n', f1, f2, f3, f4⟩ := h.final hb (hs.counter hr) ht
    obtain ⟨k, hk, htape⟩ := encEnd_tape b s.c
    have hnext : (encEnd b s.c).next = (finalPair b s.c).next := by
      have hf := (wrPair_frame b b.stopCode 0#8 (bitlen (finalPair b s.c).next.toNat) (finalPair b s.c)).trans
        (bpFlush_frame _)
      exact hf.next
    refine ⟨(s.setC (encEnd b s.c)).setRet .nothing, E', a', n', k, ?_, ?_, hk, ?_, f2, by simpa using f4, ?_, ?_, ?_, ?_⟩
    · rw [List.length_nil, Nat.zero_add, runSteps, step_encStep hsc hr, andThen_next, hbd, hrd]; rfl
    · rfl
    · simp only [setRet_c, setC_c]; rw [htape, f1, f3]
    · simp only [setRet_c, setC_c]; rw [hnext, f3]
    · exact hsc
    · exact hbd
    · rfl
  | cons x xs ih =>
    intro s P E a n hbd hsc hr hs ht hin h
    obtain ⟨r1, r2, r3, r4, r5⟩ := rdSym_spec hb.2.2.2.2.2.2.2 hs.buffers.reader hin
    obtain ⟨k1, k2, k3⟩ := rdSym_keeps hb hs hr ht
    have hrd : encStep b s.c = encSym b x (rdSym b s.c).2 := by
      have : rdSym b s.c = (some x, (rdSym b s.c).2) := Prod.ext r1 rfl
      simp only [encStep]
      rw [this]
    obtain ⟨w1, w2, w3, w4, w5, w6, w7, w8, w9, w10, w11, _⟩ := r4.walk
    have h' : InStep b H P (rdSym b s.c).2 E a n :=
      ⟨by rw [← h.written]; simp only [outBits, w8, w9, w10], h.feeds, by rw [w4]; exact h.next, h.root,
        by rw [w5]; exact h.trie, by rw [w1]; exact h.pending⟩
    obtain ⟨E', a', n', hstep⟩ := h'.sym hb k1 k3 k2 x
    obtain ⟨e1, e2, e3⟩ := encSym_keeps hb k1 k3 k2 x
    have hin' : inSyms (encSym b x (rdSym b s.c).2) = xs := by
      have key : ∀ c, inSyms (encSym b x c) = inSyms c := by
        intro c
        cases hg : trieGet c.trie c.cur x with
        | some child => rw [encSym_match hg]; rfl
        | none =>
          rw [encSym_miss hg]
          simp only [advanceC]
          split <;> rfl
      rw [key, r2]
    obtain ⟨t, E'', a'', n'', k, g⟩ := ih (s := (s.setC (encStep b s.c)).setRet .nothing) (P := P ++ [x])
      hbd hsc (by simp [hrd, e3]) (by simp [hrd, e1]) (by simp [hrd, e2]) (by simp [hrd, hin'])
      (by simpa [hrd] using hstep)
    refine ⟨t, E'', a'', n'', k, ?_, ?_⟩
    · rw [List.length_cons, runSteps, step_encStep hsc hr, andThen_next, hbd]
      exact g.1
    · simpa using g.2

/-- Unit `D` reads back the pairs of a dictionary's bits, one step each. -/
theorem runD_feeds {b : Build} (hb : b.Admitted) {E : List Bool} {a : Dict} {n : Nat} (h : Feeds b E a n) :
    ∀ (R : List Bool) {s : State}, s.build = b → s.sched = [] → nextOpC s.c = none →
      Holds b s.d (Dict.start b) (E ++ R) →
      ∃ t, runSteps n s = .next t ∧ t.build = b ∧ t.sched = [] ∧ t.c = s.c ∧ Holds b t.d a R ∧ t.d.prot = s.d.prot := by
  induction h with
  | start => intro R s h1 h2 h3 h4; exact ⟨s, rfl, h1, h2, rfl, by simpa using h4, rfl⟩
  | pair sym h hs hv hw ih =>
    intro R s h1 h2 h3 h4
    rw [List.append_assoc] at h4
    obtain ⟨t, g1, g2, g3, g4, g5, g6⟩ := ih _ h1 h2 h3 h4
    obtain ⟨d', e1, e2, e3⟩ := g5.pair hb hs hv hw
    refine ⟨(t.setD d').setRet .nothing, ?_, g2, g3, g4, e2, e3.trans g6⟩
    rw [runSteps_add, g1, andThen_next, runSteps, step_decStep g3 (by rw [g4]; exact h3) g5.run (by rw [g2]; exact e1),
      andThen_next]
    rfl

end Sys2Proof.Machine
end

