-- ==== Sys2Proof/Laws/PerInstr.lean ====
section
/-! SUPPORT. Statements about an instruction as syntax, one lemma per constructor. -/

namespace Sys2Proof.Laws.EncodedBits

/-- The number of bits a row has on the tape (R90 to R93); an operation has none (R111). -/
def bitCount : Instr → Option Nat
  | .hdr _ _ => some 48
  | .pairData w _ _ => some (w + 8)
  | .pairStop w _ => some (w + 8)
  | .pad bits => some bits.length
  | .primBitlen _ | .primSwap16 _ | .primSwap32 _ | .primInccode _ => none
  | .bpPutbit _ | .bpWrpair _ _ _ | .bpFlush | .buGetbit | .buRdpair _ => none
  | .srRdsym | .wwWrword _ | .wwFlush => none
  | .trieCreate | .trieStep _ _ | .trieInsert _ _ _ | .trieReset => none
  | .cStart | .cSym _ | .cEnd | .cStep => none
  | .wtCreate | .wtLookup _ | .wordAppend _ _ | .wtStore _ _ | .wtReset => none
  | .dStart | .dStep | .hdrWr _ | .hdrRd => none

/-- Where the instruction has an encoding, it is as long as the spec says and is read at a place of the tape of its own; an
operation has neither (R111). -/
def Statement (i : Instr) : Prop :=
  ∀ b : Build, (encode b i).map List.length = bitCount i ∧ (ctxOf i).isSome = (bitCount i).isSome

theorem primBitlen (n : Code) : Statement (.primBitlen n) := fun _ => ⟨rfl, rfl⟩
theorem primSwap16 (v : BitVec 16) : Statement (.primSwap16 v) := fun _ => ⟨rfl, rfl⟩
theorem primSwap32 (v : BitVec 32) : Statement (.primSwap32 v) := fun _ => ⟨rfl, rfl⟩
theorem primInccode (n : Code) : Statement (.primInccode n) := fun _ => ⟨rfl, rfl⟩
theorem bpPutbit (x : Bool) : Statement (.bpPutbit x) := fun _ => ⟨rfl, rfl⟩
theorem bpWrpair (code : Code) (sym : Byte) (w : Nat) : Statement (.bpWrpair code sym w) := fun _ => ⟨rfl, rfl⟩
theorem bpFlush : Statement .bpFlush := fun _ => ⟨rfl, rfl⟩
theorem buGetbit : Statement .buGetbit := fun _ => ⟨rfl, rfl⟩
theorem buRdpair (w : Nat) : Statement (.buRdpair w) := fun _ => ⟨rfl, rfl⟩
theorem srRdsym : Statement .srRdsym := fun _ => ⟨rfl, rfl⟩
theorem wwWrword (word : Word) : Statement (.wwWrword word) := fun _ => ⟨rfl, rfl⟩
theorem wwFlush : Statement .wwFlush := fun _ => ⟨rfl, rfl⟩
theorem trieCreate : Statement .trieCreate := fun _ => ⟨rfl, rfl⟩
theorem trieStep (node : Code) (sym : Byte) : Statement (.trieStep node sym) := fun _ => ⟨rfl, rfl⟩
theorem trieInsert (node : Code) (sym : Byte) (code : Code) : Statement (.trieInsert node sym code) := fun _ => ⟨rfl, rfl⟩
theorem trieReset : Statement .trieReset := fun _ => ⟨rfl, rfl⟩
theorem cStart : Statement .cStart := fun _ => ⟨rfl, rfl⟩
theorem cSym (sym : Byte) : Statement (.cSym sym) := fun _ => ⟨rfl, rfl⟩
theorem cEnd : Statement .cEnd := fun _ => ⟨rfl, rfl⟩
theorem cStep : Statement .cStep := fun _ => ⟨rfl, rfl⟩
theorem wtCreate : Statement .wtCreate := fun _ => ⟨rfl, rfl⟩
theorem wtLookup (code : Code) : Statement (.wtLookup code) := fun _ => ⟨rfl, rfl⟩
theorem wordAppend (word : Word) (sym : Byte) : Statement (.wordAppend word sym) := fun _ => ⟨rfl, rfl⟩
theorem wtStore (code : Code) (word : Word) : Statement (.wtStore code word) := fun _ => ⟨rfl, rfl⟩
theorem wtReset : Statement .wtReset := fun _ => ⟨rfl, rfl⟩
theorem dStart : Statement .dStart := fun _ => ⟨rfl, rfl⟩
theorem dStep : Statement .dStep := fun _ => ⟨rfl, rfl⟩
theorem hdrWr (prot : BitVec 16) : Statement (.hdrWr prot) := fun _ => ⟨rfl, rfl⟩
theorem hdrRd : Statement .hdrRd := fun _ => ⟨rfl, rfl⟩
theorem hdr (magic : BitVec 32) (prot : BitVec 16) : Statement (.hdr magic prot) :=
  fun _ => ⟨by simp [encode, bitCount], rfl⟩
theorem pairData (w : Nat) (code : Code) (sym : Byte) : Statement (.pairData w code sym) :=
  fun _ => ⟨by simp [encode, bitCount], rfl⟩
theorem pairStop (w : Nat) (sym : Byte) : Statement (.pairStop w sym) := fun _ => ⟨by simp [encode, bitCount], rfl⟩
theorem pad (bits : List Bool) : Statement (.pad bits) := fun _ => ⟨rfl, rfl⟩

end Sys2Proof.Laws.EncodedBits
end

