-- ==== Sys2Proof/Tests/Slice0.lean ====
section
/-! SUPPORT. The model's own tests. Expected values come from the spec: the examples of the rules named, and the vectors of
95_test_vectors.md (V 2.x), whose instance is the build `vectors`. At the end, for each statement with hypotheses, states and
operands that meet them. -/

namespace Sys2Proof.Tests

open Sys2Proof.Machine

/-- The instance of the test vectors (95_test_vectors.md, its opening). -/
def vectors : Build :=
  { emptyCode := 0#16, stopCode := 1#16, startCode := 2#16, maxCode := 65535, magic := 0xBAADBAAC#32, blockBytes := 4096 }

/-- The instance with another block size. -/
def blocks (n : Nat) : Build := { vectors with blockBytes := n }

/-- The instance with another capacity. -/
def capacity (n : Nat) : Build := { vectors with maxCode := n }

/-- Both units after reset, in a given build. -/
def start (b : Build) : State := { State.reset with build := b }

/-- One thing seen in the next state of an outcome. -/
def see {α : Type} (f : State → α) : Host.Outcome State Fault Refusal → Option α
  | .next t => some (f t)
  | .fault _ => none
  | .refused _ => none

/-! ### WellFormed refuses -/

theorem test_wf_inccode_reserved : Instr.wf vectors (.primInccode 1#16) = false := by decide
theorem test_wf_inccode_at_max : Instr.wf vectors (.primInccode 65535#16) = false := by decide
theorem test_wf_wrpair_wide : Instr.wf vectors (.bpWrpair 0#16 0#8 17) = false := by decide
theorem test_wf_rdpair_wide : Instr.wf vectors (.buRdpair 17) = false := by decide
theorem test_wf_wrword_empty : Instr.wf vectors (.wwWrword []) = false := by decide
theorem test_wf_insert_reserved : Instr.wf vectors (.trieInsert 0#16 0#8 0#16) = false := by decide
theorem test_wf_lookup_stop : Instr.wf vectors (.wtLookup 1#16) = false := by decide
theorem test_wf_store_empty : Instr.wf vectors (.wtStore 0#16 []) = false := by decide
theorem test_wf_data_narrow : Instr.wf vectors (.pairData 1 0#16 0#8) = false := by decide
theorem test_wf_data_code_too_wide : Instr.wf vectors (.pairData 2 4#16 0#8) = false := by decide
theorem test_wf_data_is_stop : Instr.wf vectors (.pairData 2 1#16 0#8) = false := by decide
theorem test_wf_stop_wide : Instr.wf vectors (.pairStop 17 0#8) = false := by decide
theorem test_wf_stop_does_not_fit : Instr.wf { vectors with stopCode := 5#16, startCode := 6#16 } (.pairStop 2 0#8) = false := by
  decide
theorem test_wf_pad_of_a_byte : Instr.wf vectors (.pad (List.replicate 8 false)) = false := by decide

/-! ### Decoding, from bytes written out bit by bit (R90 to R93) -/

/-- R90, R174: `ac ba ad ba a4 01`. -/
theorem test_decode_header : decodeBytes vectors .header [0b10101100#8, 0b10111010#8, 0b10101101#8, 0b10111010#8,
    0b10100100#8, 0b00000001#8] = .ok (.hdr 0xBAADBAAC#32 0o644#16) [] := by decide

/-- R132: the first stream bits of `(0, 0x61, 2)` are `0 0 1 0 0 0 0 1 1 0`: bytes `84`, and the low bits `01`. -/
theorem test_decode_pair : decodeBytes vectors (.pair 2) [0b10000100#8, 0b00000101#8] =
    .ok (.pairData 2 0#16 0x61#8) [true, false, false, false, false, false] := by decide

/-- V 2.2: `WRPAIR(0xABCD, 0x12, 16)` is `cd ab 12`. -/
theorem test_decode_wide_pair : decodeBytes vectors (.pair 16) [0b11001101#8, 0b10101011#8, 0b00010010#8] =
    .ok (.pairData 16 0xABCD#16 0x12#8) [] := by decide

/-- R92: the stop pair at width 3 is `1`, then ten zeros; V 2.3 has its symbol non-zero at width 2. -/
theorem test_decode_stop : decode vectors (.pair 3) [true, false, false, false, false, false, false, false, false, false,
    false] = .ok (.pairStop 3 0#8) [] := by decide
theorem test_decode_stop_symbol : decode vectors (.pair 2) [true, false, true, true, true, true, true, true, true, true] =
    .ok (.pairStop 2 0xFF#8) [] := by decide

/-- R93, R101: pad bits of any value. -/
theorem test_decode_pad : decode vectors (.pad 4) [true, false, true, true] = .ok (.pad [true, false, true, true]) [] := by
  decide

/-- Rejections by name. -/
theorem test_decode_truncated_pair : decodeBytes vectors (.pair 2) [0x84#8] = .reject .truncated := by decide
theorem test_decode_short_header : decodeBytes vectors .header [0xAC#8] = .reject .truncated := by decide
theorem test_decode_width_outside : decode vectors (.pair 17) (List.replicate 40 false) = .reject .widthOutside := by decide
theorem test_decode_pad_too_long : decode vectors (.pad 8) (List.replicate 8 false) = .reject .padTooLong := by decide

/-- The stop pair's row of the opcode table (mask 3, match 1). -/
theorem test_table_stop : decodeTableWord 10 1 = some (.pairStop 2 0#8) := by decide

/-! ### Primitives (V 2.1) -/

theorem test_bitlen_5 : see State.ret (exec (.primBitlen 5#16) (start vectors)) = some (.width 3) := by decide
theorem test_bitlen_top : see State.ret (exec (.primBitlen 65535#16) (start vectors)) = some (.width 16) := by decide
theorem test_swap16 : see State.ret (exec (.primSwap16 0x01A4#16) (start vectors)) = some (.half 0xA401#16) := by decide
theorem test_swap32 : see State.ret (exec (.primSwap32 0xBAADBAAC#32) (start vectors)) = some (.full 0xACBAADBA#32) := by
  decide
theorem test_inccode_last : see State.ret (exec (.primInccode 65534#16) (start vectors)) = some (.inc 2#16 true) := by decide
theorem test_inccode_before_last :
    see State.ret (exec (.primInccode 65533#16) (start vectors)) = some (.inc 65534#16 false) := by decide

/-! ### Bit packer (V 2.2) -/

/-- Unit `C` with some bits in its buffer. -/
def packing (b : Build) (bytes : Memory) (idx : Nat) : State :=
  (start b).setC { CUnit.reset with bpBuf := bytes, bpIdx := idx }

/-- R130's example: after `PUTBIT(1)`, `PUTBIT(0)` leaves bit 1 clear and the index at 2. -/
theorem test_putbit : see (fun t => (t.c.bpBuf, t.c.bpIdx)) (exec (.bpPutbit false) (packing vectors [(0, 1#8)] 1)) =
    some ([(0, 1#8)], 2) := by decide

/-- R130: with `BLOCK_BYTES = 1` the eighth bit transfers the block. -/
theorem test_putbit_block : see (fun t => (t.c.byteOut, t.c.bpIdx)) (exec (.bpPutbit true) (packing (blocks 1) [(0, 4#8)] 7)) =
    some ([0x84#8], 0) := by decide

/-- R132's example. -/
theorem test_wrpair : see (fun t => (t.c.bpBuf, t.c.bpIdx)) (exec (.bpWrpair 0#16 0x61#8 2) (start vectors)) =
    some ([(0, 0x84#8), (1, 0x01#8)], 10) := by decide

/-- V 2.2: a code wider than the width. -/
theorem test_wrpair_drops : see (fun t => (t.c.bpBuf, t.c.totalBits)) (exec (.bpWrpair 7#16 0#8 2) (start vectors)) =
    some ([(0, 3#8)], 10#64) := by decide

/-- R134's example: 20 bits `84 05 x0`. -/
theorem test_flush : see (fun t => (t.c.byteOut, t.c.bpIdx))
    (exec .bpFlush (packing vectors [(0, 0x84#8), (1, 0x05#8), (2, 0xF0#8)] 20)) = some ([0x84#8, 0x05#8, 0#8], 0) := by decide
theorem test_flush_nothing : see (fun t => t.c.byteOut) (exec .bpFlush (start vectors)) = some [] := by decide

/-! ### Bit unpacker (V 2.3) -/

/-- Unit `D` with a tape to read, the header gone. -/
def reading (b : Build) (tape : List Byte) : State :=
  (start b).setD { DUnit.reset with byteIn := { bytes := tape, pos := 0 } }

theorem test_getbit : see (fun t => (t.ret, t.d.buEnd, t.d.buIdx)) (exec .buGetbit (reading (blocks 2) [0x84#8, 5#8, 0#8])) =
    some (.bit (some false), 16, 1) := by decide
theorem test_getbit_end : see State.ret (exec .buGetbit (reading vectors [])) = some (.bit none) := by decide
theorem test_rdpair : see (fun t => (t.ret, t.d.code, t.d.sym)) (exec (.buRdpair 2) (reading vectors [0x84#8, 5#8, 0#8])) =
    some (.pair true false, 0#16, 0x61#8) := by decide
theorem test_rdpair_truncated : see (fun t => (t.ret, t.d.totalBits)) (exec (.buRdpair 2) (reading vectors [0x84#8])) =
    some (.pair false true, 8#64) := by decide

/-! ### Symbol reader and word writer (V 2.4) -/

/-- Unit `C` with an input to read. -/
def feeding (b : Build) (tape : List Byte) : State :=
  (start b).setC { CUnit.reset with symIn := { bytes := tape, pos := 0 } }

theorem test_rdsym : see (fun t => (t.ret, t.c.srEnd, t.c.srIdx))
    (exec .srRdsym (feeding (blocks 4) [0x61#8, 0x62#8, 0x63#8, 0x64#8, 0x65#8])) = some (.sym (some 0x61#8), 4, 1) := by decide
theorem test_rdsym_end : see (fun t => (t.ret, t.c.totalSyms)) (exec .srRdsym (feeding vectors [])) =
    some (.sym none, 0#64) := by decide

/-- Unit `D` holding `61 62` in its writer. -/
def writing (b : Build) : State := (start b).setD { DUnit.reset with wwBuf := [(0, 0x61#8), (1, 0x62#8)], wwIdx := 2 }

theorem test_wrword : see (fun t => (t.d.wwBuf, t.d.wwIdx, t.d.symOut)) (exec (.wwWrword [0x61#8, 0x62#8]) (start (blocks 4))) =
    some ([(0, 0x61#8), (1, 0x62#8)], 2, []) := by decide
theorem test_wrword_block : see (fun t => (t.d.symOut, t.d.wwIdx, t.d.totalSyms))
    (exec (.wwWrword [0x61#8, 0x62#8, 0x63#8]) (writing (blocks 4))) =
      some ([0x61#8, 0x62#8, 0x61#8, 0x62#8], 1, 3#64) := by decide
theorem test_word_flush : see (fun t => (t.d.symOut, t.d.wwIdx)) (exec .wwFlush (writing vectors)) =
    some ([0x61#8, 0x62#8], 0) := by decide

/-! ### Trie and encoder -/

/-- Unit `C` in `RUN` at the root of a trie. -/
def walking (b : Build) (trie : TrieStore) (cur next : Code) : State :=
  (start b).setC { CUnit.reset with phase := .run, trie := trie, cur := cur, next := next }

/-- The trie `(0, 0x61) -> 2`. -/
def trieA : TrieStore := [(0x61, 2#16)]

theorem test_trie_create : see (fun t => t.c.trie) (exec .trieCreate (walking vectors trieA 0#16 3#16)) = some [] := by decide
/-- R171's example. -/
theorem test_trie_step : see State.ret (exec (.trieStep 0#16 0x61#8) (walking vectors trieA 0#16 3#16)) =
    some (.child (some 2#16)) := by decide
theorem test_trie_step_absent : see State.ret (exec (.trieStep 0#16 0x62#8) (walking vectors trieA 0#16 3#16)) =
    some (.child none) := by decide
/-- R172's example: `INSERT(2, 0x62, 4)`. -/
theorem test_trie_insert : see (fun t => (trieGet t.c.trie 2#16 0x62#8, trieGet t.c.trie 0#16 0x61#8))
    (exec (.trieInsert 2#16 0x62#8 4#16) (walking vectors trieA 0#16 4#16)) = some (some 4#16, some 2#16) := by decide
theorem test_trie_reset : see (fun t => trieGet t.c.trie 0#16 0x61#8) (exec .trieReset (walking vectors trieA 0#16 3#16)) =
    some none := by decide

/-- R174's example. -/
theorem test_c_start : see (fun t => (t.c.byteOut, t.c.next, t.c.phase)) (exec .cStart (launchC vectors [] 0o644#16)) =
    some ([0xAC#8, 0xBA#8, 0xAD#8, 0xBA#8, 0xA4#8, 0x01#8], 2#16, .run) := by decide
theorem test_c_start_needs_go : exec .cStart (start vectors) = .refused .stepNotEnabled := rfl

/-- R176's example: a miss, then a match. -/
theorem test_c_sym_miss : see (fun t => (t.c.trie, t.c.next, t.c.cur)) (exec (.cSym 0x61#8) (walking vectors [] 0#16 2#16)) =
    some (trieA, 3#16, 0#16) := by decide
theorem test_c_sym_match : see (fun t => (t.c.par, t.c.cur, t.c.bpIdx)) (exec (.cSym 0x61#8) (walking vectors trieA 0#16 3#16)) =
    some (0#16, 2#16, 0) := by decide

/-- R180's example, the end of `aa` (V 2.5: body `84 11 16 00`). -/
theorem test_c_end : see (fun t => (t.c.byteOut, t.c.next, t.c.phase)) (exec .cEnd ((start vectors).setC { CUnit.reset with
      phase := .run, trie := trieA, cur := 2#16, par := 0#16, lsym := 0x61#8, next := 3#16,
      bpBuf := [(0, 0x84#8), (1, 0x01#8)], bpIdx := 10 })) =
    some ([0x84#8, 0x11#8, 0x16#8, 0#8], 4#16, .done) := by decide +kernel

/-- V 2.5: the empty input's only pair is the stop pair at width 2. -/
theorem test_c_step_end : see (fun t => (t.c.byteOut, t.c.phase)) (exec .cStep (walking vectors [] 0#16 2#16)) =
    some ([1#8, 0#8], .done) := by decide +kernel
/-- R177: with `MAX_CODE = 3` every miss empties the trie. -/
theorem test_c_step_reset : see (fun t => (t.c.trie, t.c.next, t.c.totalSyms)) (exec .cStep ((start (capacity 3)).setC
      { CUnit.reset with phase := .run, next := 2#16, symIn := { bytes := [0x61#8], pos := 0 } })) =
    some ([], 2#16, 1#64) := by decide

/-! ### Word table and decoder -/

/-- Unit `D` in `RUN` with a table, a counter and bits to read. -/
def expanding (b : Build) (wt : WordTable) (next : Code) (tape : List Byte) : State :=
  (start b).setD { DUnit.reset with phase := .run, wt := wt, next := next, byteIn := { bytes := tape, pos := 0 } }

/-- `WT[0] = []`, `WT[2] = a`, `WT[3] = b`. -/
def tableAB : WordTable := [(0, []), (2, [0x61#8]), (3, [0x62#8])]

theorem test_wt_create : see (fun t => t.d.wt) (exec .wtCreate (expanding vectors tableAB 4#16 [])) = some [(0, [])] := by decide
/-- R191's example. -/
theorem test_wt_lookup : see State.ret (exec (.wtLookup 2#16) (expanding vectors tableAB 4#16 [])) =
    some (.word (some [0x61#8])) := by decide
/-- R192's example. -/
theorem test_word_append : see State.ret (exec (.wordAppend [0x61#8] 0x62#8) (start vectors)) =
    some (.word (some [0x61#8, 0x62#8])) := by decide
/-- R193's example. -/
theorem test_wt_store : see (fun t => storeGet t.d.wt 3) (exec (.wtStore 3#16 [0x61#8, 0x62#8]) (start vectors)) =
    some (some [0x61#8, 0x62#8]) := by decide
theorem test_wt_reset : see (fun t => storeGet t.d.wt 2) (exec .wtReset (expanding vectors tableAB 4#16 [])) = some none := by
  decide

/-- The header of the vectors. -/
def header : List Byte := [0xAC#8, 0xBA#8, 0xAD#8, 0xBA#8, 0xA4#8, 0x01#8]

/-- R198's example. -/
theorem test_d_start : see (fun t => (t.d.prot, t.d.next, t.d.phase)) (exec .dStart (launchD vectors header)) =
    some (0x01A4#16, 2#16, .run) := by decide
/-- V 2.7: a bit of the top magic byte wrong. -/
theorem test_d_start_bad_magic : see (fun t => (t.d.phase, t.d.status, t.d.prot))
    (exec .dStart (launchD vectors [0xAC#8, 0xBA#8, 0xAD#8, 0xBB#8, 0xA4#8, 0x01#8, 0x84#8, 5#8, 0#8])) =
      some (.fault, .badMagic, 0#16) := by decide

/-- R196's example: `d_next = 4`, the pair `(2, 0x62)` at width 3, its bits `0 1 0  0 1 0 0 0 1 1 0`. -/
theorem test_d_step : see (fun t => (storeGet t.d.wt 4, t.d.wwBuf, t.d.next))
    (exec .dStep (expanding vectors tableAB 4#16 [0b00010010#8, 0b00000011#8])) =
      some (some [0x61#8, 0x62#8], [(0, 0x61#8), (1, 0x62#8)], 5#16) := by decide
/-- V 2.7: `86 05 00`, the first pair's code is `d_next`. -/
theorem test_d_step_bad_code : see (fun t => (t.d.phase, statusBits t.d.status, t.d.totalBits))
    (exec .dStep (expanding vectors [(0, [])] 2#16 [0x86#8, 5#8, 0#8])) = some (.fault, 4#3, 10#64) := by decide

/-! ### Header and stream units -/

/-- R210's example. -/
theorem test_hdr_wr : see (fun t => t.c.byteOut) (exec (.hdrWr 0o644#16) (start vectors)) = some header := by decide
/-- R212's example. -/
theorem test_hdr_rd : see (fun t => (t.d.prot, t.d.byteIn.pos)) (exec .hdrRd (launchD vectors header)) =
    some (0x01A4#16, 6) := by decide
/-- V 2.7: five bytes, the magic right. -/
theorem test_hdr_rd_short : see (fun t => (t.d.phase, t.d.status)) (exec .hdrRd (launchD vectors (header.take 5))) =
    some (.fault, .hdrShort) := by decide
theorem test_hdr_unit : see (fun t => (t.d.prot, t.d.status)) (exec (.hdr 0xBAADBAAC#32 0x01A4#16) (start vectors)) =
    some (0x01A4#16, .none) := by decide
/-- R196's example as a stream unit. -/
theorem test_pair_data : see (fun t => (storeGet t.d.wt 4, t.d.next))
    (exec (.pairData 3 2#16 0x62#8) (expanding vectors tableAB 4#16 [])) = some (some [0x61#8, 0x62#8], 5#16) := by decide
/-- R197: the writer flushed, whatever the symbol. -/
theorem test_pair_stop : see (fun t => (t.d.phase, t.d.symOut, t.d.status)) (exec (.pairStop 2 0xFF#8) (writing vectors)) =
    some (.done, [0x61#8, 0x62#8], .none) := by decide
theorem test_pad : see (fun t => (t.c, t.d)) (exec (.pad [true]) (writing vectors)) =
    some ((writing vectors).c, (writing vectors).d) := by decide

/-! ### The machine -/

/-- The stop pair's table word, fetched and run right after reset. -/
theorem test_step_fetch : see (fun t => t.d.phase) (step (State.reset.withFetchWord 10 1)) = some .done := by decide
/-- R250: reset lets a unit in `FAULT` start again, and its input is rewound. -/
theorem test_step_reset : see (fun t => (t.d.phase, t.d.status, t.d.byteIn.pos))
    (step (((start vectors).setD
      { DUnit.reset with phase := .fault, status := .hdrShort, byteIn := { bytes := [1#8], pos := 1 } }).setSched
      [.host .pulseDRst])) = some (.idle, .none, 0) := by decide

/-! ### Witnesses: for each statement with hypotheses, a state and operands that meet them -/

theorem vectors_admitted : vectors.Admitted := by decide
theorem capacity_admitted : (capacity 3).Admitted := by decide
theorem blocks_admitted : (blocks 4).Admitted := by decide

/-- A system of a build whose unit `C` has its launch behind it and unit `D` too, with an input and a tape. -/
def running (b : Build) (input tape : List Byte) : State :=
  { build := b, c := encStart b (launchedC input 0o644#16), d := decStart b (launchedD tape), sched := [], ret := .nothing }

/-- A system of a build with both units launched. -/
def launched (b : Build) (input tape : List Byte) : State :=
  { build := b, c := launchedC input 0o644#16, d := launchedD tape, sched := [], ret := .nothing }

theorem launchedC_shape {b : Build} (hb : b.Admitted) (input : List Byte) : CShape b (launchedC input 0o644#16) :=
  ((pulseC_shape b hb CUnit.reset).supplied input).pins true 0o644#16

theorem launchedD_shape {b : Build} (hb : b.Admitted) (tape : List Byte) : DShape b (launchedD tape) :=
  ((pulseD_shape b hb DUnit.reset).supplied tape).pins true

theorem launched_inv {b : Build} (hb : b.Admitted) (input tape : List Byte) : Inv (launched b input tape) :=
  ⟨⟨hb, launchedC_shape hb input, launchedD_shape hb tape⟩, fun h => absurd h (by simp [launched, launchedC, CUnit.reset]),
    fun h => absurd h (by simp [launched, launchedD, DUnit.reset])⟩

theorem running_inv {b : Build} (hb : b.Admitted) (input tape : List Byte) : Inv (running b input tape) := by
  obtain ⟨c1, c2, c3⟩ := encStart_keeps hb (launchedC_shape hb input)
  obtain ⟨d1, d2⟩ := decStart_keeps hb (launchedD_shape hb tape) rfl
  exact ⟨⟨hb, c1, d1⟩, fun _ => c2, d2⟩

/-- The events to come do not bear on the invariant. -/
theorem inv_sched {s : State} (h : Inv s) (es : List Event) : Inv { s with sched := es } :=
  ⟨⟨h.shape.build, h.shape.c, h.shape.d⟩, h.trie, h.wt⟩

theorem witness_BitlenLaws : vectors.Admitted ∧ CounterOk vectors 65533#16 ∧ (incCode vectors 65533#16).2 = false := by
  refine ⟨vectors_admitted, ⟨?_, ?_⟩, ?_⟩ <;> decide

theorem witness_WidthHoldsEveryCodeOfARun : Shape (running vectors [] header) ∧
    (running vectors [] header).c.phase = .run ∧ (running vectors [] header).c.next = 2#16 ∧
    (running vectors [] header).d.phase = .run ∧ (running vectors [] header).d.next = 2#16 ∧ (1#16 : Code).toNat < 2 :=
  ⟨(running_inv vectors_admitted _ _).shape, by decide, by decide, by decide, by decide, by decide⟩

theorem witness_InccodeAdvancesOrRestarts : vectors.Admitted ∧ vectors.startCode.toNat ≤ (2#16 : Code).toNat ∧
    (2#16 : Code).toNat + 1 ≠ vectors.maxCode ∧ (65534#16 : Code).toNat < vectors.maxCode ∧
    (65534#16 : Code).toNat + 1 = vectors.maxCode := by decide

theorem witness_OperandsOutsideTheirRange : 16 < 17 ∧ (start vectors).build.maxCode ≤ (65535#16 : Code).toNat := by decide

theorem witness_PutbitAppendsOneBit : (packing vectors [] 32767).c.bpIdx + 1 = 8 * vectors.blockBytes ∧
    (packing vectors [] 32766).c.bpIdx + 1 ≠ 8 * vectors.blockBytes := by decide

theorem witness_WrpairIsItsPutbits : 16 ≤ 16 ∧ 1 ≤ (packing vectors [] 32767).build.blockBytes ∧
    (packing vectors [] 32767).c.bpIdx < 8 * (packing vectors [] 32767).build.blockBytes := by decide

theorem witness_WrpairCornerCases : (0 : Nat) ≤ 16 ∧ 16 ≤ 16 ∧ 16 < 17 := by decide

theorem witness_FlushPadsAndWrites : (start vectors).c.bpIdx = 0 ∧ 0 < (packing vectors [] 1).c.bpIdx := by decide

theorem witness_PackerTapeIsThePackedBits : (start vectors).build.Admitted ∧ (start vectors).c.byteOut = [] ∧
    (start vectors).c.bpIdx = 0 ∧ ∀ p ∈ [((0#16 : Code), (0x61#8 : Byte), 2), (0xABCD#16, 0x12#8, 16)], p.2.2 ≤ 16 := by decide

theorem witness_PackAndUnpackAgree : 7 < 8 ∧ 1 < (pack (List.replicate 9 true)).length ∧ 1 < [0x84#8, 0x01#8].length := by decide

theorem witness_GetbitDeliversOrEnds : 1 ≤ (blocks 1).blockBytes ∧
    ((running vectors [] header).d.buIdx = (running vectors [] header).d.buEnd ∧
      unread (running vectors [] header).d.byteIn = []) ∧
    ((reading (blocks 1) [1#8]).d.buIdx = (reading (blocks 1) [1#8]).d.buEnd ∧
      unread (reading (blocks 1) [1#8]).d.byteIn ≠ []) ∧
    see (fun t => decide (t.d.buIdx ≠ t.d.buEnd)) (exec .buGetbit (reading (blocks 1) [1#8])) = some true := by decide

theorem witness_RdpairReadsOneOrTruncates : Shape (launched vectors [] [0xCD#8, 0xAB#8, 0x12#8]) ∧ 16 ≤ 16 ∧
    16 + 8 ≤ (inBits (launched vectors [] [0xCD#8, 0xAB#8, 0x12#8]).d).length ∧
    Shape (launched vectors [] [0x84#8]) ∧ (inBits (launched vectors [] [0x84#8]).d).length < 2 + 8 :=
  ⟨(launched_inv vectors_admitted _ _).shape, by decide, by decide, (launched_inv vectors_admitted _ _).shape, by decide⟩

theorem witness_RdsymDeliversOrEnds : 1 ≤ (blocks 1).blockBytes ∧
    ((start vectors).c.srIdx = (start vectors).c.srEnd ∧ unread (start vectors).c.symIn = []) ∧
    ((feeding (blocks 1) [0#8]).c.srIdx = (feeding (blocks 1) [0#8]).c.srEnd ∧
      unread (feeding (blocks 1) [0#8]).c.symIn ≠ []) ∧
    see (fun t => decide (t.c.srIdx ≠ t.c.srEnd)) (exec .srRdsym (feeding (blocks 2) [0#8, 1#8])) = some true := by decide

theorem witness_WrwordWritesItsBytes : (writing (blocks 3)).d.wwIdx + 1 = (blocks 3).blockBytes ∧
    (writing (blocks 4)).d.wwIdx + 1 ≠ (blocks 4).blockBytes ∧ (writing (blocks 3)).d.wwIdx < (blocks 3).blockBytes := by decide

theorem witness_WordFlushWritesTheBuffer : (start vectors).d.wwIdx = 0 ∧ 0 < (writing vectors).d.wwIdx := by decide

theorem witness_WriterTapeIsTheWords : 1 ≤ (start (blocks 1)).build.blockBytes ∧ (start (blocks 1)).d.symOut = [] ∧
    (start (blocks 1)).d.wwIdx = 0 := by decide

theorem witness_DictionaryWritesAreSeenAtOnce : (65534#16 : Code).toNat < (start vectors).build.maxCode := by decide

theorem witness_CStartLaunchesTheEncoder : (launched vectors [] []).c.phase = .idle ∧ (launched vectors [] []).c.go = true := by
  decide

theorem witness_CSymWalksOrEmits : trieGet (walking vectors trieA 0#16 3#16).c.trie 0#16 0x61#8 = some 2#16 ∧
    trieGet (walking vectors trieA 0#16 65534#16).c.trie 0#16 0x62#8 = none ∧ vectors.Admitted ∧
    CounterOk vectors 65534#16 ∧ (65534#16 : Code).toNat + 1 = vectors.maxCode ∧ CounterOk vectors 65533#16 ∧
    (65533#16 : Code).toNat + 1 < vectors.maxCode := by
  refine ⟨?_, ?_, ?_, ⟨?_, ?_⟩, ?_, ⟨?_, ?_⟩, ?_⟩ <;> decide

theorem witness_CEndClosesTheStream : vectors.Admitted ∧ CounterOk vectors 65534#16 ∧ CounterOk vectors 3#16 ∧
    (walking vectors trieA 0#16 3#16).c.cur = vectors.emptyCode ∧
    (walking vectors trieA 2#16 65534#16).c.cur ≠ vectors.emptyCode ∧ (65534#16 : Code).toNat + 1 = vectors.maxCode ∧
    (3#16 : Code).toNat + 1 < vectors.maxCode := by
  refine ⟨?_, ⟨?_, ?_⟩, ⟨?_, ?_⟩, ?_, ?_, ?_, ?_⟩ <;> decide

theorem witness_CStepIsSymOrEnd : (running vectors [0x61#8] []).c.phase = .run := by decide

theorem witness_EveryRunEnds : vectors.Admitted ∧ 1 ≤ 1 ∧ 1 < ([] : List Byte).length + 2 := by decide

theorem witness_WtLookupAppendStore : (65534#16 : Code).toNat < (start vectors).build.maxCode ∧
    Inv (running vectors [] header) ∧ (running vectors [] header).d.phase = .run ∧
    ValidCode vectors (running vectors [] header).d.next 0#16 :=
  ⟨by decide, running_inv vectors_admitted _ _, by decide, Or.inl rfl⟩

theorem witness_DStartLaunchesTheDecoder : (launched vectors [] header).d.phase = .idle ∧ (launched vectors [] header).d.go = true ∧
    see (fun u => u.d.phase) (exec .hdrRd (launched vectors [] header)) = some .idle ∧
    see (fun u => u.d.phase) (exec .hdrRd (launched vectors [] [])) = some .fault := by decide

theorem witness_HdrRdAcceptsOrRaises :
    unread (launched vectors [] header).d.byteIn = [0xAC#8, 0xBA#8, 0xAD#8, 0xBA#8, 0xA4#8, 0x01#8] ∧
    (0xAC#8 : Byte).toNat + 2 ^ 8 * (0xBA#8 : Byte).toNat + 2 ^ 16 * (0xAD#8 : Byte).toNat +
      2 ^ 24 * (0xBA#8 : Byte).toNat = vectors.magic.toNat ∧
    (0xAD#8 : Byte).toNat + 2 ^ 8 * (0xBA#8 : Byte).toNat + 2 ^ 16 * (0xAD#8 : Byte).toNat +
      2 ^ 24 * (0xBA#8 : Byte).toNat ≠ vectors.magic.toNat ∧
    (unread (launched vectors [] (header.take 5)).d.byteIn).length < 6 := by decide

/-- The tape of the vectors' `a`. -/
def tapeA : List Byte := header ++ [0x84#8, 0x05#8, 0x00#8]

theorem witness_DStepExpandsADataPair : Inv (running vectors [] tapeA) ∧ (running vectors [] tapeA).d.phase = .run ∧
    2 = bitlen (running vectors [] tapeA).d.next.toNat ∧ 2 + 8 ≤ (inBits (running vectors [] tapeA).d).length ∧
    0#16 = nextCode (running vectors [] tapeA).d 2 ∧ 0x61#8 = nextSym (running vectors [] tapeA).d 2 ∧
    0#16 ≠ vectors.stopCode ∧ ValidCode vectors (running vectors [] tapeA).d.next 0#16 ∧
    (running vectors [] tapeA).d.next.toNat + 1 < vectors.maxCode :=
  ⟨running_inv vectors_admitted _ _, by decide, by decide, by decide, by decide, by decide, by decide, Or.inl rfl, by decide⟩

theorem witness_DStepExpandsADataPair_reset : Inv (running (capacity 3) [] tapeA) ∧
    (running (capacity 3) [] tapeA).d.phase = .run ∧ 2 = bitlen (running (capacity 3) [] tapeA).d.next.toNat ∧
    2 + 8 ≤ (inBits (running (capacity 3) [] tapeA).d).length ∧ 0#16 = nextCode (running (capacity 3) [] tapeA).d 2 ∧
    0#16 ≠ (capacity 3).stopCode ∧ ValidCode (capacity 3) (running (capacity 3) [] tapeA).d.next 0#16 ∧
    (running (capacity 3) [] tapeA).d.next.toNat + 1 = (capacity 3).maxCode :=
  ⟨running_inv capacity_admitted _ _, by decide, by decide, by decide, by decide, by decide, Or.inl rfl, by decide⟩

theorem witness_DStepEndsOnTheStopPair : Inv (running vectors [] (header ++ [0x01#8, 0xFF#8])) ∧
    (running vectors [] (header ++ [0x01#8, 0xFF#8])).d.phase = .run ∧
    2 = bitlen (running vectors [] (header ++ [0x01#8, 0xFF#8])).d.next.toNat ∧
    2 + 8 ≤ (inBits (running vectors [] (header ++ [0x01#8, 0xFF#8])).d).length ∧
    nextCode (running vectors [] (header ++ [0x01#8, 0xFF#8])).d 2 = vectors.stopCode :=
  ⟨running_inv vectors_admitted _ _, by decide, by decide, by decide, by decide⟩

theorem witness_DStepRaisesOnCorruption :
    (Inv (running vectors [] header) ∧ (running vectors [] header).d.phase = .run ∧
      2 = bitlen (running vectors [] header).d.next.toNat ∧ (inBits (running vectors [] header).d).length < 2 + 8) ∧
    (Inv (running vectors [] (header ++ [0x86#8, 0x05#8])) ∧
      2 + 8 ≤ (inBits (running vectors [] (header ++ [0x86#8, 0x05#8])).d).length ∧
      nextCode (running vectors [] (header ++ [0x86#8, 0x05#8])).d 2 = 2#16 ∧ 2#16 ≠ vectors.stopCode ∧
      ¬ ValidCode vectors (running vectors [] (header ++ [0x86#8, 0x05#8])).d.next 2#16) :=
  ⟨⟨running_inv vectors_admitted _ _, by decide, by decide, by decide⟩,
    running_inv vectors_admitted _ _, by decide, by decide, by decide, by unfold ValidCode; decide⟩

/-- One form and state for each clause: `HDR.RD` and `D.START` on an empty tape, `D.STEP` on a tape that ends after the header
and on a code that names no slot, the two stream units. -/
theorem witness_FaultEntryChangesNothingElse :
    see (fun t => t.d.phase) (exec .hdrRd (launched vectors [] [])) = some .fault ∧
    see (fun t => t.d.phase) (exec .dStart (launched vectors [] [])) = some .fault ∧
    (launched vectors [] []).d.phase ≠ .fault ∧
    see (fun t => t.d.phase) (exec .dStep (running vectors [] header)) = some .fault ∧
    see (fun t => t.d.phase) (exec .dStep (running vectors [] (header ++ [0x86#8, 0x05#8]))) = some .fault ∧
    see (fun t => t.d.phase) (exec (.pairData 2 2#16 0x61#8) (running vectors [] header)) = some .fault ∧
    see (fun t => t.d.phase) (exec (.hdr 0xBAADBAAD#32 0#16) (running vectors [] header)) = some .fault ∧
    (running vectors [] header).d.phase ≠ .fault ∧
    (running vectors [] (header ++ [0x86#8, 0x05#8])).d.phase ≠ .fault := by decide

theorem witness_UnitCNeverFaults : ∃ t, exec .cEnd (running vectors [] []) = .next t ∧
    (running vectors [] []).c.phase ≠ .fault ∧ (running vectors [] []).c.status = .none ∧
    (running vectors [] []).d.status ≠ .oom := ⟨_, rfl, by decide, by decide, by decide⟩

theorem witness_HeaderRoundTrip : ∃ t s' : State, exec (.hdrWr 0xFFFF#16) (start vectors) = .next t ∧
    (start vectors).c.byteOut = [] ∧ s'.build = (start vectors).build ∧
    s'.d.byteIn = { bytes := t.c.byteOut, pos := 0 } := ⟨_, launchD vectors _, rfl, rfl, rfl, rfl⟩

theorem witness_HeaderUnitIsChecked : 0xBAADBAAC#32 = (start vectors).build.magic ∧
    0xBAADBAAD#32 ≠ (start vectors).build.magic := by decide

theorem witness_PairUnitsTakeEffect : vectors.Admitted ∧ CounterOk vectors 4#16 ∧
    (expanding vectors tableAB 4#16 []).d.next = 4#16 ∧ ValidCode vectors 4#16 3#16 ∧
    storeGet (expanding vectors tableAB 4#16 []).d.wt 3 = some [0x62#8] ∧ (4#16 : Code).toNat + 1 < vectors.maxCode ∧
    ¬ ValidCode vectors 4#16 4#16 ∧ CounterOk (capacity 5) 4#16 ∧ (4#16 : Code).toNat + 1 = (capacity 5).maxCode := by
  refine ⟨?_, ⟨?_, ?_⟩, ?_, Or.inr ?_, ?_, ?_, ?_, ⟨?_, ?_⟩, ?_⟩ <;> (try unfold ValidCode) <;> decide

theorem witness_StepRunsTheDecodedUnit_pair : Inv { running vectors [] tapeA with sched := [.turn .d] } ∧
    (running vectors [] tapeA).d.phase = .run ∧
    decode vectors (.pair (bitlen (running vectors [] tapeA).d.next.toNat)) (inBits (running vectors [] tapeA).d) =
      .ok (.pairData 2 0#16 0x61#8) ((inBits (running vectors [] tapeA).d).drop 10) :=
  ⟨inv_sched (running_inv vectors_admitted _ _) _, by decide, by decide⟩

theorem witness_StepRunsTheDecodedUnit_truncated : Inv { running vectors [] header with sched := [.turn .d] } ∧
    (running vectors [] header).d.phase = .run ∧
    decode vectors (.pair (bitlen (running vectors [] header).d.next.toNat)) (inBits (running vectors [] header).d) =
      .reject .truncated :=
  ⟨inv_sched (running_inv vectors_admitted _ _) _, by decide, by decide⟩

theorem witness_StepRunsTheDecodedUnit_header : Inv { launched vectors [] header with sched := [.turn .d] } ∧
    (launched vectors [] header).d.phase = .idle ∧ (launched vectors [] header).d.go = true ∧
    decode vectors .header (unpack (unread (launched vectors [] header).d.byteIn)) =
      .ok (.hdr 0xBAADBAAC#32 0x01A4#16) [] ∧
    decode vectors .header (unpack (unread (launched vectors [] []).d.byteIn)) = .reject .truncated :=
  ⟨inv_sched (launched_inv vectors_admitted _ _) _, by decide, by decide, by decide, by decide⟩

theorem witness_DecodeGivesBackTheEncodedUnit : Instr.wf vectors (.pairData 16 65535#16 0xFF#8) = true ∧
    (encode vectors (.pairData 16 65535#16 0xFF#8)).isSome = true ∧
    ctxOf (.pairData 16 65535#16 0xFF#8) = some (.pair 16) ∧ Instr.wf vectors (.pairStop 2 0xFF#8) = true ∧
    Instr.wf vectors (.pad (List.replicate 7 true)) = true ∧ Instr.wf vectors (.hdr 0#32 0xFFFF#16) = true := by decide

theorem witness_DecodedUnitEncodesBack : decode vectors (.pad 0) [true] = .ok (.pad []) [true] := by decide

theorem witness_StepRunsTheEnabledAgent :
    ((launched vectors [] []).c.phase = .idle ∧ (launched vectors [] []).c.go = true ∧
      (launched vectors [] []).d.phase = .idle ∧ (launched vectors [] []).d.go = true) ∧
    ((running vectors [] header).c.phase = .run ∧ (running vectors [] header).d.phase = .run) ∧
    (¬((start vectors).c.phase = .idle ∧ (start vectors).c.go = true) ∧ (start vectors).c.phase ≠ .run ∧
      ¬((start vectors).d.phase = .idle ∧ (start vectors).d.go = true) ∧ (start vectors).d.phase ≠ .run ∧
      (start vectors).sched = []) := by decide

theorem witness_HostMovesKeepTheContract :
    ((start vectors).c.phase = .idle ∧ (start vectors).c.go = false ∧ (start vectors).d.phase = .idle ∧
      (start vectors).d.go = false ∧ (start vectors).c.phase ≠ .done) ∧
    ((launched vectors [] []).c.phase = .idle ∧ (launched vectors [] []).c.go = true ∧
      ¬((launched vectors [] []).d.phase = .idle ∧ (launched vectors [] []).d.go = false)) ∧
    see (fun t => t.c.phase) (exec .cEnd (running vectors [] [])) = some .done := by decide +kernel

theorem witness_ResetPulseTouchesOneUnit :
    ({ running vectors [] [] with sched := [.host .pulseCRst] } : State).sched = .host .pulseCRst :: [] ∧
    ({ running vectors [] [] with sched := [.host .pulseDRst] } : State).sched = .host .pulseDRst :: [] := by decide

theorem witness_OnlyResetLeavesTheEndOfARun :
    ∃ t, step ({ running vectors [] [] with sched := [.turn .d] } : State) = .next t ∧
      (running vectors [] []).d.phase = .fault ∧ t.d.phase = .fault := ⟨_, rfl, by decide, by decide⟩

theorem witness_OperationsTouchOneUnit : ∃ t, exec .cStep (running vectors [] []) = .next t := ⟨_, rfl⟩

theorem witness_OnlyTheNamedOperationsWrite : ∃ t, exec (.wwWrword [0#8]) (running vectors [] []) = .next t := ⟨_, rfl⟩

theorem witness_AgentsCommute : Inv (running vectors [0x61#8] tapeA) := running_inv vectors_admitted _ _

theorem witness_StepKeepsTheRanges : ∃ t, Inv (running vectors [0x61#8] tapeA) ∧
    step (running vectors [0x61#8] tapeA) = .next t := ⟨_, running_inv vectors_admitted _ _, rfl⟩

theorem witness_StepKeepsTheTrieInvariants : ∃ t, Inv (running vectors [0x61#8] tapeA) ∧
    step (running vectors [0x61#8] tapeA) = .next t ∧ t.c.phase = .run :=
  ⟨_, running_inv vectors_admitted _ _, rfl, by decide⟩

theorem witness_StepKeepsTheWordTableInvariants : ∃ t, Inv { running vectors [] tapeA with sched := [.turn .d] } ∧
    step { running vectors [] tapeA with sched := [.turn .d] } = .next t ∧ t.d.phase = .run :=
  ⟨_, inv_sched (running_inv vectors_admitted _ _) _, rfl, by decide⟩

theorem witness_ResetMeetsTheInvariant : vectors.Admitted ∧ (capacity 3).Admitted := by decide

theorem witness_OnlyTheHostIsRefused : Inv { launched vectors [] [] with sched := [.host .setCGo] } :=
  inv_sched (launched_inv vectors_admitted _ _) _

theorem witness_DecodingTheEncodedInputGivesItBack : vectors.Admitted ∧ (blocks 1).Admitted := by decide

/-- V 2.5: the empty input's tape. -/
theorem witness_TruncationIsDetected : vectors.Admitted ∧ Encodes vectors [] 0o644#16 (header ++ [0x01#8, 0x00#8]) :=
  ⟨vectors_admitted, _, rfl, by decide +kernel, by decide +kernel⟩

theorem witness_BlockSizeIsNotObservable : vectors.Admitted ∧ 1 ≤ 1 := by decide

theorem witness_UnspecifiedStateIsNeverRead : ∃ t, vectors.Admitted ∧
    runSteps 1 { build := vectors, sched := [], ret := .nothing,
                 c := { (encStart vectors CUnit.reset).resetFrom with go := true, protPin := 0#16,
                                                                      symIn := { bytes := [], pos := 0 } },
                 d := { (decStart vectors DUnit.reset).resetFrom with go := true,
                                                                      byteIn := { bytes := [], pos := 0 } } } = .next t :=
  ⟨_, vectors_admitted, rfl⟩

end Sys2Proof.Tests
end

section
/-! Whose step a turn runs, and what it makes of the agent's own unit (R9, R174, R175, R196, R198; log 7, 14). -/

namespace Sys2Proof.Machine

/-! ### The enabled agent step, by phase and `go` -/

theorem nextOpC_eq_cStart {c : CUnit} (hi : c.phase = .idle) (hg : c.go = true) : nextOpC c = some .cStart := by
  simp [nextOpC, cStartEnabled_iff.2 ⟨hi, hg⟩]

theorem nextOpC_eq_cStep {c : CUnit} (hr : c.phase = .run) : nextOpC c = some .cStep := by
  simp [nextOpC, cStartEnabled_iff, cStepEnabled_iff, hr]

theorem nextOpC_eq_none {c : CUnit} (hs : ¬(c.phase = .idle ∧ c.go = true)) (hr : c.phase ≠ .run) :
    nextOpC c = none := by
  simp only [nextOpC, cStartEnabled_iff, cStepEnabled_iff, if_neg hs, if_neg hr]

theorem nextOpD_eq_dStart {d : DUnit} (hi : d.phase = .idle) (hg : d.go = true) : nextOpD d = some .dStart := by
  simp [nextOpD, dStartEnabled_iff.2 ⟨hi, hg⟩]

theorem nextOpD_eq_dStep {d : DUnit} (hr : d.phase = .run) : nextOpD d = some .dStep := by
  simp [nextOpD, dStartEnabled_iff, dStepEnabled_iff, hr]

theorem nextOpD_eq_none {d : DUnit} (hs : ¬(d.phase = .idle ∧ d.go = true)) (hr : d.phase ≠ .run) :
    nextOpD d = none := by
  simp only [nextOpD, dStartEnabled_iff, dStepEnabled_iff, if_neg hs, if_neg hr]

/-- The default order asks unit `C` first (log 7). -/
theorem defaultOp_of_nextOpC_some {s : State} {i : Instr} (h : nextOpC s.c = some i) : defaultOp s = some i := by
  simp only [defaultOp, nextOp, h]

theorem defaultOp_of_nextOpC_none {s : State} (h : nextOpC s.c = none) : defaultOp s = nextOpD s.d := by
  simp only [defaultOp, nextOp, h]

/-! ### The step taken, by the first event -/

theorem step_of_no_event {s : State} (h : s.sched = []) : step s = runOp (defaultOp s) s := by
  simp only [step, h]

theorem step_of_turn_c {s : State} {es : List Event} (h : s.sched = .turn .c :: es) :
    step s = runOp (nextOpC s.c) (s.setSched es) := by
  simp only [step, h, nextOp, popEvent, List.tail_cons]

theorem step_of_turn_d {s : State} {es : List Event} (h : s.sched = .turn .d :: es) :
    step s = runOp (nextOpD s.d) (s.setSched es) := by
  simp only [step, h, nextOp, popEvent, List.tail_cons]

/-! ### An agent step as an instruction: its effect where it is enabled, its refusal elsewhere (log 14) -/

theorem exec_cStart_of_enabled {s : State} (h : cStartEnabled s.c = true) :
    exec .cStart s = .next ((s.setC (encStart s.build s.c)).setRet .nothing) := by
  simp [exec, execCStart, h]

theorem exec_cStep_of_enabled {s : State} (h : cStepEnabled s.c = true) :
    exec .cStep s = .next ((s.setC (encStep s.build s.c)).setRet .nothing) := by
  simp [exec, execCStep, h]

theorem exec_dStart_of_enabled {s : State} (h : dStartEnabled s.d = true) :
    exec .dStart s = .next ((s.setD (decStart s.build s.d)).setRet .nothing) := by
  simp [exec, execDStart, h]

theorem exec_dStep_of_enabled {s : State} (h : dStepEnabled s.d = true) :
    exec .dStep s = andThen (decStep s.build s.d) (fun d => .next ((s.setD d).setRet .nothing)) := by
  simp [exec, execDStep, h]

theorem exec_cStart_refused {s : State} (h : ¬(s.c.phase = .idle ∧ s.c.go = true)) :
    exec .cStart s = .refused .stepNotEnabled :=
  if_neg (mt cStartEnabled_iff.1 h)

theorem exec_cStep_refused {s : State} (h : s.c.phase ≠ .run) : exec .cStep s = .refused .stepNotEnabled :=
  if_neg (mt cStepEnabled_iff.1 h)

theorem exec_dStart_refused {s : State} (h : ¬(s.d.phase = .idle ∧ s.d.go = true)) :
    exec .dStart s = .refused .stepNotEnabled :=
  if_neg (mt dStartEnabled_iff.1 h)

theorem exec_dStep_refused {s : State} (h : s.d.phase ≠ .run) : exec .dStep s = .refused .stepNotEnabled :=
  if_neg (mt dStepEnabled_iff.1 h)

/-! ### A turn as a function of the agent's own unit -/

/-- Unit `C` after a turn of its own. -/
def turnC (b : Build) (c : CUnit) : CUnit :=
  if cStartEnabled c then encStart b c else if cStepEnabled c then encStep b c else c

/-- Unit `D` after a turn of its own. -/
def turnD (b : Build) (d : DUnit) : Host.Outcome DUnit Fault Refusal :=
  if dStartEnabled d then .next (decStart b d) else if dStepEnabled d then decStep b d else .next d

/-- A turn of `C` reads and writes unit `C` alone; only the returned result depends on which step it was. -/
theorem step_turn_c {s : State} {es : List Event} (hs : s.sched = .turn .c :: es) :
    ∃ r, step s = .next (((s.setC (turnC s.build s.c)).setSched es).setRet r) := by
  rw [step_of_turn_c hs, nextOpC, turnC]
  split
  case isTrue h => exact ⟨.nothing, exec_cStart_of_enabled h⟩
  case isFalse =>
    split
    case isTrue h => exact ⟨.nothing, exec_cStep_of_enabled h⟩
    case isFalse => exact ⟨s.ret, rfl⟩

/-- A turn of `D` that goes on reads and writes unit `D` alone; only the returned result depends on which step it was. -/
theorem step_turn_d {s : State} {es : List Event} {d' : DUnit} (hs : s.sched = .turn .d :: es)
    (hd : turnD s.build s.d = .next d') : ∃ r, step s = .next (((s.setD d').setSched es).setRet r) := by
  rw [turnD] at hd
  rw [step_of_turn_d hs, nextOpD]
  split at hd
  case isTrue h =>
    cases hd
    rw [if_pos h]
    exact ⟨.nothing, exec_dStart_of_enabled h⟩
  case isFalse h =>
    rw [if_neg h]
    split at hd
    case isTrue h' =>
      rw [if_pos h', runOp_some, exec_dStep_of_enabled (s := s.setSched es) h', setSched_build, setSched_d, hd]
      exact ⟨.nothing, rfl⟩
    case isFalse h' =>
      cases hd
      rw [if_neg h']
      exact ⟨s.ret, rfl⟩

/-- Under the invariant a turn of `D` meets no fault of the model (R32, R265). -/
theorem turnD_goes_on {s : State} (h : Inv s) : ∃ d', turnD s.build s.d = .next d' := by
  rw [turnD]
  split
  case isTrue => exact ⟨_, rfl⟩
  case isFalse =>
    split
    case isTrue hr =>
      have hrun := dStepEnabled_iff.1 hr
      obtain ⟨d', hd', _⟩ := decStep_keeps h.shape.build h.shape.d hrun (h.wt hrun)
      exact ⟨d', hd'⟩
    case isFalse => exact ⟨_, rfl⟩

theorem runSteps_two {s s₁ s₂ : State} (h₁ : step s = .next s₁) (h₂ : step s₁ = .next s₂) :
    runSteps 2 s = .next s₂ := by
  simp only [runSteps, h₁, h₂, andThen_next]

/-- A turn of `C` then one of `D`: each unit makes its own turn. -/
theorem runSteps_turn_c_turn_d {s : State} {d' : DUnit} (hd : turnD s.build s.d = .next d') :
    ∃ r, runSteps 2 (s.setSched [.turn .c, .turn .d]) =
      .next { build := s.build, c := turnC s.build s.c, d := d', sched := [], ret := r } := by
  obtain ⟨r₁, h₁⟩ := step_turn_c (s := s.setSched [.turn .c, .turn .d]) rfl
  obtain ⟨r₂, h₂⟩ := step_turn_d
    (s := ((s.setC (turnC s.build s.c)).setSched [.turn .d]).setRet r₁) rfl hd
  exact ⟨r₂, runSteps_two h₁ h₂⟩

/-- A turn of `D` then one of `C`: each unit makes its own turn. -/
theorem runSteps_turn_d_turn_c {s : State} {d' : DUnit} (hd : turnD s.build s.d = .next d') :
    ∃ r, runSteps 2 (s.setSched [.turn .d, .turn .c]) =
      .next { build := s.build, c := turnC s.build s.c, d := d', sched := [], ret := r } := by
  obtain ⟨r₁, h₁⟩ := step_turn_d (s := s.setSched [.turn .d, .turn .c]) rfl hd
  obtain ⟨r₂, h₂⟩ := step_turn_c (s := ((s.setD d').setSched [.turn .c]).setRet r₁) rfl
  exact ⟨r₂, runSteps_two h₁ h₂⟩

/-- Settles O51: in either order each unit makes its own turn, a function of that unit and the build alone. -/
theorem agentsCommute : Obligations.AgentsCommute := by
  intro s hinv
  obtain ⟨d', hd⟩ := turnD_goes_on hinv
  obtain ⟨r, hcd⟩ := runSteps_turn_c_turn_d hd
  obtain ⟨r', hdc⟩ := runSteps_turn_d_turn_c hd
  exact ⟨_, _, hcd, hdc, rfl, rfl, rfl, rfl, rfl⟩

/-! ### A step, from the operation enabled -/

theorem step_of_nextOpC {s : State} {i : Instr} (h : nextOpC s.c = some i) (es : List Event) :
    (s.sched = .turn .c :: es → step s = exec i (s.setSched es)) ∧ (s.sched = [] → step s = exec i s) :=
  ⟨fun hs => by rw [step_of_turn_c hs, h, runOp_some],
    fun hs => by rw [step_of_no_event hs, defaultOp_of_nextOpC_some h, runOp_some]⟩

theorem step_turn_c_of_none {s : State} (h : nextOpC s.c = none) {es : List Event} (hs : s.sched = .turn .c :: es) :
    step s = .next (s.setSched es) := by
  rw [step_of_turn_c hs, h, runOp_none]

theorem step_turn_d_of_some {s : State} {i : Instr} (h : nextOpD s.d = some i) {es : List Event}
    (hs : s.sched = .turn .d :: es) : step s = exec i (s.setSched es) := by
  rw [step_of_turn_d hs, h, runOp_some]

theorem step_turn_d_of_none {s : State} (h : nextOpD s.d = none) {es : List Event} (hs : s.sched = .turn .d :: es) :
    step s = .next (s.setSched es) := by
  rw [step_of_turn_d hs, h, runOp_none]

/-- With no event left and unit `C` at rest, unit `D` moves (log 7). -/
theorem step_default_of_nextOpC_none {s : State} (h : nextOpC s.c = none) (hs : s.sched = []) :
    step s = runOp (nextOpD s.d) s := by
  rw [step_of_no_event hs, defaultOp_of_nextOpC_none h]

/-- Settles O44: clause by clause, the operation the phase and `go` enable, and the step or refusal that follows. -/
theorem stepRunsTheEnabledAgent : Obligations.StepRunsTheEnabledAgent := by
  intro s es
  refine ⟨fun hi hg => step_of_nextOpC (nextOpC_eq_cStart hi hg) es, fun hr => step_of_nextOpC (nextOpC_eq_cStep hr) es,
    exec_cStart_refused, exec_cStep_refused, ?cRests,
    fun hi hg => step_turn_d_of_some (nextOpD_eq_dStart hi hg), fun hr => step_turn_d_of_some (nextOpD_eq_dStep hr),
    exec_dStart_refused, exec_dStep_refused, fun hns hnr => step_turn_d_of_none (nextOpD_eq_none hns hnr)⟩
  case cRests =>
    intro hns hnr
    have hc := nextOpC_eq_none hns hnr
    refine ⟨step_turn_c_of_none hc, fun he hi hg => ?_, fun he hr => ?_, fun he hns' hnr' => ?_⟩
    · rw [step_default_of_nextOpC_none hc he, nextOpD_eq_dStart hi hg, runOp_some]
    · rw [step_default_of_nextOpC_none hc he, nextOpD_eq_dStep hr, runOp_some]
    · rw [step_default_of_nextOpC_none hc he, nextOpD_eq_none hns' hnr', runOp_none]

end Sys2Proof.Machine
end

section
/-! Every step keeps the invariant (R23 to R36, R25, R32), and reset meets it (R43). -/

namespace Sys2Proof.Machine

/-! ### Reset -/

theorem config_build_admitted : Config.build.Admitted := by decide

/-- Reset is where a pulse of both units leads. -/
theorem inv_reset {b : Build} (hb : b.Admitted) : Inv { State.reset with build := b } where
  shape := ⟨hb, pulseC_shape b hb CUnit.reset, pulseD_shape b hb DUnit.reset⟩
  trie := fun h => nomatch h
  wt := fun h => nomatch h

/-- Settles O55: the spec's own build is admitted, so the second half covers it. -/
theorem resetMeetsTheInvariant : Obligations.ResetMeetsTheInvariant :=
  ⟨inv_reset config_build_admitted, fun _ => inv_reset⟩

/-- Settles O46: the fields of the two reset records. -/
theorem resetLeavesTheTablesValues : Obligations.ResetLeavesTheTablesValues := by
  constructor
  · rintro _ rfl
    exact ⟨rfl, rfl, rfl, rfl, rfl, rfl, rfl, rfl, rfl⟩
  · rintro _ rfl
    exact ⟨rfl, rfl, rfl, rfl, rfl, rfl, rfl, rfl, rfl, rfl⟩

/-! ### Every step keeps the invariant -/

/-- The invariant, unit by unit. -/
theorem inv_of_units {s : State} (hb : s.build.Admitted)
    (hc : CShape s.build s.c ∧ (s.c.phase = .run → TrieInv s.build s.c))
    (hd : DShape s.build s.d ∧ (s.d.phase = .run → WtInv s.build s.d)) : Inv s :=
  ⟨⟨hb, hc.1, hd.1⟩, hc.2, hd.2⟩

/-- An agent step keeps the invariant: its own unit's by the driver's lemma, the other unit is as it was. -/
theorem AgentMove.keeps_inv {s t : State} {o : Host.Outcome (CUnit × DUnit) Fault Refusal} (hs : Inv s)
    (ho : AgentMove s.build s.c s.d o) (ht : settle (popEvent s) o = .next t) : Inv t := by
  obtain ⟨⟨hb, hc, hd⟩, htrie, hwt⟩ := hs
  cases ho with
  | cStart hi hg =>
    cases ht
    obtain ⟨h1, h2, _⟩ := encStart_keeps hb hc
    exact inv_of_units hb ⟨h1, fun _ => h2⟩ ⟨hd, hwt⟩
  | cStep hr =>
    cases ht
    exact inv_of_units hb (encStep_keeps hb hc hr (htrie hr)) ⟨hd, hwt⟩
  | dStart hi hg =>
    cases ht
    exact inv_of_units hb ⟨hc, htrie⟩ (decStart_keeps hb hd hi)
  | dStep hr =>
    obtain ⟨d', hd', hkeeps⟩ := decStep_keeps hb hd hr (hwt hr)
    rw [hd', andThen_next] at ht
    cases ht
    exact inv_of_units hb ⟨hc, htrie⟩ hkeeps

/-- A host move that goes on keeps the invariant. -/
theorem hostStep_keeps_inv {m : HostMove} {s t : State} (hs : Inv s) (ht : hostStep m s = .next t) : Inv t := by
  obtain ⟨⟨hb, hc, hd⟩, htrie, hwt⟩ := hs
  obtain ⟨hbuild, _, _, hC, hD, _⟩ := hostStep_cases ht
  apply inv_of_units <;> rw [hbuild]
  · exact hb
  · exact hC.keeps hb hc htrie
  · exact hD.keeps hb hd hwt

/-- Popping an event touches nothing the invariant speaks of. -/
theorem inv_popEvent {s : State} (hs : Inv s) : Inv (popEvent s) :=
  inv_of_units hs.shape.build ⟨hs.shape.c, hs.trie⟩ ⟨hs.shape.d, hs.wt⟩

theorem step_keeps_inv {s t : State} (hs : Inv s) (ht : step s = .next t) : Inv t := by
  rcases step_cases s with ⟨h, _⟩ | ⟨o, ho, h⟩ | ⟨m, es, _, h⟩ <;> rw [h] at ht
  · cases ht
    exact inv_popEvent hs
  · exact ho.keeps_inv hs ht
  · exact hostStep_keeps_inv (inv_popEvent hs) ht

/-- Settles O52: the ranges are the first part of the invariant a step keeps. -/
theorem stepKeepsTheRanges : Obligations.StepKeepsTheRanges :=
  fun _ _ hs ht => (step_keeps_inv hs ht).shape

/-- Settles O53: R25 is the part of the invariant a step keeps for unit `C`. -/
theorem stepKeepsTheTrieInvariants : Obligations.StepKeepsTheTrieInvariants :=
  fun _ _ hs ht => (step_keeps_inv hs ht).trie

/-- Settles O54: R32 is the part of the invariant a step keeps for unit `D`. -/
theorem stepKeepsTheWordTableInvariants : Obligations.StepKeepsTheWordTableInvariants :=
  fun _ _ hs ht => (step_keeps_inv hs ht).wt

end Sys2Proof.Machine
end

section
/-! What each operation may write (R20 to R23, R30, R36 to R38, R44, R60): the footprint of an operation, as the parts of the
two units it names, and that every instruction keeps to its own. -/

namespace Sys2Proof.Machine

/-! ### The parts of a unit -/

/-- The parts of unit `C` that have a "written by" column of their own (R21, R23, R24, R26 to R29, R38). -/
inductive CPart where
  /-- What no operation writes: the pins, the bytes of the input tape, the status (R21, R29). -/
  | fixed
  /-- `c_cur`, `c_next`. -/
  | walk
  /-- `c_par`, `c_lsym`. -/
  | edge
  | phase
  | trie
  | packer
  | byteOut
  | reader

/-- A part of unit `C` holds in the second unit what it holds in the first. -/
def CPart.Same : CPart → CUnit → CUnit → Prop
  | .fixed, c, c' => c'.go = c.go ∧ c'.protPin = c.protPin ∧ c'.symIn.bytes = c.symIn.bytes ∧ c'.status = c.status
  | .walk, c, c' => c'.cur = c.cur ∧ c'.next = c.next
  | .edge, c, c' => c'.par = c.par ∧ c'.lsym = c.lsym
  | .phase, c, c' => c'.phase = c.phase
  | .trie, c, c' => c'.trie = c.trie
  | .packer, c, c' => c'.bpBuf = c.bpBuf ∧ c'.bpIdx = c.bpIdx ∧ c'.totalBits = c.totalBits
  | .byteOut, c, c' => c'.byteOut = c.byteOut
  | .reader, c, c' => c'.srBuf = c.srBuf ∧ c'.srIdx = c.srIdx ∧ c'.srEnd = c.srEnd ∧ c'.totalSyms = c.totalSyms ∧
      c'.symIn = c.symIn

/-- The parts of unit `D` that have a "written by" column of their own (R22, R30, R31, R33 to R36, R38). -/
inductive DPart where
  /-- What no operation writes: the pin and the bytes of the input tape (R22). -/
  | fixed
  | next
  /-- `d_code`, `d_sym`. -/
  | latch
  | prot
  | wt
  | unpacker
  /-- `ww_buf`, `d_total_syms`. -/
  | writer
  | phase
  | status
  /-- `ww_idx`, `SYMOUT`: what a flush writes. -/
  | output
  | byteIn

/-- A part of unit `D` holds in the second unit what it holds in the first. -/
def DPart.Same : DPart → DUnit → DUnit → Prop
  | .fixed, d, d' => d'.go = d.go ∧ d'.byteIn.bytes = d.byteIn.bytes
  | .next, d, d' => d'.next = d.next
  | .latch, d, d' => d'.code = d.code ∧ d'.sym = d.sym
  | .prot, d, d' => d'.prot = d.prot
  | .wt, d, d' => d'.wt = d.wt
  | .unpacker, d, d' => d'.buBuf = d.buBuf ∧ d'.buIdx = d.buIdx ∧ d'.buEnd = d.buEnd ∧ d'.totalBits = d.totalBits
  | .writer, d, d' => d'.wwBuf = d.wwBuf ∧ d'.totalSyms = d.totalSyms
  | .phase, d, d' => d'.phase = d.phase
  | .status, d, d' => d'.status = d.status
  | .output, d, d' => d'.wwIdx = d.wwIdx ∧ d'.symOut = d.symOut
  | .byteIn, d, d' => d'.byteIn = d.byteIn

/-- Unit `C` may have changed in the listed parts only. -/
def TouchesC (ps : List CPart) (c c' : CUnit) : Prop := ∀ p, p ∉ ps → p.Same c c'

/-- Unit `D` may have changed in the listed parts only. -/
def TouchesD (ps : List DPart) (d d' : DUnit) : Prop := ∀ p, p ∉ ps → p.Same d d'

theorem TouchesC.refl (c : CUnit) : TouchesC [] c c := by
  intro p _
  cases p <;> simp [CPart.Same]

theorem TouchesD.refl (d : DUnit) : TouchesD [] d d := by
  intro p _
  cases p <;> simp [DPart.Same]

/-- The parts make up all of unit `C`. -/
theorem TouchesC.eq_of_nil {c c' : CUnit} (h : TouchesC [] c c') : c' = c := by
  obtain ⟨h1, h2, _, h3⟩ := h .fixed List.not_mem_nil
  obtain ⟨h4, h5⟩ := h .walk List.not_mem_nil
  obtain ⟨h6, h7⟩ := h .edge List.not_mem_nil
  have h8 : c'.phase = c.phase := h .phase List.not_mem_nil
  have h9 : c'.trie = c.trie := h .trie List.not_mem_nil
  obtain ⟨h10, h11, h12⟩ := h .packer List.not_mem_nil
  have h13 : c'.byteOut = c.byteOut := h .byteOut List.not_mem_nil
  obtain ⟨h14, h15, h16, h17, h18⟩ := h .reader List.not_mem_nil
  cases c; cases c'; simp_all

/-- The parts make up all of unit `D`. -/
theorem TouchesD.eq_of_nil {d d' : DUnit} (h : TouchesD [] d d') : d' = d := by
  have h1 := (h .fixed List.not_mem_nil).1
  have h2 : d'.next = d.next := h .next List.not_mem_nil
  obtain ⟨h3, h4⟩ := h .latch List.not_mem_nil
  have h5 : d'.prot = d.prot := h .prot List.not_mem_nil
  have h6 : d'.wt = d.wt := h .wt List.not_mem_nil
  obtain ⟨h7, h8, h9, h10⟩ := h .unpacker List.not_mem_nil
  obtain ⟨h11, h12⟩ := h .writer List.not_mem_nil
  have h13 : d'.phase = d.phase := h .phase List.not_mem_nil
  have h14 : d'.status = d.status := h .status List.not_mem_nil
  obtain ⟨h15, h16⟩ := h .output List.not_mem_nil
  have h17 : d'.byteIn = d.byteIn := h .byteIn List.not_mem_nil
  cases d; cases d'; simp_all

theorem TouchesC.mono {ps qs : List CPart} {c c' : CUnit} (h : TouchesC ps c c') (hp : ps ⊆ qs) : TouchesC qs c c' :=
  fun p hn => h p (mt (@hp p) hn)

theorem TouchesD.mono {ps qs : List DPart} {d d' : DUnit} (h : TouchesD ps d d') (hp : ps ⊆ qs) : TouchesD qs d d' :=
  fun p hn => h p (mt (@hp p) hn)

theorem TouchesC.trans {ps qs rs : List CPart} {c c' c'' : CUnit} (h : TouchesC ps c c') (h' : TouchesC qs c' c'')
    (hp : ps ⊆ rs := by simp) (hq : qs ⊆ rs := by simp) : TouchesC rs c c'' := by
  intro p hn
  have h1 := h p (mt (@hp p) hn)
  have h2 := h' p (mt (@hq p) hn)
  cases p <;> simp_all [CPart.Same]

theorem TouchesD.trans {ps qs rs : List DPart} {d d' d'' : DUnit} (h : TouchesD ps d d') (h' : TouchesD qs d' d'')
    (hp : ps ⊆ rs := by simp) (hq : qs ⊆ rs := by simp) : TouchesD rs d d'' := by
  intro p hn
  have h1 := h p (mt (@hp p) hn)
  have h2 := h' p (mt (@hq p) hn)
  cases p <;> simp_all [DPart.Same]

/-! ### The operations of unit `C` -/

theorem PackerFrame.touches {c c' : CUnit} (h : PackerFrame c c') : TouchesC [.packer, .byteOut] c c' := by
  intro p hp
  rw [h]
  cases p <;> simp [CPart.Same, withPacker] at hp ⊢

theorem ReaderFrame.touches {c c' : CUnit} (h : ReaderFrame c c') : TouchesC [.reader] c c' := by
  obtain ⟨h, hbytes⟩ := h
  intro p hp
  rw [h]
  cases p <;> simp [CPart.Same, withReader, hbytes] at hp ⊢

theorem clearTrie_touches (c : CUnit) : TouchesC [.trie] c (clearTrie c) := by
  intro p hp
  cases p <;> simp [CPart.Same, clearTrie] at hp ⊢

theorem trieInsert_touches (node : Code) (sym : Byte) (code : Code) (c : CUnit) :
    TouchesC [.trie] c (trieInsert node sym code c) := by
  intro p hp
  cases p <;> simp [CPart.Same, trieInsert] at hp ⊢

theorem hdrWr_touches (b : Build) (prot : BitVec 16) (c : CUnit) : TouchesC [.byteOut] c (hdrWr b prot c) := by
  intro p hp
  cases p <;> simp [CPart.Same, hdrWr] at hp ⊢

theorem encStart_touches (b : Build) (c : CUnit) : TouchesC [.walk, .phase, .trie, .byteOut] c (encStart b c) := by
  intro p hp
  cases p <;> simp [CPart.Same, encStart, clearTrie, hdrWr] at hp ⊢

/-- The advance of `c_next`, field by field (R177, R181). -/
theorem advanceC_eq (b : Build) (c : CUnit) :
    advanceC b c = { c with next := (incCode b c.next).1, trie := if (incCode b c.next).2 then [] else c.trie } := by
  simp only [advanceC, clearTrie]
  split <;> rfl

theorem touches_setCur (c : CUnit) (cur : Code) : TouchesC [.walk] c { c with cur := cur } := by
  intro p hp
  cases p <;> simp [CPart.Same] at hp ⊢

theorem touches_setEdge (c : CUnit) (par : Code) (lsym : Byte) :
    TouchesC [.edge] c { c with par := par, lsym := lsym } := by
  intro p hp
  cases p <;> simp [CPart.Same] at hp ⊢

theorem touches_setPhaseC (c : CUnit) (phase : Phase) : TouchesC [.phase] c { c with phase := phase } := by
  intro p hp
  cases p <;> simp [CPart.Same] at hp ⊢

theorem advanceC_touches (b : Build) (c : CUnit) : TouchesC [.walk, .trie] c (advanceC b c) := by
  rw [advanceC_eq]
  intro p hp
  cases p <;> simp [CPart.Same] at hp ⊢

theorem missCore_touches (b : Build) (sym : Byte) (c : CUnit) :
    TouchesC [.walk, .trie, .packer, .byteOut] c (missCore b sym c) := by
  intro p hp
  cases p <;> simp [CPart.Same, missCore, withPacker] at hp ⊢

theorem finalCore_touches (b : Build) (c : CUnit) : TouchesC [.walk, .packer, .byteOut] c (finalCore b c) := by
  intro p hp
  cases p <;> simp [CPart.Same, finalCore, withPacker] at hp ⊢

theorem encSym_touches (b : Build) (sym : Byte) (c : CUnit) :
    TouchesC [.walk, .edge, .trie, .packer, .byteOut] c (encSym b sym c) := by
  cases h : trieGet c.trie c.cur sym with
  | some child =>
    rw [encSym_match h]
    exact (touches_setCur c child).trans (touches_setEdge _ c.cur sym)
  | none =>
    rw [encSym_miss h]
    have hmiss := (missCore_touches b sym c).trans (rs := [.walk, .trie, .packer, .byteOut]) (advanceC_touches b _)
    exact hmiss.trans (touches_setEdge _ _ sym)

theorem finalPair_touches (b : Build) (c : CUnit) :
    TouchesC [.walk, .trie, .packer, .byteOut] c (finalPair b c) := by
  by_cases h : c.cur = b.emptyCode
  · rw [finalPair_root h]
    exact (TouchesC.refl c).mono (List.nil_subset _)
  · rw [finalPair_pending h]
    exact (finalCore_touches b c).trans (advanceC_touches b _)

theorem encEnd_touches (b : Build) (c : CUnit) :
    TouchesC [.walk, .phase, .trie, .packer, .byteOut] c (encEnd b c) := by
  have hflush := (wrPair_frame b b.stopCode 0#8 (bitlen (finalPair b c).next.toNat) (finalPair b c)).trans
    (bpFlush_frame _)
  have hpairs := (finalPair_touches b c).trans (rs := [.walk, .trie, .packer, .byteOut]) hflush.touches
  exact hpairs.trans (touches_setPhaseC _ .done)

/-- `SR.RDSYM` writes the reader's state and the tape's position, whatever state the reader is in (R160). -/
theorem rdSym_frame (b : Build) (c : CUnit) : ReaderFrame c (rdSym b c).2 := by
  simp only [rdSym]
  split
  · split <;> exact ⟨rfl, rfl⟩
  · exact ⟨rfl, rfl⟩

/-- `C.STEP` on a symbol (R175). -/
theorem encStep_of_some {b : Build} {c : CUnit} {x : Byte} (h : (rdSym b c).1 = some x) :
    encStep b c = encSym b x (rdSym b c).2 := by
  simp only [encStep]
  split <;> simp_all

/-- `C.STEP` at the end of the input (R175). -/
theorem encStep_of_none {b : Build} {c : CUnit} (h : (rdSym b c).1 = none) :
    encStep b c = encEnd b (rdSym b c).2 := by
  simp only [encStep]
  split <;> simp_all

theorem encStep_touches (b : Build) (c : CUnit) :
    TouchesC [.walk, .edge, .phase, .trie, .packer, .byteOut, .reader] c (encStep b c) := by
  have hread := (rdSym_frame b c).touches
  cases h : (rdSym b c).1 with
  | some x =>
    rw [encStep_of_some h]
    exact hread.trans (encSym_touches b x _)
  | none =>
    rw [encStep_of_none h]
    exact hread.trans (encEnd_touches b _)

/-! ### The operations of unit `D` -/

theorem UnpackerFrame.touches {d d' : DUnit} (h : UnpackerFrame d d') : TouchesD [.unpacker, .byteIn] d d' := by
  obtain ⟨h, hbytes⟩ := h
  intro p hp
  rw [h]
  cases p <;> simp [DPart.Same, withUnpacker, hbytes] at hp ⊢

theorem WriterFrame.touches {d d' : DUnit} (h : WriterFrame d d') : TouchesD [.writer, .output] d d' := by
  intro p hp
  rw [h]
  cases p <;> simp [DPart.Same, withWriter] at hp ⊢

/-- `BU.GETBIT` writes the unpacker's state and the tape's position, whatever state the unpacker is in (R145). -/
theorem getBit_frame (b : Build) (d : DUnit) : UnpackerFrame d (getBit b d).2 := by
  simp only [getBit]
  split
  · split <;> exact ⟨rfl, rfl⟩
  · exact ⟨rfl, rfl⟩

theorem getBits_none {b : Build} {d : DUnit} (h : (getBit b d).1 = none) (n : Nat) :
    getBits b (n + 1) d = ([], (getBit b d).2) := by
  simp only [getBits]
  split <;> simp_all

theorem getBits_some {b : Build} {d : DUnit} {x : Bool} (h : (getBit b d).1 = some x) (n : Nat) :
    getBits b (n + 1) d = (x :: (getBits b n (getBit b d).2).1, (getBits b n (getBit b d).2).2) := by
  simp only [getBits]
  split <;> simp_all

theorem getBits_frame (b : Build) (n : Nat) : ∀ d, UnpackerFrame d (getBits b n d).2 := by
  induction n with
  | zero => exact UnpackerFrame.refl
  | succ n ih =>
    intro d
    cases h : (getBit b d).1 with
    | none => rw [getBits_none h]; exact getBit_frame b d
    | some x => rw [getBits_some h]; exact (getBit_frame b d).trans (ih _)

theorem touches_setLatch (d : DUnit) (code : Code) (sym : Byte) :
    TouchesD [.latch] d { d with code := code, sym := sym } := by
  intro p hp
  cases p <;> simp [DPart.Same] at hp ⊢

theorem rdPair_touches (b : Build) (w : Nat) (d : DUnit) :
    TouchesD [.latch, .unpacker, .byteIn] d (rdPair b w d).2.2 := by
  have hbits := (getBits_frame b (w + 8) d).touches
  simp only [rdPair]
  split
  · exact hbits.mono (by simp)
  · exact hbits.trans (touches_setLatch _ _ _)

theorem wwFlush_touches (d : DUnit) : TouchesD [.output] d (wwFlush d) := by
  obtain ⟨_, _, hbuf, htotal⟩ := wwFlush_spec d
  intro p hp
  have hrest := (wwFlush_frame d).touches p
  cases p <;> simp_all [DPart.Same]

theorem raise_touches (cause : Cause) (d : DUnit) : TouchesD [.phase, .status, .output] d (raise cause d) := by
  rw [raise_spec]
  intro p hp
  cases p <;> simp [DPart.Same] at hp ⊢

theorem decStop_touches (d : DUnit) : TouchesD [.phase, .output] d (decStop d) := by
  rw [decStop_eq]
  intro p hp
  cases p <;> simp [DPart.Same] at hp ⊢

theorem seedWt_touches (b : Build) (d : DUnit) : TouchesD [.wt] d (seedWt b d) := by
  intro p hp
  cases p <;> simp [DPart.Same, seedWt] at hp ⊢

theorem wtSet_touches {b : Build} {code : Code} {word : Word} {d d' : DUnit} (h : wtSet b code word d = .next d') :
    TouchesD [.wt] d d' := by
  simp only [wtSet] at h
  split at h
  · cases h
    intro p hp
    cases p <;> simp [DPart.Same] at hp ⊢
  · cases h

theorem touches_setProt (d : DUnit) (prot : BitVec 16) : TouchesD [.prot] d { d with prot := prot } := by
  intro p hp
  cases p <;> simp [DPart.Same] at hp ⊢

theorem takeHeader_touches (b : Build) (magic : BitVec 32) (prot : BitVec 16) (d : DUnit) :
    TouchesD [.prot, .phase, .status, .output] d (takeHeader b magic prot d).2 := by
  simp only [takeHeader]
  split
  · exact (touches_setProt d prot).mono (by simp)
  · exact (raise_touches .badMagic d).mono (by simp)

theorem touches_srcRead (d : DUnit) (n : Nat) : TouchesD [.byteIn] d { d with byteIn := (srcRead d.byteIn n).2 } := by
  intro p hp
  cases p <;> simp [DPart.Same, srcRead] at hp ⊢

theorem hdrRd_touches (b : Build) (d : DUnit) :
    TouchesD [.prot, .phase, .status, .output, .byteIn] d (hdrRd b d).2 := by
  have hread := touches_srcRead d 6
  simp only [hdrRd]
  split
  · exact hread.trans (raise_touches .hdrShort _)
  · exact hread.trans (takeHeader_touches b _ _ _)

/-- `D.START` on an accepted header (R198). -/
theorem decStart_of_accepted {b : Build} {d : DUnit} (h : (hdrRd b d).1 = true) :
    decStart b d = { seedWt b (hdrRd b d).2 with next := b.startCode, phase := .run } := by
  simp only [decStart]
  split <;> simp_all

/-- `D.START` on a header that raised (R198). -/
theorem decStart_of_rejected {b : Build} {d : DUnit} (h : (hdrRd b d).1 = false) : decStart b d = (hdrRd b d).2 := by
  simp only [decStart]
  split <;> simp_all

theorem touches_launched (b : Build) (d : DUnit) :
    TouchesD [.next, .wt, .phase] d { seedWt b d with next := b.startCode, phase := .run } := by
  intro p hp
  cases p <;> simp [DPart.Same, seedWt] at hp ⊢

theorem decStart_touches (b : Build) (d : DUnit) :
    TouchesD [.next, .prot, .wt, .phase, .status, .output, .byteIn] d (decStart b d) := by
  have hhdr := hdrRd_touches b d
  cases h : (hdrRd b d).1 with
  | true =>
    rw [decStart_of_accepted h]
    exact hhdr.trans (touches_launched b _)
  | false =>
    rw [decStart_of_rejected h]
    exact hhdr.mono (by simp)

/-- The advance of `d_next`, field by field (R196, R202). -/
theorem advanceD_eq (b : Build) (d : DUnit) :
    advanceD b d = { d with next := (incCode b d.next).1,
                            wt := if (incCode b d.next).2 then [(b.emptyCode.toNat, [])] else d.wt } := by
  simp only [advanceD, seedWt]
  split <;> rfl

theorem advanceD_touches (b : Build) (d : DUnit) : TouchesD [.next, .wt] d (advanceD b d) := by
  rw [advanceD_eq]
  intro p hp
  cases p <;> simp [DPart.Same] at hp ⊢

theorem storeWord_touches (b : Build) (word : Word) (d : DUnit) :
    TouchesD [.wt, .writer, .output] d (storeWord b word d) := by
  intro p hp
  cases p <;> simp [DPart.Same, storeWord, withWriter] at hp ⊢

/-- Everything a data pair's word can do (R196): the counter must name a slot. -/
theorem takeWord_eq_next_iff {b : Build} {word : Word} {d e : DUnit} :
    takeWord b word d = .next e ↔ d.next.toNat < b.maxCode ∧ advanceD b (storeWord b word d) = e := by
  have hf : wrWord b word { d with wt := storeSet d.wt d.next.toNat word } = storeWord b word d :=
    wrWord_frame b word { d with wt := storeSet d.wt d.next.toNat word }
  by_cases h : d.next.toNat < b.maxCode
  · simp [takeWord, wtSet, h, hf]
  · simp [takeWord, wtSet, h]

/-- Everything a data pair can do when it goes on (R194, R196): the fault entry of a bad code, or the word of a populated
slot stored, written and counted. -/
theorem decData_eq_next_iff {b : Build} {d e : DUnit} :
    decData b d = .next e ↔
      (validCode b d.next d.code = false ∧ raise .corruptCode d = e) ∨
      (validCode b d.next d.code = true ∧ d.code.toNat < b.maxCode ∧ d.next.toNat < b.maxCode ∧
        ∃ w, storeGet d.wt d.code.toNat = some w ∧ advanceD b (storeWord b (wordAppend w d.sym) d) = e) := by
  cases hv : validCode b d.next d.code with
  | false => simp [decData_invalid hv]
  | true =>
    by_cases hc : d.code.toNat < b.maxCode
    · cases hw : storeGet d.wt d.code.toNat with
      | none => simp [decData, hv, wtGet, hc, hw]
      | some w => simp [decData, hv, wtGet, hc, hw, takeWord_eq_next_iff]
    · simp [decData, hv, wtGet, hc]

theorem decData_touches {b : Build} {d e : DUnit} (h : decData b d = .next e) :
    TouchesD [.next, .wt, .writer, .phase, .status, .output] d e := by
  rcases decData_eq_next_iff.1 h with ⟨_, rfl⟩ | ⟨_, _, _, w, _, rfl⟩
  · exact (raise_touches .corruptCode d).mono (by simp)
  · exact (storeWord_touches b _ d).trans (advanceD_touches b _)

/-- `D.STEP` by what reading the pair answered (R196, R225). -/
theorem decStep_eq (b : Build) (d : DUnit) :
    decStep b d =
      if (rdPair b (bitlen d.next.toNat) d).2.1 then .next (raise .corruptTrunc (rdPair b (bitlen d.next.toNat) d).2.2)
      else if (rdPair b (bitlen d.next.toNat) d).1 then decData b (rdPair b (bitlen d.next.toNat) d).2.2
      else .next (decStop (rdPair b (bitlen d.next.toNat) d).2.2) :=
  rfl

theorem decStep_touches {b : Build} {d e : DUnit} (h : decStep b d = .next e) :
    TouchesD [.next, .latch, .wt, .unpacker, .writer, .phase, .status, .output, .byteIn] d e := by
  have hpair := rdPair_touches b (bitlen d.next.toNat) d
  rw [decStep_eq] at h
  split at h
  · cases h
    exact hpair.trans (raise_touches .corruptTrunc _)
  · split at h
    · exact hpair.trans (decData_touches h)
    · cases h
      exact hpair.trans (decStop_touches _)

/-! ### Every instruction keeps to its parts -/

/-- The parts of unit `C` an instruction names as written, by itself or by one it invokes. -/
@[simp] def writesC : Instr → List CPart
  | .bpPutbit _ | .bpWrpair _ _ _ | .bpFlush => [.packer, .byteOut]
  | .srRdsym => [.reader]
  | .trieCreate | .trieInsert _ _ _ | .trieReset => [.trie]
  | .cStart => [.walk, .phase, .trie, .byteOut]
  | .cSym _ => [.walk, .edge, .trie, .packer, .byteOut]
  | .cEnd => [.walk, .phase, .trie, .packer, .byteOut]
  | .cStep => [.walk, .edge, .phase, .trie, .packer, .byteOut, .reader]
  | .hdrWr _ => [.byteOut]
  | .primBitlen _ | .primSwap16 _ | .primSwap32 _ | .primInccode _ | .trieStep _ _ => []
  | .buGetbit | .buRdpair _ | .wwWrword _ | .wwFlush => []
  | .wtCreate | .wtLookup _ | .wordAppend _ _ | .wtStore _ _ | .wtReset | .dStart | .dStep | .hdrRd => []
  | .hdr _ _ | .pairData _ _ _ | .pairStop _ _ | .pad _ => []

/-- The parts of unit `D` an instruction names as written, by itself, by one it invokes or by the fault entry it can end in
(a stream unit counts as the step that reads it, log 11). -/
@[simp] def writesD : Instr → List DPart
  | .buGetbit => [.unpacker, .byteIn]
  | .buRdpair _ => [.latch, .unpacker, .byteIn]
  | .wwWrword _ => [.writer, .output]
  | .wwFlush => [.output]
  | .wtCreate | .wtStore _ _ | .wtReset => [.wt]
  | .dStart => [.next, .prot, .wt, .phase, .status, .output, .byteIn]
  | .dStep => [.next, .latch, .wt, .unpacker, .writer, .phase, .status, .output, .byteIn]
  | .hdrRd => [.prot, .phase, .status, .output, .byteIn]
  | .hdr _ _ => [.prot, .phase, .status, .output]
  | .pairData _ _ _ => [.next, .latch, .wt, .writer, .phase, .status, .output]
  | .pairStop _ _ => [.latch, .phase, .output]
  | .primBitlen _ | .primSwap16 _ | .primSwap32 _ | .primInccode _ | .wtLookup _ | .wordAppend _ _ | .pad _ => []
  | .bpPutbit _ | .bpWrpair _ _ _ | .bpFlush | .srRdsym => []
  | .trieCreate | .trieStep _ _ | .trieInsert _ _ _ | .trieReset | .cStart | .cSym _ | .cEnd | .cStep | .hdrWr _ => []

/-- A state may differ from another in the listed parts of its units, and in the returned result. -/
structure Frame (ps : List CPart) (qs : List DPart) (s t : State) : Prop where
  build : t.build = s.build
  sched : t.sched = s.sched
  c     : TouchesC ps s.c t.c
  d     : TouchesD qs s.d t.d

theorem Frame.of_finish {s t : State} {r : Ret} (h : finish s r = .next t) : Frame [] [] s t := by
  cases h
  exact ⟨rfl, rfl, .refl _, .refl _⟩

theorem Frame.of_finishC {ps : List CPart} {s t : State} {c : CUnit} {r : Ret} (hc : TouchesC ps s.c c)
    (h : finishC s c r = .next t) : Frame ps [] s t := by
  cases h
  exact ⟨rfl, rfl, hc, .refl _⟩

theorem Frame.of_finishD {qs : List DPart} {s t : State} {d : DUnit} {r : Ret} (hd : TouchesD qs s.d d)
    (h : finishD s d r = .next t) : Frame [] qs s t := by
  cases h
  exact ⟨rfl, rfl, .refl _, hd⟩

/-- An operation that is refused under a test meant the other branch, if it went on. -/
theorem of_guarded {p : Bool} {o : Host.Outcome State Fault Refusal} {r : Refusal} {t : State}
    (h : (if p then o else .refused r) = .next t) : o = .next t := by
  split at h
  · exact h
  · cases h

theorem exec_frame {i : Instr} {s t : State} (h : exec i s = .next t) : Frame (writesC i) (writesD i) s t := by
  cases i with
  | primBitlen n => exact .of_finish h
  | primSwap16 v => exact .of_finish h
  | primSwap32 v => exact .of_finish h
  | primInccode n => exact .of_finish h
  | bpPutbit x => exact .of_finishC (putBit_frame s.build x s.c).touches h
  | bpWrpair code sym w => exact .of_finishC (wrPair_frame s.build code sym w s.c).touches (of_guarded h)
  | bpFlush => exact .of_finishC (bpFlush_frame s.c).touches h
  | buGetbit => exact .of_finishD (getBit_frame s.build s.d).touches h
  | buRdpair w => exact .of_finishD (rdPair_touches s.build w s.d) (of_guarded h)
  | srRdsym => exact .of_finishC (rdSym_frame s.build s.c).touches h
  | wwWrword word => exact .of_finishD (wrWord_frame s.build word s.d).touches h
  | wwFlush => exact .of_finishD (wwFlush_touches s.d) h
  | trieCreate => exact .of_finishC (clearTrie_touches s.c) h
  | trieStep node sym => exact .of_finish h
  | trieInsert node sym code => exact .of_finishC (trieInsert_touches node sym code s.c) h
  | trieReset => exact .of_finishC (clearTrie_touches s.c) h
  | cStart => exact .of_finishC (encStart_touches s.build s.c) (of_guarded h)
  | cSym sym => exact .of_finishC (encSym_touches s.build sym s.c) h
  | cEnd => exact .of_finishC (encEnd_touches s.build s.c) h
  | cStep => exact .of_finishC (encStep_touches s.build s.c) (of_guarded h)
  | wtCreate => exact .of_finishD (seedWt_touches s.build s.d) h
  | wtLookup code =>
    obtain ⟨_, _, hend⟩ := andThen_eq_next h
    exact .of_finish hend
  | wordAppend word sym => exact .of_finish h
  | wtStore code word =>
    obtain ⟨_, hset, hend⟩ := andThen_eq_next h
    exact .of_finishD (wtSet_touches hset) hend
  | wtReset => exact .of_finishD (seedWt_touches s.build s.d) h
  | dStart => exact .of_finishD (decStart_touches s.build s.d) (of_guarded h)
  | dStep =>
    obtain ⟨_, hstep, hend⟩ := andThen_eq_next (of_guarded h)
    exact .of_finishD (decStep_touches hstep) hend
  | hdrWr prot => exact .of_finishC (hdrWr_touches s.build prot s.c) h
  | hdrRd => exact .of_finishD (hdrRd_touches s.build s.d) h
  | hdr magic prot => exact .of_finishD (takeHeader_touches s.build magic prot s.d) h
  | pairData w code sym =>
    obtain ⟨_, hdata, hend⟩ := andThen_eq_next h
    exact .of_finishD ((touches_setLatch s.d code sym).trans (decData_touches hdata)) hend
  | pairStop w sym =>
    exact .of_finishD ((touches_setLatch s.d s.build.stopCode sym).trans (decStop_touches _)) h
  | pad bits => exact .of_finish h

/-- Settles O49: an instruction that names no part of a unit leaves that unit as it was. -/
theorem operationsTouchOneUnit : Obligations.OperationsTouchOneUnit := by
  intro i s t h
  obtain ⟨hbuild, hsched, hc, hd⟩ := exec_frame h
  have hC : writesC i = [] → t.c = s.c := fun hnil => (hnil ▸ hc).eq_of_nil
  have hD : writesD i = [] → t.d = s.d := fun hnil => (hnil ▸ hd).eq_of_nil
  refine ⟨hbuild, hsched, ?_⟩
  cases i <;> simp at hC hD ⊢ <;> simp [hC, hD]

/-- Settles O50: each clause is one part, unchanged unless the instruction names it. -/
theorem onlyTheNamedOperationsWrite : Obligations.OnlyTheNamedOperationsWrite := by
  intro i s t h
  obtain ⟨_, _, hc, hd⟩ := exec_frame h
  have hfixed := hc .fixed
  have hwalk := hc .walk
  have hedge := hc .edge
  have hphase := hc .phase
  have htrie := hc .trie
  have hpacker := hc .packer
  have hbyteOut := hc .byteOut
  have hreader := hc .reader
  have hfixedD := hd .fixed
  have hnext := hd .next
  have hlatch := hd .latch
  have hprot := hd .prot
  have hwt := hd .wt
  have hunpacker := hd .unpacker
  have hwriter := hd .writer
  have hphaseD := hd .phase
  have hstatus := hd .status
  have houtput := hd .output
  have hbyteIn := hd .byteIn
  clear hc hd h
  cases i <;> simp_all [CPart.Same, DPart.Same]

end Sys2Proof.Machine
end

section
/-! What reset leaves unspecified is written before it is read (R43): two units that agree on all that a run can still
read go on agreeing, step for step, and agree in every port. -/

namespace Sys2Proof.Machine

/-! ### Unit `C`: packer and reader -/

/-- Two packers with the same bits on their way out; what lies in `bp_buf` from `bp_idx` on may differ. -/
structure SamePacker (c c' : CUnit) : Prop where
  idx       : c.bpIdx = c'.bpIdx
  bits      : outBits c = outBits c'
  totalBits : c.totalBits = c'.totalBits

/-- The bits on the tape and those in the buffer agree each for themselves. -/
theorem SamePacker.outBits_split {c c' : CUnit} (h : SamePacker c c') :
    unpack c.byteOut = unpack c'.byteOut ∧ bufBits c.bpBuf 0 c.bpIdx = bufBits c'.bpBuf 0 c'.bpIdx :=
  List.append_inj' h.bits (by simp [h.idx])

theorem SamePacker.byteOut {c c' : CUnit} (h : SamePacker c c') : c.byteOut = c'.byteOut :=
  unpack_injective h.outBits_split.1

theorem putBit_bpIdx (b : Build) (x : Bool) (c : CUnit) :
    (putBit b x c).bpIdx = if c.bpIdx + 1 = 8 * b.blockBytes then 0 else c.bpIdx + 1 := by
  simp only [putBit]
  split <;> rfl

theorem SamePacker.putBit {c c' : CUnit} (h : SamePacker c c') (b : Build) (x : Bool) :
    SamePacker (putBit b x c) (putBit b x c') :=
  ⟨by rw [putBit_bpIdx, putBit_bpIdx, h.idx], by rw [putBit_outBits, putBit_outBits, h.bits],
    by rw [putBit_totalBits, putBit_totalBits, h.totalBits]⟩

theorem SamePacker.putBits (b : Build) (xs : List Bool) :
    ∀ {c c' : CUnit}, SamePacker c c' → SamePacker (putBits b xs c) (putBits b xs c') := by
  induction xs with
  | nil => exact id
  | cons x xs ih => exact fun h => ih (h.putBit b x)

theorem SamePacker.wrPair {c c' : CUnit} (h : SamePacker c c') (b : Build) (code : Code) (sym : Byte) (w : Nat) :
    SamePacker (wrPair b code sym w c) (wrPair b code sym w c') :=
  SamePacker.putBits b _ h

theorem SamePacker.bpFlush {c c' : CUnit} (h : SamePacker c c') : SamePacker (bpFlush c) (bpFlush c') := by
  obtain ⟨hbits, hidx, htotal⟩ := bpFlush_spec c
  obtain ⟨hbits', hidx', htotal'⟩ := bpFlush_spec c'
  refine ⟨hidx.trans hidx'.symm, ?_, by rw [htotal, htotal', h.totalBits]⟩
  rw [outBits_of_idx_zero hidx, outBits_of_idx_zero hidx', hbits, hbits', h.bits, h.idx]

theorem SamePacker.hdrWr {c c' : CUnit} (h : SamePacker c c') (b : Build) (prot : BitVec 16) :
    SamePacker (hdrWr b prot c) (hdrWr b prot c') := by
  refine ⟨h.idx, ?_, h.totalBits⟩
  simp only [outBits, Machine.hdrWr, h.byteOut, h.outBits_split.2]

/-- Two symbol readers with the same block still to deliver; what lies in `sr_buf` outside it may differ. -/
structure SameReader (c c' : CUnit) : Prop where
  idx       : c.srIdx = c'.srIdx
  fin       : c.srEnd = c'.srEnd
  range     : c.srIdx ≤ c.srEnd
  block     : ∀ k < c.srEnd, memRead c.srBuf k = memRead c'.srBuf k
  symIn     : c.symIn = c'.symIn
  totalSyms : c.totalSyms = c'.totalSyms

theorem SameReader.takeSym {c c' : CUnit} (h : SameReader c c') (hlt : c.srIdx < c.srEnd) :
    (takeSym c).1 = (takeSym c').1 ∧ SameReader (takeSym c).2 (takeSym c').2 := by
  refine ⟨?_, ⟨?_, h.fin, hlt, h.block, h.symIn, ?_⟩⟩
  · simp only [Machine.takeSym, ← h.idx, h.block _ hlt]
  · simp only [Machine.takeSym, h.idx]
  · simp only [Machine.takeSym, h.totalSyms]

/-- A block just taken is the same in both buffers, whatever they held. -/
theorem memRead_load_congr (xs : List Byte) (m m' : Memory) {k : Nat} (hk : k < xs.length) :
    memRead (memLoad m 0 xs) k = memRead (memLoad m' 0 xs) k := by
  simp [memRead_load, hk]

theorem SameReader.rdSym {c c' : CUnit} (h : SameReader c c') (b : Build) :
    (rdSym b c).1 = (rdSym b c').1 ∧ SameReader (rdSym b c).2 (rdSym b c').2 := by
  simp only [Machine.rdSym, ← h.idx, ← h.fin, ← h.symIn]
  split
  · split
    · exact ⟨rfl, ⟨rfl, rfl, h.range, h.block, rfl, h.totalSyms⟩⟩
    · rename_i hne
      exact SameReader.takeSym ⟨rfl, rfl, Nat.zero_le _, fun _ => memRead_load_congr _ _ _, rfl, h.totalSyms⟩
        (List.length_pos_iff.2 hne)
  · rename_i hne
    exact h.takeSym (lt_of_le_of_ne h.range hne)

/-- The walk of a run: `c_par` and `c_lsym` are read only when the walk is not at the root (R180). -/
structure SameWalk (b : Build) (c c' : CUnit) : Prop where
  cur  : c.cur = c'.cur
  next : c.next = c'.next
  trie : c.trie = c'.trie
  edge : c.cur = b.emptyCode ∨ (c.par = c'.par ∧ c.lsym = c'.lsym)

/-- Two units `C` that agree on all a run can still read. -/
structure AgreesC (b : Build) (c c' : CUnit) : Prop where
  go      : c.go = c'.go
  protPin : c.protPin = c'.protPin
  phase   : c.phase = c'.phase
  status  : c.status = c'.status
  packer  : SamePacker c c'
  reader  : SameReader c c'
  walk    : c.phase = .run → SameWalk b c c'

theorem AgreesC.ports {b : Build} {c c' : CUnit} (h : AgreesC b c c') : PortsC c c' :=
  ⟨h.phase, h.status, h.reader.totalSyms, h.packer.totalBits, h.packer.byteOut⟩

/-- A unit agrees with itself. -/
theorem AgreesC.refl (b : Build) {c : CUnit} (h : c.srIdx ≤ c.srEnd) : AgreesC b c c :=
  ⟨rfl, rfl, rfl, rfl, ⟨rfl, rfl, rfl⟩, ⟨rfl, rfl, h, fun _ _ => rfl, rfl, rfl⟩,
    fun _ => ⟨rfl, rfl, rfl, .inr ⟨rfl, rfl⟩⟩⟩

/-! ### Unit `C`: the driver -/

/-- What the packer does to two units that agree, they need only agree on in the packer. -/
theorem AgreesC.packed {b : Build} {c c' e e' : CUnit} (h : AgreesC b c c') (hf : PackerFrame c e)
    (hf' : PackerFrame c' e') (hp : SamePacker e e') : AgreesC b e e' := by
  rw [hf, hf'] at hp ⊢
  exact { h with packer := hp, reader := { h.reader with }, walk := fun hr => { h.walk hr with } }

/-- What the reader does to two units that agree, they need only agree on in the reader. -/
theorem AgreesC.read {b : Build} {c c' e e' : CUnit} (h : AgreesC b c c') (hf : ReaderFrame c e)
    (hf' : ReaderFrame c' e') (hp : SameReader e e') : AgreesC b e e' := by
  rw [hf.1, hf'.1] at hp ⊢
  exact { h with packer := { h.packer with }, reader := hp, walk := fun hr => { h.walk hr with } }

/-- The counter's advance and the dictionary's reset depend on the counter and the dictionary alone. -/
theorem AgreesC.advanceC {b : Build} {c c' : CUnit} (h : AgreesC b c c') (hw : SameWalk b c c') :
    AgreesC b (advanceC b c) (advanceC b c') := by
  rw [advanceC_eq, advanceC_eq]
  refine { h with packer := { h.packer with }, reader := { h.reader with }, walk := fun _ => ?_ }
  exact ⟨hw.cur, by rw [hw.next], by rw [hw.next, hw.trie], hw.edge⟩

theorem AgreesC.missCore {b : Build} {c c' : CUnit} (h : AgreesC b c c') (hw : SameWalk b c c') (x : Byte) :
    AgreesC b (missCore b x c) (missCore b x c') ∧ SameWalk b (missCore b x c) (missCore b x c') := by
  have hpair : SamePacker (Machine.wrPair b c.cur x (bitlen c.next.toNat) c)
      (Machine.wrPair b c'.cur x (bitlen c'.next.toNat) c') := by
    rw [← hw.cur, ← hw.next]
    exact h.packer.wrPair b _ _ _
  have hwalk : SameWalk b (Machine.missCore b x c) (Machine.missCore b x c') :=
    ⟨rfl, hw.next, by simp only [Machine.missCore, hw.trie, hw.cur, hw.next], .inl rfl⟩
  refine ⟨{ h with packer := ?_, reader := { h.reader with }, walk := fun _ => hwalk }, hwalk⟩
  exact ⟨hpair.idx, hpair.bits, hpair.totalBits⟩

theorem AgreesC.encSym {b : Build} {c c' : CUnit} (h : AgreesC b c c') (hr : c.phase = .run) (x : Byte) :
    AgreesC b (encSym b x c) (encSym b x c') := by
  have hw := h.walk hr
  cases hg : trieGet c.trie c.cur x with
  | some child =>
    have hg' : trieGet c'.trie c'.cur x = some child := by rw [← hw.trie, ← hw.cur, hg]
    rw [encSym_match hg, encSym_match hg']
    exact { h with packer := { h.packer with }, reader := { h.reader with },
                   walk := fun _ => ⟨rfl, hw.next, hw.trie, .inr ⟨hw.cur, rfl⟩⟩ }
  | none =>
    have hg' : trieGet c'.trie c'.cur x = none := by rw [← hw.trie, ← hw.cur, hg]
    rw [encSym_miss hg, encSym_miss hg']
    obtain ⟨hmiss, hwalk⟩ := h.missCore hw x
    have hadv := hmiss.advanceC hwalk
    refine { hadv with packer := { hadv.packer with }, reader := { hadv.reader with }, walk := fun hr' => ?_ }
    obtain ⟨hcur, hnext, htrie, hedge⟩ := hadv.walk hr'
    exact ⟨hcur, hnext, htrie, hedge.imp_right fun ⟨hpar, _⟩ => ⟨hpar, rfl⟩⟩

/-- The final pair names a parent and a symbol only off the root, where the two units agree on them (R180). -/
theorem AgreesC.finalPair {b : Build} {c c' : CUnit} (h : AgreesC b c c') (hr : c.phase = .run) :
    AgreesC b (finalPair b c) (finalPair b c') := by
  have hw := h.walk hr
  by_cases hc : c.cur = b.emptyCode
  · rw [finalPair_root hc, finalPair_root (hw.cur ▸ hc)]
    exact h
  · obtain ⟨hpar, hlsym⟩ := hw.edge.resolve_left hc
    rw [finalPair_pending hc, finalPair_pending (hw.cur ▸ hc)]
    have hpair : SamePacker (Machine.wrPair b c.par c.lsym (bitlen c.next.toNat) c)
        (Machine.wrPair b c'.par c'.lsym (bitlen c'.next.toNat) c') := by
      rw [← hpar, ← hlsym, ← hw.next]
      exact h.packer.wrPair b _ _ _
    have hwalk : SameWalk b (finalCore b c) (finalCore b c') := ⟨rfl, hw.next, hw.trie, .inl rfl⟩
    refine AgreesC.advanceC { h with packer := ?_, reader := { h.reader with }, walk := fun _ => hwalk } hwalk
    exact ⟨hpair.idx, hpair.bits, hpair.totalBits⟩

/-- In `DONE` the walk is read no more. -/
theorem AgreesC.done {b : Build} {c c' : CUnit} (h : AgreesC b c c') :
    AgreesC b { c with phase := .done } { c' with phase := .done } :=
  { h with phase := rfl, packer := { h.packer with }, reader := { h.reader with }, walk := fun hr => nomatch hr }

theorem AgreesC.encEnd {b : Build} {c c' : CUnit} (h : AgreesC b c c') (hr : c.phase = .run) :
    AgreesC b (encEnd b c) (encEnd b c') := by
  have hf := h.finalPair hr
  have hrun : (Machine.finalPair b c).phase = .run := (finalPair_touches b c .phase (by simp)).trans hr
  have hnext := (hf.walk hrun).next
  have hstop := hf.packer.wrPair b b.stopCode 0#8 (bitlen (Machine.finalPair b c).next.toNat)
  have hend := hf.packed ((wrPair_frame b _ _ _ _).trans (bpFlush_frame _))
    ((wrPair_frame b _ _ _ _).trans (bpFlush_frame _)) hstop.bpFlush
  simp only [Machine.encEnd, ← hnext]
  exact hend.done

theorem AgreesC.encStep {b : Build} {c c' : CUnit} (h : AgreesC b c c') (hr : c.phase = .run) :
    AgreesC b (encStep b c) (encStep b c') := by
  obtain ⟨hsym, hreader⟩ := h.reader.rdSym b
  have hread := h.read (rdSym_frame b c) (rdSym_frame b c') hreader
  have hrun : (rdSym b c).2.phase = .run := ((rdSym_frame b c).touches .phase (by simp)).trans hr
  cases hx : (rdSym b c).1 with
  | some x =>
    rw [encStep_of_some hx, encStep_of_some (hsym ▸ hx)]
    exact hread.encSym hrun x
  | none =>
    rw [encStep_of_none hx, encStep_of_none (hsym ▸ hx)]
    exact hread.encEnd hrun

/-- A launch writes the walk, the counter and the dictionary before any of them is read (R174). -/
theorem AgreesC.encStart {b : Build} {c c' : CUnit} (h : AgreesC b c c') :
    AgreesC b (encStart b c) (encStart b c') := by
  have hhdr := h.packer.hdrWr b c.protPin
  have hwalk : SameWalk b (Machine.encStart b c) (Machine.encStart b c') := ⟨rfl, rfl, rfl, .inl rfl⟩
  refine { h with phase := rfl, packer := ?_, reader := { h.reader with }, walk := fun _ => hwalk }
  simp only [Machine.encStart, clearTrie, ← h.protPin]
  exact { hhdr with }

theorem AgreesC.startEnabled {b : Build} {c c' : CUnit} (h : AgreesC b c c') : cStartEnabled c = cStartEnabled c' := by
  rw [cStartEnabled, cStartEnabled, h.phase, h.go]

theorem AgreesC.stepEnabled {b : Build} {c c' : CUnit} (h : AgreesC b c c') : cStepEnabled c = cStepEnabled c' := by
  rw [cStepEnabled, cStepEnabled, h.phase]

theorem AgreesC.nextOpC {b : Build} {c c' : CUnit} (h : AgreesC b c c') : nextOpC c = nextOpC c' := by
  rw [Machine.nextOpC, Machine.nextOpC, h.startEnabled, h.stepEnabled]

theorem AgreesC.turnC {b : Build} {c c' : CUnit} (h : AgreesC b c c') : AgreesC b (turnC b c) (turnC b c') := by
  rw [Machine.turnC, Machine.turnC, ← h.startEnabled, ← h.stepEnabled]
  split
  case isTrue => exact h.encStart
  case isFalse =>
    split
    case isTrue hr => exact h.encStep (cStepEnabled_iff.1 hr)
    case isFalse => exact h

/-! ### Unit `D`: unpacker and writer -/

/-- Two bit unpackers with the same block still to deliver; what lies in `bu_buf` outside it may differ. -/
structure SameUnpacker (d d' : DUnit) : Prop where
  idx       : d.buIdx = d'.buIdx
  fin       : d.buEnd = d'.buEnd
  range     : d.buIdx ≤ d.buEnd
  block     : ∀ k < d.buEnd, bufBit d.buBuf k = bufBit d'.buBuf k
  byteIn    : d.byteIn = d'.byteIn
  totalBits : d.totalBits = d'.totalBits

theorem SameUnpacker.takeBit {d d' : DUnit} (h : SameUnpacker d d') (hlt : d.buIdx < d.buEnd) :
    (takeBit d).1 = (takeBit d').1 ∧ SameUnpacker (takeBit d).2 (takeBit d').2 := by
  refine ⟨?_, ⟨?_, h.fin, hlt, h.block, h.byteIn, ?_⟩⟩
  · simp only [Machine.takeBit, ← h.idx, h.block _ hlt]
  · simp only [Machine.takeBit, h.idx]
  · simp only [Machine.takeBit, h.totalBits]

/-- The bits of a block just taken are the same in both buffers, whatever they held. -/
theorem bufBit_load_congr (xs : List Byte) (m m' : Memory) {k : Nat} (hk : k < 8 * xs.length) :
    bufBit (memLoad m 0 xs) k = bufBit (memLoad m' 0 xs) k := by
  rw [bufBit, bufBit, memRead_load_congr xs m m' (by omega)]

theorem SameUnpacker.getBit {d d' : DUnit} (h : SameUnpacker d d') (b : Build) :
    (getBit b d).1 = (getBit b d').1 ∧ SameUnpacker (getBit b d).2 (getBit b d').2 := by
  simp only [Machine.getBit, ← h.idx, ← h.fin, ← h.byteIn]
  split
  · split
    · exact ⟨rfl, ⟨rfl, rfl, h.range, h.block, rfl, h.totalBits⟩⟩
    · rename_i hne
      exact SameUnpacker.takeBit ⟨rfl, rfl, Nat.zero_le _, fun _ => bufBit_load_congr _ _ _, rfl, h.totalBits⟩
        (Nat.mul_pos (by decide) (List.length_pos_iff.2 hne))
  · rename_i hne
    exact h.takeBit (lt_of_le_of_ne h.range hne)

theorem SameUnpacker.getBits (b : Build) (n : Nat) : ∀ {d d' : DUnit}, SameUnpacker d d' →
    (getBits b n d).1 = (getBits b n d').1 ∧ SameUnpacker (getBits b n d).2 (getBits b n d').2 := by
  induction n with
  | zero => exact fun h => ⟨rfl, h⟩
  | succ n ih =>
    intro d d' h
    obtain ⟨hbit, hnext⟩ := h.getBit b
    cases hx : (Machine.getBit b d).1 with
    | none =>
      rw [getBits_none hx, getBits_none (hbit ▸ hx)]
      exact ⟨rfl, hnext⟩
    | some x =>
      rw [getBits_some hx, getBits_some (hbit ▸ hx)]
      obtain ⟨hbits, hrest⟩ := ih hnext
      exact ⟨congrArg (x :: ·) hbits, hrest⟩

/-- Two word writers with the same bytes on their way out; what lies in `ww_buf` from `ww_idx` on may differ. -/
structure SameWriter (d d' : DUnit) : Prop where
  idx       : d.wwIdx = d'.wwIdx
  syms      : outSyms d = outSyms d'
  totalSyms : d.totalSyms = d'.totalSyms

theorem SameWriter.symOut {d d' : DUnit} (h : SameWriter d d') : d.symOut = d'.symOut :=
  List.append_inj_left' h.syms (by simp [h.idx])

theorem wrByte_wwIdx (b : Build) (x : Byte) (d : DUnit) :
    (wrByte b x d).wwIdx = if d.wwIdx + 1 = b.blockBytes then 0 else d.wwIdx + 1 := by
  simp only [wrByte]
  split <;> rfl

theorem SameWriter.wrByte {d d' : DUnit} (h : SameWriter d d') (b : Build) (x : Byte) :
    SameWriter (wrByte b x d) (wrByte b x d') :=
  ⟨by rw [wrByte_wwIdx, wrByte_wwIdx, h.idx], by rw [wrByte_outSyms, wrByte_outSyms, h.syms],
    by rw [wrByte_totalSyms, wrByte_totalSyms, h.totalSyms]⟩

theorem SameWriter.wrWord (b : Build) (word : Word) :
    ∀ {d d' : DUnit}, SameWriter d d' → SameWriter (wrWord b word d) (wrWord b word d') := by
  induction word with
  | nil => exact id
  | cons x xs ih => exact fun h => ih (h.wrByte b x)

theorem SameWriter.wwFlush {d d' : DUnit} (h : SameWriter d d') : SameWriter (wwFlush d) (wwFlush d') := by
  obtain ⟨hout, hidx, _, htotal⟩ := wwFlush_spec d
  obtain ⟨hout', hidx', _, htotal'⟩ := wwFlush_spec d'
  refine ⟨hidx.trans hidx'.symm, ?_, by rw [htotal, htotal', h.totalSyms]⟩
  simp only [outSyms, hidx, hidx', bufSyms_self, hout, hout', List.append_nil]
  exact h.syms

/-- Two units `D` that agree on all a run can still read; the pair latch is written before each read of it (R148). -/
structure AgreesD (d d' : DUnit) : Prop where
  go       : d.go = d'.go
  phase    : d.phase = d'.phase
  status   : d.status = d'.status
  prot     : d.prot = d'.prot
  unpacker : SameUnpacker d d'
  writer   : SameWriter d d'
  table    : d.phase = .run → d.next = d'.next ∧ d.wt = d'.wt

theorem AgreesD.ports {d d' : DUnit} (h : AgreesD d d') : PortsD d d' :=
  ⟨h.phase, h.status, h.prot, h.unpacker.totalBits, h.writer.totalSyms, h.writer.symOut⟩

/-- A unit agrees with itself. -/
theorem AgreesD.refl {d : DUnit} (h : d.buIdx ≤ d.buEnd) : AgreesD d d :=
  ⟨rfl, rfl, rfl, rfl, ⟨rfl, rfl, h, fun _ _ => rfl, rfl, rfl⟩, ⟨rfl, rfl, rfl⟩, fun _ => ⟨rfl, rfl⟩⟩

/-! ### Unit `D`: the driver -/

/-- What the unpacker does to two units that agree, they need only agree on in the unpacker. -/
theorem AgreesD.unpacked {d d' e e' : DUnit} (h : AgreesD d d') (hf : UnpackerFrame d e) (hf' : UnpackerFrame d' e')
    (hu : SameUnpacker e e') : AgreesD e e' := by
  rw [hf.1, hf'.1] at hu ⊢
  exact { h with unpacker := hu, writer := { h.writer with } }

/-- What the writer does to two units that agree, they need only agree on in the writer. -/
theorem AgreesD.written {d d' e e' : DUnit} (h : AgreesD d d') (hf : WriterFrame d e) (hf' : WriterFrame d' e')
    (hw : SameWriter e e') : AgreesD e e' := by
  rw [hf, hf'] at hw ⊢
  exact { h with unpacker := { h.unpacker with }, writer := hw }

theorem AgreesD.flushed {d d' : DUnit} (h : AgreesD d d') : AgreesD (wwFlush d) (wwFlush d') :=
  h.written (wwFlush_frame d) (wwFlush_frame d') h.writer.wwFlush

theorem AgreesD.raise {d d' : DUnit} (h : AgreesD d d') (cause : Cause) : AgreesD (raise cause d) (raise cause d') :=
  { h.flushed with phase := rfl, status := rfl, unpacker := { h.flushed.unpacker with },
                   writer := { h.flushed.writer with }, table := fun hr => nomatch hr }

theorem AgreesD.decStop {d d' : DUnit} (h : AgreesD d d') : AgreesD (decStop d) (decStop d') :=
  { h.flushed with phase := rfl, unpacker := { h.flushed.unpacker with }, writer := { h.flushed.writer with },
                   table := fun hr => nomatch hr }

theorem AgreesD.takeHeader {d d' : DUnit} (h : AgreesD d d') (b : Build) (magic : BitVec 32) (prot : BitVec 16) :
    (takeHeader b magic prot d).1 = (takeHeader b magic prot d').1 ∧
      AgreesD (takeHeader b magic prot d).2 (takeHeader b magic prot d').2 := by
  simp only [Machine.takeHeader]
  split
  · exact ⟨rfl, { h with prot := rfl, unpacker := { h.unpacker with }, writer := { h.writer with } }⟩
  · exact ⟨rfl, h.raise .badMagic⟩

theorem AgreesD.hdrRd {d d' : DUnit} (h : AgreesD d d') (b : Build) :
    (hdrRd b d).1 = (hdrRd b d').1 ∧ AgreesD (hdrRd b d).2 (hdrRd b d').2 := by
  have hread : AgreesD { d with byteIn := (srcRead d.byteIn 6).2 } { d' with byteIn := (srcRead d.byteIn 6).2 } :=
    { h with unpacker := { h.unpacker with byteIn := rfl }, writer := { h.writer with } }
  simp only [Machine.hdrRd, ← h.unpacker.byteIn]
  split
  · exact ⟨rfl, hread.raise .hdrShort⟩
  · exact hread.takeHeader b _ _

/-- A launch writes the counter and the table before either is read (R198). -/
theorem AgreesD.decStart {d d' : DUnit} (h : AgreesD d d') (b : Build) : AgreesD (decStart b d) (decStart b d') := by
  obtain ⟨hflag, hhdr⟩ := h.hdrRd b
  cases ha : (Machine.hdrRd b d).1 with
  | true =>
    rw [decStart_of_accepted ha, decStart_of_accepted (hflag ▸ ha)]
    exact { hhdr with phase := rfl, unpacker := { hhdr.unpacker with }, writer := { hhdr.writer with },
                      table := fun _ => ⟨rfl, rfl⟩ }
  | false =>
    rw [decStart_of_rejected ha, decStart_of_rejected (hflag ▸ ha)]
    exact hhdr

/-- A pair read: the same answers, and the same pair latched if it was complete (R148, R150). -/
theorem AgreesD.rdPair {d d' : DUnit} (h : AgreesD d d') (b : Build) (w : Nat) :
    (rdPair b w d).1 = (rdPair b w d').1 ∧ (rdPair b w d).2.1 = (rdPair b w d').2.1 ∧
      AgreesD (rdPair b w d).2.2 (rdPair b w d').2.2 ∧
      ((rdPair b w d).2.1 = false → (rdPair b w d).2.2.code = (rdPair b w d').2.2.code ∧
        (rdPair b w d).2.2.sym = (rdPair b w d').2.2.sym) := by
  obtain ⟨hbits, hu⟩ := h.unpacker.getBits b (w + 8)
  have hread := h.unpacked (getBits_frame b (w + 8) d) (getBits_frame b (w + 8) d') hu
  refine ⟨by simp only [Machine.rdPair, ← hbits], by simp only [Machine.rdPair, ← hbits], ?_, fun ht => ?_⟩
  · simp only [Machine.rdPair, ← hbits]
    split
    · exact hread
    · exact { hread with unpacker := { hread.unpacker with }, writer := { hread.writer with } }
  · simp only [Machine.rdPair, ← hbits] at ht ⊢
    simp [ht]

theorem AgreesD.storeWord {d d' : DUnit} (h : AgreesD d d') (hnext : d.next = d'.next) (hwt : d.wt = d'.wt) (b : Build)
    (word : Word) : AgreesD (storeWord b word d) (storeWord b word d') := by
  have hw : SameWriter (Machine.wrWord b word { d with wt := storeSet d.wt d.next.toNat word })
      (Machine.wrWord b word { d' with wt := storeSet d'.wt d'.next.toNat word }) :=
    SameWriter.wrWord b word { h.writer with }
  exact { h with unpacker := { h.unpacker with }, writer := { hw with },
                 table := fun _ => ⟨hnext, by simp only [Machine.storeWord, withWriter, hnext, hwt]⟩ }

/-- The counter's advance and the table's reset depend on the counter and the table alone. -/
theorem AgreesD.advanceD {d d' : DUnit} (h : AgreesD d d') (hnext : d.next = d'.next) (hwt : d.wt = d'.wt) (b : Build) :
    AgreesD (advanceD b d) (advanceD b d') := by
  rw [advanceD_eq, advanceD_eq]
  exact { h with unpacker := { h.unpacker with }, writer := { h.writer with },
                 table := fun _ => ⟨by rw [hnext], by rw [hnext, hwt]⟩ }

theorem AgreesD.decData {b : Build} {d d' e : DUnit} (h : AgreesD d d') (hr : d.phase = .run) (hcode : d.code = d'.code)
    (hsym : d.sym = d'.sym) (he : decData b d = .next e) : ∃ e', decData b d' = .next e' ∧ AgreesD e e' := by
  obtain ⟨hnext, hwt⟩ := h.table hr
  simp only [decData_eq_next_iff, ← hcode, ← hsym, ← hnext, ← hwt] at he ⊢
  rcases he with ⟨hv, rfl⟩ | ⟨hv, hc, hn, w, hw, rfl⟩
  · exact ⟨_, .inl ⟨hv, rfl⟩, h.raise .corruptCode⟩
  · have hstore := h.storeWord hnext hwt b (wordAppend w d.sym)
    obtain ⟨hnext', hwt'⟩ := hstore.table hr
    exact ⟨_, .inr ⟨hv, hc, hn, w, hw, rfl⟩, hstore.advanceD hnext' hwt' b⟩

theorem AgreesD.decStep {b : Build} {d d' e : DUnit} (h : AgreesD d d') (hr : d.phase = .run)
    (he : decStep b d = .next e) : ∃ e', decStep b d' = .next e' ∧ AgreesD e e' := by
  obtain ⟨hmore, htrunc, hpair, hlatch⟩ := h.rdPair b (bitlen d.next.toNat)
  have hrun : (Machine.rdPair b (bitlen d.next.toNat) d).2.2.phase = .run :=
    (rdPair_touches b _ d .phase (by simp)).trans hr
  rw [decStep_eq] at he ⊢
  rw [← (h.table hr).1, ← htrunc, ← hmore]
  split at he
  case isTrue ht =>
    cases he
    exact ⟨_, if_pos ht, hpair.raise .corruptTrunc⟩
  case isFalse ht =>
    obtain ⟨hcode, hsym⟩ := hlatch (Bool.eq_false_iff.2 ht)
    rw [if_neg ht]
    split at he
    case isTrue hm =>
      rw [if_pos hm]
      exact hpair.decData hrun hcode hsym he
    case isFalse hm =>
      cases he
      exact ⟨_, if_neg hm, hpair.decStop⟩

theorem AgreesD.startEnabled {d d' : DUnit} (h : AgreesD d d') : dStartEnabled d = dStartEnabled d' := by
  rw [dStartEnabled, dStartEnabled, h.phase, h.go]

theorem AgreesD.stepEnabled {d d' : DUnit} (h : AgreesD d d') : dStepEnabled d = dStepEnabled d' := by
  rw [dStepEnabled, dStepEnabled, h.phase]

theorem AgreesD.turnD {b : Build} {d d' e : DUnit} (h : AgreesD d d') (he : turnD b d = .next e) :
    ∃ e', turnD b d' = .next e' ∧ AgreesD e e' := by
  rw [Machine.turnD] at he ⊢
  rw [← h.startEnabled, ← h.stepEnabled]
  split at he
  case isTrue hs =>
    cases he
    exact ⟨_, if_pos hs, h.decStart b⟩
  case isFalse hs =>
    rw [if_neg hs]
    split at he
    case isTrue hr =>
      rw [if_pos hr]
      exact h.decStep (dStepEnabled_iff.1 hr) he
    case isFalse hr =>
      cases he
      exact ⟨_, if_neg hr, h⟩

/-! ### The machine -/

/-- Two machines that agree on all a run can still read. -/
structure Agrees (s s' : State) : Prop where
  build : s.build = s'.build
  sched : s.sched = s'.sched
  c     : AgreesC s.build s.c s'.c
  d     : AgreesD s.d s'.d

/-- A result that goes on has a partner that agrees with it in the other machine. -/
def Follows (o o' : Host.Outcome State Fault Refusal) : Prop :=
  ∀ t, o = .next t → ∃ t', o' = .next t' ∧ Agrees t t'

theorem Follows.of_agrees {t t' : State} (h : Agrees t t') : Follows (.next t) (.next t') := by
  rintro _ ⟨⟩
  exact ⟨t', rfl, h⟩

theorem Follows.refused (r : Refusal) (o' : Host.Outcome State Fault Refusal) : Follows (.refused r) o' :=
  fun _ h => nomatch h

theorem Agrees.setC {s s' : State} (h : Agrees s s') {c c' : CUnit} (hc : AgreesC s.build c c') :
    Agrees (s.setC c) (s'.setC c') := { h with c := hc }

theorem Agrees.setD {s s' : State} (h : Agrees s s') {d d' : DUnit} (hd : AgreesD d d') :
    Agrees (s.setD d) (s'.setD d') := { h with d := hd }

theorem Agrees.setRet {s s' : State} (h : Agrees s s') (r r' : Ret) : Agrees (s.setRet r) (s'.setRet r') := { h with }

theorem Agrees.popEvent {s s' : State} (h : Agrees s s') : Agrees (popEvent s) (popEvent s') :=
  { h with sched := congrArg List.tail h.sched }

/-- Unit `C`'s enabled operation makes its turn. -/
theorem runOp_nextOpC (s : State) :
    ∃ r, runOp (nextOpC s.c) s = .next ((s.setC (turnC s.build s.c)).setRet r) := by
  obtain ⟨r, hr⟩ := step_turn_c (s := s.setSched (.turn .c :: s.sched)) rfl
  rw [step_of_turn_c rfl] at hr
  exact ⟨r, hr⟩

/-- Unit `D`'s enabled operation makes its turn. -/
theorem runOp_nextOpD (s : State) :
    ∃ r, runOp (nextOpD s.d) s = andThen (turnD s.build s.d) (fun d => .next ((s.setD d).setRet r)) := by
  rw [nextOpD, turnD]
  split
  case isTrue h => exact ⟨.nothing, exec_dStart_of_enabled h⟩
  case isFalse =>
    split
    case isTrue h => exact ⟨.nothing, exec_dStep_of_enabled h⟩
    case isFalse => exact ⟨s.ret, rfl⟩

theorem Agrees.runOpC {s s' : State} (h : Agrees s s') :
    Follows (runOp (nextOpC s.c) s) (runOp (nextOpC s'.c) s') := by
  obtain ⟨r, hr⟩ := runOp_nextOpC s
  obtain ⟨r', hr'⟩ := runOp_nextOpC s'
  rw [hr, hr', ← h.build]
  exact .of_agrees ((h.setC h.c.turnC).setRet r r')

theorem Agrees.runOpD {s s' : State} (h : Agrees s s') :
    Follows (runOp (nextOpD s.d) s) (runOp (nextOpD s'.d) s') := by
  obtain ⟨r, hr⟩ := runOp_nextOpD s
  obtain ⟨r', hr'⟩ := runOp_nextOpD s'
  rw [hr, hr', ← h.build]
  intro t ht
  obtain ⟨e, he, hend⟩ := andThen_eq_next ht
  obtain ⟨e', he', hee⟩ := h.d.turnD he
  cases hend
  exact ⟨_, by rw [he', andThen_next], (h.setD hee).setRet r r'⟩

/-- A guarded move goes on in both machines or in neither, as both read the guard alike. -/
theorem Follows.guarded {p p' : Prop} [Decidable p] [Decidable p'] (hp : p ↔ p') {t t' : State} (h : Agrees t t')
    (r : Refusal) : Follows (if p then .next t else .refused r) (if p' then .next t' else .refused r) := by
  by_cases hg : p
  · rw [if_pos hg, if_pos (hp.1 hg)]
    exact .of_agrees h
  · rw [if_neg hg]
    exact .refused _ _

theorem Agrees.hostByteIn {s s' : State} (h : Agrees s s') (tape : List Byte) :
    Follows (hostByteIn tape s) (hostByteIn tape s') := by
  refine .guarded ?_ (h.setD ?_) _
  · rw [h.d.phase, h.d.go]
  · exact { h.d with unpacker := { h.d.unpacker with byteIn := rfl }, writer := { h.d.writer with } }

theorem Agrees.hostStep {s s' : State} (h : Agrees s s') (m : HostMove) :
    Follows (hostStep m s) (hostStep m s') := by
  cases m with
  | pulseCRst =>
    have hpulse : pulseC s.c = pulseC s'.c := by rw [pulseC, pulseC, h.c.protPin, h.c.reader.symIn]
    exact .of_agrees (h.setC (hpulse ▸ .refl _ (Nat.le_refl 0)))
  | pulseDRst =>
    have hpulse : pulseD s.d = pulseD s'.d := by rw [pulseD, pulseD, h.d.unpacker.byteIn]
    exact .of_agrees (h.setD (hpulse ▸ .refl (Nat.le_refl 0)))
  | supplySymIn tape =>
    refine .guarded ?_ (h.setC ?_) _
    · rw [h.c.phase, h.c.go]
    · exact { h.c with packer := { h.c.packer with }, reader := { h.c.reader with symIn := rfl },
                       walk := fun hr => { h.c.walk hr with } }
  | supplyByteIn tape => exact h.hostByteIn tape
  | carry =>
    by_cases hd : s.c.phase = .done
    · simp only [Machine.hostStep, hostCarry, if_pos hd, if_pos (h.c.phase ▸ hd), ← h.c.packer.byteOut]
      exact h.hostByteIn _
    · simp only [Machine.hostStep, hostCarry, if_neg hd]
      exact .refused _ _
  | driveCProt prot =>
    by_cases hg : s.c.phase = .idle ∧ s.c.go = true
    · simp only [Machine.hostStep, hostProt, if_pos hg]
      exact .refused _ _
    · have hg' : ¬(s'.c.phase = .idle ∧ s'.c.go = true) := by rwa [← h.c.phase, ← h.c.go]
      simp only [Machine.hostStep, hostProt, if_neg hg, if_neg hg']
      exact .of_agrees (h.setC { h.c with protPin := rfl, packer := { h.c.packer with }, reader := { h.c.reader with },
                                          walk := fun hr => { h.c.walk hr with } })
  | setCGo =>
    refine .guarded ?_ (h.setC ?_) _
    · rw [h.c.phase, h.c.go]
    · exact { h.c with go := rfl, packer := { h.c.packer with }, reader := { h.c.reader with },
                       walk := fun hr => { h.c.walk hr with } }
  | setDGo =>
    refine .guarded ?_ (h.setD ?_) _
    · rw [h.d.phase, h.d.go]
    · exact { h.d with go := rfl, unpacker := { h.d.unpacker with }, writer := { h.d.writer with } }

/-- Machines that agree step alike: the same event, the same enabled operation, and units that still agree. -/
theorem Agrees.step {s s' : State} (h : Agrees s s') : Follows (step s) (step s') := by
  cases hs : s.sched with
  | nil =>
    have hs' : s'.sched = [] := h.sched ▸ hs
    rw [step_of_no_event hs, step_of_no_event hs']
    cases hc : nextOpC s.c with
    | some i =>
      rw [defaultOp_of_nextOpC_some hc, defaultOp_of_nextOpC_some (h.c.nextOpC ▸ hc), ← hc]
      have := h.runOpC
      rwa [← h.c.nextOpC] at this
    | none =>
      rw [defaultOp_of_nextOpC_none hc, defaultOp_of_nextOpC_none (h.c.nextOpC ▸ hc)]
      exact h.runOpD
  | cons e es =>
    have hs' : s'.sched = e :: es := h.sched ▸ hs
    simp only [Machine.step, hs, hs']
    cases e with
    | turn a =>
      cases a with
      | c => exact h.popEvent.runOpC
      | d => exact h.popEvent.runOpD
    | host m => exact h.popEvent.hostStep m

theorem Agrees.runSteps (k : Nat) : ∀ {s s' : State}, Agrees s s' → Follows (runSteps k s) (runSteps k s') := by
  induction k with
  | zero => exact fun h => .of_agrees h
  | succ k ih =>
    intro s s' h t ht
    obtain ⟨u, hu, hrest⟩ := andThen_eq_next ht
    obtain ⟨u', hu', huu⟩ := h.step u hu
    obtain ⟨t', ht', htt⟩ := ih huu t hrest
    exact ⟨t', by rw [Machine.runSteps, hu', andThen_next, ht'], htt⟩

/-- Two units `C` after reset agree whatever R43 leaves unspecified: nothing is buffered, and no walk has begun. -/
theorem agreesC_resetFrom (b : Build) (u u' : CUnit) (go : Bool) (prot : BitVec 16) (symIn : InTape) :
    AgreesC b { u.resetFrom with go := go, protPin := prot, symIn := symIn }
      { u'.resetFrom with go := go, protPin := prot, symIn := symIn } where
  go := rfl
  protPin := rfl
  phase := rfl
  status := rfl
  packer := ⟨rfl, rfl, rfl⟩
  reader := ⟨rfl, rfl, Nat.le_refl 0, fun _ hk => absurd hk (Nat.not_lt_zero _), rfl, rfl⟩
  walk := fun hr => nomatch hr

/-- Two units `D` after reset agree whatever R43 leaves unspecified: nothing is buffered, and no table has been seeded. -/
theorem agreesD_resetFrom (u u' : DUnit) (go : Bool) (byteIn : InTape) :
    AgreesD { u.resetFrom with go := go, byteIn := byteIn } { u'.resetFrom with go := go, byteIn := byteIn } where
  go := rfl
  phase := rfl
  status := rfl
  prot := rfl
  unpacker := ⟨rfl, rfl, Nat.le_refl 0, fun _ hk => absurd hk (Nat.not_lt_zero _), rfl, rfl⟩
  writer := ⟨rfl, rfl, rfl⟩
  table := fun hr => nomatch hr

/-- Settles O60: the two systems agree after reset, every step keeps that, and agreement covers the ports. -/
theorem unspecifiedStateIsNeverRead : Obligations.UnspecifiedStateIsNeverRead := by
  intro b uc uc' ud ud' goC goD prot symIn byteIn es k t _ ht
  refine (Agrees.runSteps k ?_ t ht).imp fun t' ⟨ht', h⟩ => ⟨ht', h.c.ports, h.d.ports, h.sched⟩
  exact ⟨rfl, rfl, agreesC_resetFrom b uc uc' goC prot _, agreesD_resetFrom ud ud' goD _⟩

end Sys2Proof.Machine
end

section
/-! The block size does not show (R84): two units of builds that differ in `BLOCK_BYTES` alone, fed the same stream,
have produced the same stream after every step, wherever their blocks end. -/

namespace Sys2Proof.Machine

/-! ### The other build -/

/-- A build with another block size. -/
abbrev withBlock (b : Build) (n : Nat) : Build := { b with blockBytes := n }

theorem withBlock_admitted {b : Build} {n : Nat} (hb : b.Admitted) (hn : 1 ≤ n) : (withBlock b n).Admitted := by
  obtain ⟨h1, h2, h3, h4, h5, h6, h7, _⟩ := hb
  exact ⟨h1, h2, h3, h4, h5, h6, h7, hn⟩

/-- In its operand range `PRIM.INCCODE` does not read the block size (R126); outside it the result is free (log 12). -/
theorem incCode_withBlock {b : Build} {m : Code} (h : CounterOk b m) (n : Nat) :
    incCode (withBlock b n) m = incCode b m := by
  have ha : assignable b m = true := by simp [assignable, h.1, h.2]
  have ha' : assignable (withBlock b n) m = true := ha
  simp only [incCode, ha, ha', if_true]

/-! ### Unit `C` -/

/-- Two units `C` that hold the same streams: what is in a buffer and what is on a tape may be split differently. -/
structure TwinC (c c' : CUnit) : Prop where
  go        : c.go = c'.go
  protPin   : c.protPin = c'.protPin
  phase     : c.phase = c'.phase
  status    : c.status = c'.status
  cur       : c.cur = c'.cur
  par       : c.par = c'.par
  lsym      : c.lsym = c'.lsym
  next      : c.next = c'.next
  trie      : c.trie = c'.trie
  produced  : outBits c = outBits c'
  totalBits : c.totalBits = c'.totalBits
  ahead     : inSyms c = inSyms c'
  totalSyms : c.totalSyms = c'.totalSyms

theorem TwinC.refl (c : CUnit) : TwinC c c := ⟨rfl, rfl, rfl, rfl, rfl, rfl, rfl, rfl, rfl, rfl, rfl, rfl, rfl⟩

/-- Once both packers are flushed, the tapes themselves agree. -/
theorem TwinC.ports {c c' : CUnit} (h : TwinC c c') (hi : c.bpIdx = 0) (hi' : c'.bpIdx = 0) : PortsC c c' := by
  refine ⟨h.phase, h.status, h.totalSyms, h.totalBits, unpack_injective ?_⟩
  rw [← outBits_of_idx_zero hi, ← outBits_of_idx_zero hi', h.produced]

/-- What the packer does to twins, they need only agree on in the bits produced. -/
theorem TwinC.packed {c c' e e' : CUnit} (h : TwinC c c') (hf : PackerFrame c e) (hf' : PackerFrame c' e')
    (hp : outBits e = outBits e') (ht : e.totalBits = e'.totalBits) : TwinC e e' := by
  rw [hf, hf'] at hp ht ⊢
  exact { h with produced := hp, totalBits := ht }

/-- What the reader does to twins, they need only agree on in the symbols still ahead. -/
theorem TwinC.read {c c' e e' : CUnit} (h : TwinC c c') (hf : ReaderFrame c e) (hf' : ReaderFrame c' e')
    (hs : inSyms e = inSyms e') (ht : e.totalSyms = e'.totalSyms) : TwinC e e' := by
  rw [hf.1, hf'.1] at hs ht ⊢
  exact { h with ahead := hs, totalSyms := ht }

theorem TwinC.wrPair {c c' : CUnit} (h : TwinC c c') (b b' : Build) (code : Code) (sym : Byte) (w : Nat) :
    TwinC (wrPair b code sym w c) (wrPair b' code sym w c') :=
  h.packed (wrPair_frame b code sym w c) (wrPair_frame b' code sym w c')
    (by rw [wrPair_outBits, wrPair_outBits, h.produced]) (by rw [wrPair_totalBits, wrPair_totalBits, h.totalBits])

/-- The pad of a flush depends on how many bits have been produced, not on where the buffer stands (R134, R93). -/
theorem bpFlush_outBits (c : CUnit) :
    outBits (bpFlush c) = outBits c ++ List.replicate ((8 - (outBits c).length % 8) % 8) false := by
  obtain ⟨htape, hidx, _⟩ := bpFlush_spec c
  have hlen : (outBits c).length = 8 * c.byteOut.length + c.bpIdx := by simp [outBits]
  rw [outBits_of_idx_zero hidx, htape]
  congr 2
  omega

theorem TwinC.bpFlush {c c' : CUnit} (h : TwinC c c') : TwinC (bpFlush c) (bpFlush c') := by
  obtain ⟨_, _, htotal⟩ := bpFlush_spec c
  obtain ⟨_, _, htotal'⟩ := bpFlush_spec c'
  exact h.packed (bpFlush_frame c) (bpFlush_frame c') (by rw [bpFlush_outBits, bpFlush_outBits, h.produced])
    (by rw [htotal, htotal', h.totalBits])

theorem TwinC.rdSym {b b' : Build} {c c' : CUnit} (h : TwinC c c') (hb : b.Admitted) (hb' : b'.Admitted)
    (hs : ReaderOk b c) (hs' : ReaderOk b' c') :
    (rdSym b c).1 = (rdSym b' c').1 ∧ TwinC (rdSym b c).2 (rdSym b' c').2 := by
  obtain ⟨_, _, _, _, _, _, _, hpos⟩ := hb
  obtain ⟨_, _, _, _, _, _, _, hpos'⟩ := hb'
  cases hin : inSyms c with
  | nil =>
    rw [rdSym_end hs hin, rdSym_end hs' (h.ahead ▸ hin)]
    exact ⟨rfl, h⟩
  | cons x xs =>
    obtain ⟨hx, hrest, htotal, hf, _⟩ := rdSym_spec hpos hs hin
    obtain ⟨hx', hrest', htotal', hf', _⟩ := rdSym_spec hpos' hs' (h.ahead ▸ hin)
    exact ⟨hx.trans hx'.symm, h.read hf hf' (hrest.trans hrest'.symm) (by rw [htotal, htotal', h.totalSyms])⟩

section
variable {b : Build} {n : Nat} {c c' : CUnit}

theorem TwinC.advanceC (h : TwinC c c') (hn : CounterOk b c.next) :
    TwinC (advanceC b c) (advanceC (withBlock b n) c') := by
  rw [advanceC_eq, advanceC_eq, ← h.next, incCode_withBlock hn n, ← h.trie]
  exact { h with next := rfl, trie := rfl }

theorem TwinC.missCore (h : TwinC c c') (x : Byte) : TwinC (missCore b x c) (missCore (withBlock b n) x c') := by
  have hpair := h.wrPair b (withBlock b n) c.cur x (bitlen c.next.toNat)
  have hprod : outBits (Machine.missCore b x c) = outBits (Machine.missCore (withBlock b n) x c') := by
    rw [missCore_outBits, missCore_outBits, h.produced, h.cur, h.next]
  simp only [Machine.missCore, ← h.cur, ← h.next, ← h.trie] at hprod ⊢
  exact { h with cur := rfl, trie := rfl, produced := hprod, totalBits := hpair.totalBits }

theorem TwinC.encSym (h : TwinC c c') (hn : CounterOk b c.next) (x : Byte) :
    TwinC (encSym b x c) (encSym (withBlock b n) x c') := by
  cases hg : trieGet c.trie c.cur x with
  | some child =>
    have hg' : trieGet c'.trie c'.cur x = some child := by rw [← h.trie, ← h.cur, hg]
    rw [encSym_match hg, encSym_match hg']
    exact { h with par := h.cur, cur := rfl, lsym := rfl }
  | none =>
    have hg' : trieGet c'.trie c'.cur x = none := by rw [← h.trie, ← h.cur, hg]
    rw [encSym_miss hg, encSym_miss hg']
    exact { (h.missCore x).advanceC hn with lsym := rfl }

theorem TwinC.finalPair (h : TwinC c c') (hn : CounterOk b c.next) :
    TwinC (finalPair b c) (finalPair (withBlock b n) c') := by
  by_cases hc : c.cur = b.emptyCode
  · rw [finalPair_root hc, finalPair_root (b := withBlock b n) (h.cur ▸ hc)]
    exact h
  · rw [finalPair_pending hc, finalPair_pending (b := withBlock b n) (h.cur ▸ hc)]
    have hpair := h.wrPair b (withBlock b n) c.par c.lsym (bitlen c.next.toNat)
    have hcore : TwinC (finalCore b c) (finalCore (withBlock b n) c') := by
      simp only [finalCore, ← h.par, ← h.lsym, ← h.next]
      exact { h with cur := rfl, produced := hpair.produced, totalBits := hpair.totalBits }
    exact hcore.advanceC hn

theorem TwinC.encEnd (h : TwinC c c') (hn : CounterOk b c.next) :
    TwinC (encEnd b c) (encEnd (withBlock b n) c') := by
  have hf : TwinC (Machine.finalPair b c) (Machine.finalPair (withBlock b n) c') := h.finalPair hn
  simp only [Machine.encEnd, ← hf.next]
  exact { (hf.wrPair b (withBlock b n) _ _ _).bpFlush with phase := rfl }

theorem TwinC.encStep (h : TwinC c c') (hb : b.Admitted) (hb' : (withBlock b n).Admitted) (hs : CShape b c)
    (hs' : CShape (withBlock b n) c') (hr : c.phase = .run) : TwinC (encStep b c) (encStep (withBlock b n) c') := by
  obtain ⟨hsym, hread⟩ := h.rdSym hb hb' hs.buffers.reader hs'.buffers.reader
  have hn : CounterOk b (Machine.rdSym b c).2.next := by
    obtain ⟨_, _, _, hnext, _⟩ := (rdSym_frame b c).walk
    exact hnext ▸ hs.counter hr
  cases hx : (Machine.rdSym b c).1 with
  | some x =>
    rw [encStep_of_some hx, encStep_of_some (hsym ▸ hx)]
    exact hread.encSym hn x
  | none =>
    rw [encStep_of_none hx, encStep_of_none (hsym ▸ hx)]
    exact hread.encEnd hn

/-- A header goes straight to the tape; with nothing buffered it follows the bits produced so far (R210). -/
theorem hdrWr_outBits (b : Build) (prot : BitVec 16) {c : CUnit} (h : c.bpIdx = 0) :
    outBits (hdrWr b prot c) = outBits c ++ unpack (headerBytes b.magic prot) := by
  simp [outBits, hdrWr, sinkWrite, h]

theorem TwinC.encStart (h : TwinC c c') (hi : c.bpIdx = 0) (hi' : c'.bpIdx = 0) :
    TwinC (encStart b c) (encStart (withBlock b n) c') := by
  have hprod : outBits (hdrWr b c.protPin c) = outBits (hdrWr (withBlock b n) c'.protPin c') := by
    rw [hdrWr_outBits b _ hi, hdrWr_outBits _ _ hi', h.produced, h.protPin]
  exact { h with phase := rfl, cur := rfl, next := rfl, trie := rfl, produced := hprod }

theorem TwinC.startEnabled (h : TwinC c c') : cStartEnabled c = cStartEnabled c' := by
  rw [cStartEnabled, cStartEnabled, h.phase, h.go]

theorem TwinC.stepEnabled (h : TwinC c c') : cStepEnabled c = cStepEnabled c' := by
  rw [cStepEnabled, cStepEnabled, h.phase]

theorem TwinC.nextOpC (h : TwinC c c') : nextOpC c = nextOpC c' := by
  rw [Machine.nextOpC, Machine.nextOpC, h.startEnabled, h.stepEnabled]

theorem TwinC.turnC (h : TwinC c c') (hb : b.Admitted) (hb' : (withBlock b n).Admitted) (hs : CShape b c)
    (hs' : CShape (withBlock b n) c') : TwinC (turnC b c) (turnC (withBlock b n) c') := by
  rw [Machine.turnC, Machine.turnC, ← h.startEnabled, ← h.stepEnabled]
  split
  case isTrue he =>
    obtain ⟨hidle, _⟩ := cStartEnabled_iff.1 he
    have hrun : c.phase ≠ .run := by simp [hidle]
    exact h.encStart (hs.flushed hrun) (hs'.flushed (h.phase ▸ hrun))
  case isFalse =>
    split
    case isTrue he => exact h.encStep hb hb' hs hs' (cStepEnabled_iff.1 he)
    case isFalse => exact h

end

/-! ### Unit `D` -/

/-- Two units `D` that hold the same streams: what is in a buffer and what is on a tape may be split differently. -/
structure TwinD (d d' : DUnit) : Prop where
  go        : d.go = d'.go
  phase     : d.phase = d'.phase
  status    : d.status = d'.status
  prot      : d.prot = d'.prot
  next      : d.next = d'.next
  code      : d.code = d'.code
  sym       : d.sym = d'.sym
  wt        : d.wt = d'.wt
  ahead     : inBits d = inBits d'
  totalBits : d.totalBits = d'.totalBits
  produced  : outSyms d = outSyms d'
  totalSyms : d.totalSyms = d'.totalSyms

theorem TwinD.refl (d : DUnit) : TwinD d d := ⟨rfl, rfl, rfl, rfl, rfl, rfl, rfl, rfl, rfl, rfl, rfl, rfl⟩

/-- With both writers flushed, the tapes themselves agree. -/
theorem TwinD.ports {d d' : DUnit} (h : TwinD d d') (hi : d.wwIdx = 0) (hi' : d'.wwIdx = 0) : PortsD d d' := by
  have hout := h.produced
  simp only [outSyms, hi, hi', bufSyms_self, List.append_nil] at hout
  exact ⟨h.phase, h.status, h.prot, h.totalBits, h.totalSyms, hout⟩

/-- What the unpacker does to twins, they need only agree on in the bits still ahead. -/
theorem TwinD.unpacked {d d' e e' : DUnit} (h : TwinD d d') (hf : UnpackerFrame d e) (hf' : UnpackerFrame d' e')
    (ha : inBits e = inBits e') (ht : e.totalBits = e'.totalBits) : TwinD e e' := by
  rw [hf.1, hf'.1] at ha ht ⊢
  exact { h with ahead := ha, totalBits := ht }

theorem TwinD.raise {d d' : DUnit} (h : TwinD d d') (cause : Cause) : TwinD (raise cause d) (raise cause d') := by
  rw [raise_spec, raise_spec, ← h.produced]
  exact { h with phase := rfl, status := rfl, produced := by simp [outSyms] }

theorem TwinD.decStop {d d' : DUnit} (h : TwinD d d') : TwinD (decStop d) (decStop d') := by
  rw [decStop_eq, decStop_eq, ← h.produced]
  exact { h with phase := rfl, produced := by simp [outSyms] }

theorem TwinD.latch {d d' : DUnit} (h : TwinD d d') (code : Code) (sym : Byte) :
    TwinD { d with code := code, sym := sym } { d' with code := code, sym := sym } :=
  { h with code := rfl, sym := rfl }

/-- `D.STEP` with a whole pair ahead (R196, R197): the pair latched, then the stop or the data pair's effect. -/
theorem decStep_of_pair_ahead {b : Build} {d : DUnit} (hb : 1 ≤ b.blockBytes) (h : UnpackerOk b d) {w : Nat}
    (hw : w = bitlen d.next.toNat) (hl : w + 8 ≤ (inBits d).length) :
    ∃ u, decStep b d = (if nextCode d w = b.stopCode then
          .next (decStop { u with code := nextCode d w, sym := nextSym d w })
        else decData b { u with code := nextCode d w, sym := nextSym d w }) ∧
      inBits u = (inBits d).drop (w + 8) ∧ u.totalBits = d.totalBits + BitVec.ofNat 64 (w + 8) ∧ UnpackerFrame d u := by
  have hcode : pairCode w ((inBits d).take (w + 8)) = nextCode d w := by simp [pairCode, nextCode, List.take_take]
  have hsym : pairSym w ((inBits d).take (w + 8)) = nextSym d w := by
    simp [pairSym, nextSym, List.drop_take, List.take_take]
  obtain ⟨u, hstep, hrest, htotal, hf, _⟩ := decStep_complete hb h hw (List.length_take_of_le hl)
    (List.take_append_drop (w + 8) (inBits d)).symm
  rw [hcode, hsym] at hstep
  exact ⟨u, hstep, hrest, htotal, hf⟩

/-- With no bit buffered, the bits ahead are those of the tape. -/
theorem inBits_of_drained {d : DUnit} (h : d.buIdx = d.buEnd) : inBits d = unpack (unread d.byteIn) := by
  simp [inBits, h]

section
variable {b : Build} {n : Nat} {d d' : DUnit}

theorem TwinD.takeHeader (h : TwinD d d') (magic : BitVec 32) (prot : BitVec 16) :
    (takeHeader b magic prot d).1 = (takeHeader (withBlock b n) magic prot d').1 ∧
      TwinD (takeHeader b magic prot d).2 (takeHeader (withBlock b n) magic prot d').2 := by
  simp only [Machine.takeHeader]
  split
  · exact ⟨rfl, { h with prot := rfl }⟩
  · exact ⟨rfl, h.raise .badMagic⟩

/-- The header is read past the bit buffer, so nothing may be buffered (R70, R212). -/
theorem TwinD.hdrRd (h : TwinD d d') (hi : d.buIdx = d.buEnd) (hi' : d'.buIdx = d'.buEnd) :
    (hdrRd b d).1 = (hdrRd (withBlock b n) d').1 ∧ TwinD (hdrRd b d).2 (hdrRd (withBlock b n) d').2 := by
  have htape : unread d.byteIn = unread d'.byteIn :=
    unpack_injective (by rw [← inBits_of_drained hi, ← inBits_of_drained hi', h.ahead])
  obtain ⟨hblk, hrest, _⟩ := srcRead_spec d.byteIn 6
  obtain ⟨hblk', hrest', _⟩ := srcRead_spec d'.byteIn 6
  have hread : TwinD { d with byteIn := (srcRead d.byteIn 6).2 } { d' with byteIn := (srcRead d'.byteIn 6).2 } := by
    refine { h with ahead := ?_ }
    simp only [inBits, hi, hi', bufBits_self, hrest, hrest', htape]
  have hsame : (srcRead d'.byteIn 6).1 = (srcRead d.byteIn 6).1 := by rw [hblk, hblk', htape]
  simp only [Machine.hdrRd, hsame]
  split
  · exact ⟨rfl, hread.raise .hdrShort⟩
  · exact hread.takeHeader _ _

theorem TwinD.decStart (h : TwinD d d') (hi : d.buIdx = d.buEnd) (hi' : d'.buIdx = d'.buEnd) :
    TwinD (decStart b d) (decStart (withBlock b n) d') := by
  obtain ⟨hflag, hhdr⟩ := h.hdrRd (b := b) (n := n) hi hi'
  cases ha : (Machine.hdrRd b d).1 with
  | true =>
    rw [decStart_of_accepted ha, decStart_of_accepted (hflag ▸ ha)]
    exact { hhdr with phase := rfl, next := rfl, wt := rfl }
  | false =>
    rw [decStart_of_rejected ha, decStart_of_rejected (hflag ▸ ha)]
    exact hhdr

theorem TwinD.advanceD (h : TwinD d d') (hn : CounterOk b d.next) :
    TwinD (advanceD b d) (advanceD (withBlock b n) d') := by
  rw [advanceD_eq, advanceD_eq, ← h.next, incCode_withBlock hn n, ← h.wt]
  exact { h with next := rfl, wt := rfl }

theorem storeWord_totalSyms (b : Build) (word : Word) (d : DUnit) :
    (storeWord b word d).totalSyms = d.totalSyms + BitVec.ofNat 64 word.length :=
  wrWord_totalSyms b word { d with wt := storeSet d.wt d.next.toNat word }

theorem TwinD.storeWord (h : TwinD d d') (b b' : Build) (word : Word) :
    TwinD (storeWord b word d) (storeWord b' word d') := by
  have hprod : outSyms (Machine.storeWord b word d) = outSyms (Machine.storeWord b' word d') := by
    rw [storeWord_outSyms, storeWord_outSyms, h.produced]
  have htotal : (Machine.storeWord b word d).totalSyms = (Machine.storeWord b' word d').totalSyms := by
    rw [storeWord_totalSyms, storeWord_totalSyms, h.totalSyms]
  have hwt : (Machine.storeWord b word d).wt = (Machine.storeWord b' word d').wt := by
    simp only [Machine.storeWord, withWriter, h.wt, h.next]
  exact { h with wt := hwt, produced := hprod, totalSyms := htotal }

theorem TwinD.decData {e : DUnit} (h : TwinD d d') (hn : CounterOk b d.next) (he : decData b d = .next e) :
    ∃ e', decData (withBlock b n) d' = .next e' ∧ TwinD e e' := by
  simp only [decData_eq_next_iff, ← h.code, ← h.sym, ← h.next, ← h.wt] at he ⊢
  rcases he with ⟨hv, rfl⟩ | ⟨hv, hc, hlt, w, hw, rfl⟩
  · exact ⟨_, .inl ⟨hv, rfl⟩, h.raise .corruptCode⟩
  · exact ⟨_, .inr ⟨hv, hc, hlt, w, hw, rfl⟩, (h.storeWord b (withBlock b n) _).advanceD hn⟩

theorem TwinD.decStep {e : DUnit} (h : TwinD d d') (hb : b.Admitted) (hb' : (withBlock b n).Admitted)
    (hs : DShape b d) (hs' : DShape (withBlock b n) d') (hr : d.phase = .run) (he : decStep b d = .next e) :
    ∃ e', decStep (withBlock b n) d' = .next e' ∧ TwinD e e' := by
  obtain ⟨_, _, _, _, _, _, _, hpos⟩ := hb
  obtain ⟨_, _, _, _, _, _, _, hpos'⟩ := hb'
  by_cases hl : (inBits d).length < bitlen d.next.toNat + 8
  · obtain ⟨u, hstep, hrest, htotal, hf, _⟩ := decStep_trunc hpos hs.unpacker hl
    obtain ⟨u', hstep', hrest', htotal', hf', _⟩ :=
      decStep_trunc hpos' hs'.unpacker (by rw [← h.ahead, ← h.next]; exact hl)
    cases hstep.symm.trans he
    have hu := h.unpacked hf hf' (hrest.trans hrest'.symm) (by rw [htotal, htotal', h.totalBits, h.ahead])
    exact ⟨_, hstep', hu.raise .corruptTrunc⟩
  · have hcode : nextCode d' (bitlen d.next.toNat) = nextCode d (bitlen d.next.toNat) := by
      rw [nextCode, nextCode, h.ahead]
    have hsym : nextSym d' (bitlen d.next.toNat) = nextSym d (bitlen d.next.toNat) := by
      rw [nextSym, nextSym, h.ahead]
    obtain ⟨u, hstep, hrest, htotal, hf⟩ := decStep_of_pair_ahead hpos hs.unpacker rfl (Nat.le_of_not_lt hl)
    obtain ⟨u', hstep', hrest', htotal', hf'⟩ :=
      decStep_of_pair_ahead hpos' hs'.unpacker (congrArg (fun m : Code => bitlen m.toNat) h.next)
        (h.ahead ▸ Nat.le_of_not_lt hl)
    have hu := (h.unpacked hf hf' (by rw [hrest, hrest', h.ahead]) (by rw [htotal, htotal', h.totalBits])).latch
      (nextCode d (bitlen d.next.toNat)) (nextSym d (bitlen d.next.toNat))
    rw [hcode, hsym] at hstep'
    rw [he] at hstep
    rw [hstep']
    split at hstep
    case isTrue hstop =>
      cases hstep
      exact ⟨_, if_pos hstop, hu.decStop⟩
    case isFalse hstop =>
      have hnext : u.next = d.next := hf.touches .next (by simp)
      rw [if_neg hstop]
      exact hu.decData (hnext ▸ hs.counter hr) hstep.symm

theorem TwinD.turnD {e : DUnit} (h : TwinD d d') (hb : b.Admitted) (hb' : (withBlock b n).Admitted)
    (hs : DShape b d) (hs' : DShape (withBlock b n) d') (he : turnD b d = .next e) :
    ∃ e', turnD (withBlock b n) d' = .next e' ∧ TwinD e e' := by
  have hstart : dStartEnabled d' = dStartEnabled d := by rw [dStartEnabled, dStartEnabled, h.phase, h.go]
  have hstep : dStepEnabled d' = dStepEnabled d := by rw [dStepEnabled, dStepEnabled, h.phase]
  simp only [Machine.turnD, hstart, hstep] at he ⊢
  split at he
  case isTrue hen =>
    cases he
    obtain ⟨hidle, _⟩ := dStartEnabled_iff.1 hen
    obtain ⟨_, _, hdrained, _⟩ := hs.idle hidle
    obtain ⟨_, _, hdrained', _⟩ := hs'.idle (h.phase ▸ hidle)
    exact ⟨_, if_pos hen, h.decStart hdrained hdrained'⟩
  case isFalse hen =>
    rw [if_neg hen]
    split at he
    case isTrue hrun =>
      rw [if_pos hrun]
      exact h.decStep hb hb' hs hs' (dStepEnabled_iff.1 hrun) he
    case isFalse hrun =>
      cases he
      exact ⟨_, if_neg hrun, h⟩

end

/-! ### Two systems that differ in the block size -/

/-- Two systems whose builds differ in the block size alone, with no event to come and the same streams in their
units. -/
structure Twins (n : Nat) (s s' : State) : Prop where
  inv    : Inv s
  inv'   : Inv s'
  build  : s'.build = withBlock s.build n
  sched  : s.sched = []
  sched' : s'.sched = []
  c      : TwinC s.c s'.c
  d      : TwinD s.d s'.d

/-- With no event left, unit `C` has its turn if a step of it is enabled. -/
theorem step_default_turnC {s : State} {i : Instr} (hs : s.sched = []) (hc : nextOpC s.c = some i) :
    ∃ r, step s = .next ((s.setC (turnC s.build s.c)).setRet r) := by
  rw [step_of_no_event hs, defaultOp_of_nextOpC_some hc, ← hc]
  exact runOp_nextOpC s

/-- With no event left and unit `C` at rest, unit `D` has its turn. -/
theorem step_default_turnD {s : State} {e : DUnit} (hs : s.sched = []) (hc : nextOpC s.c = none)
    (he : turnD s.build s.d = .next e) : ∃ r, step s = .next ((s.setD e).setRet r) := by
  obtain ⟨r, hr⟩ := runOp_nextOpD s
  rw [step_default_of_nextOpC_none hc hs, hr, he]
  exact ⟨r, rfl⟩

/-- Twin systems step together (R84). -/
theorem Twins.step {n : Nat} {s s' : State} (h : Twins n s s') :
    ∃ t t', step s = .next t ∧ step s' = .next t' ∧ Twins n t t' := by
  have hb := h.inv.shape.build
  obtain ⟨hb', hc', hd'⟩ := h.inv'.shape
  rw [h.build] at hb' hc' hd'
  cases hop : nextOpC s.c with
  | some i =>
    obtain ⟨r, ht⟩ := step_default_turnC h.sched hop
    obtain ⟨r', ht'⟩ := step_default_turnC h.sched' (h.c.nextOpC ▸ hop)
    have hturn := h.c.turnC hb hb' h.inv.shape.c hc'
    rw [← h.build] at hturn
    exact ⟨_, _, ht, ht', step_keeps_inv h.inv ht, step_keeps_inv h.inv' ht', h.build, h.sched, h.sched', hturn, h.d⟩
  | none =>
    obtain ⟨e, he⟩ := turnD_goes_on h.inv
    obtain ⟨e', he', hturn⟩ := h.d.turnD hb hb' h.inv.shape.d hd' he
    rw [← h.build] at he'
    obtain ⟨r, ht⟩ := step_default_turnD h.sched hop he
    obtain ⟨r', ht'⟩ := step_default_turnD h.sched' (h.c.nextOpC ▸ hop) he'
    exact ⟨_, _, ht, ht', step_keeps_inv h.inv ht, step_keeps_inv h.inv' ht', h.build, h.sched, h.sched', h.c, hturn⟩

theorem Twins.runSteps {n : Nat} (k : Nat) : ∀ {s s' : State}, Twins n s s' →
    ∃ t t', runSteps k s = .next t ∧ runSteps k s' = .next t' ∧ Twins n t t' := by
  induction k with
  | zero => exact fun h => ⟨_, _, rfl, rfl, h⟩
  | succ k ih =>
    intro s s' h
    obtain ⟨u, u', hu, hu', h₁⟩ := h.step
    obtain ⟨t, t', ht, ht', h₂⟩ := ih h₁
    exact ⟨t, t', by rw [Machine.runSteps, hu, andThen_next, ht], by rw [Machine.runSteps, hu', andThen_next, ht'], h₂⟩

/-- Outside `RUN` nothing is buffered, so what the host reads of unit `C` is the same (R42, R182). -/
theorem Twins.portsC {n : Nat} {s s' : State} (h : Twins n s s') (hr : s.c.phase ≠ .run) : PortsC s.c s'.c :=
  h.c.ports (h.inv.shape.c.flushed hr) (h.inv'.shape.c.flushed (h.c.phase ▸ hr))

/-- Outside `RUN` nothing is buffered, so what the host reads of unit `D` is the same (R42, R199). -/
theorem Twins.portsD {n : Nat} {s s' : State} (h : Twins n s s') (hr : s.d.phase ≠ .run) : PortsD s.d s'.d :=
  h.d.ports (h.inv.shape.d.flushed hr) (h.inv'.shape.d.flushed (h.d.phase ▸ hr))

/-! ### A launched unit comes to an end (R175, R199) -/

theorem inv_launchC {b : Build} (hb : b.Admitted) (input : List Byte) (prot : BitVec 16) :
    Inv (launchC b input prot) where
  shape := ⟨hb, ((pulseC_shape b hb CUnit.reset).supplied input).pins true prot, pulseD_shape b hb DUnit.reset⟩
  trie := fun h => nomatch h
  wt := fun h => nomatch h

theorem inv_launchD {b : Build} (hb : b.Admitted) (tape : List Byte) : Inv (launchD b tape) where
  shape := ⟨hb, pulseC_shape b hb CUnit.reset, ((pulseD_shape b hb DUnit.reset).supplied tape).pins true⟩
  trie := fun h => nomatch h
  wt := fun h => nomatch h

/-- Right after `C.START` the decoder's dictionary is the seeded one and nothing is pending (R174). -/
theorem inStep_encStart (b : Build) (c : CUnit) :
    InStep b (outBits (encStart b c)) [] (encStart b c) [] (Dict.start b) 0 where
  written := (List.append_nil _).symm
  feeds := .start
  next := rfl
  root := by simp [Dict.start, storeGet]
  trie := fun _ _ _ hv => nomatch hv
  pending := ⟨[], by simp [Dict.start, encStart, storeGet], rfl⟩

/-- A run of unit `C` on `N` symbols is done after `N + 2` steps (R175). -/
theorem runSteps_launchC_done {b : Build} (hb : b.Admitted) (input : List Byte) (prot : BitVec 16) :
    ∃ t, runSteps (input.length + 2) (launchC b input prot) = .next t ∧ t.c.phase = .done := by
  obtain ⟨hshape, htrie, hrun⟩ := encStart_keeps hb (inv_launchC hb input prot).shape.c
  have hstart := step_encStart (s := launchC b input prot) rfl rfl rfl
  obtain ⟨t, _, _, _, _, ht, hdone, _⟩ := runC_to_done hb input
    (s := ((launchC b input prot).setC (encStart b (launchedC input prot))).setRet .nothing)
    rfl rfl hrun hshape htrie rfl (inStep_encStart b _)
  exact ⟨t, by rw [runSteps, hstart, andThen_next]; exact ht, hdone⟩

/-- A step of unit `D` ends the run, or uses the bits of a whole pair (R196, R197, R201). -/
theorem decStep_ends_or_uses_bits {b : Build} {d e : DUnit} (hb : 1 ≤ b.blockBytes) (h : UnpackerOk b d)
    (hr : d.phase = .run) (he : decStep b d = .next e) :
    (e.phase = .done ∨ e.phase = .fault) ∨ (e.phase = .run ∧ (inBits e).length + 8 ≤ (inBits d).length) := by
  by_cases hl : (inBits d).length < bitlen d.next.toNat + 8
  · obtain ⟨u, hstep, _⟩ := decStep_trunc hb h hl
    cases hstep.symm.trans he
    exact .inl (.inr rfl)
  · obtain ⟨u, hstep, hrest, _, hf⟩ := decStep_of_pair_ahead hb h rfl (Nat.le_of_not_lt hl)
    rw [he] at hstep
    split at hstep
    case isTrue =>
      cases hstep
      exact .inl (.inl rfl)
    case isFalse =>
      rcases decData_eq_next_iff.1 hstep.symm with ⟨_, rfl⟩ | ⟨_, _, _, w, _, rfl⟩
      · exact .inl (.inr rfl)
      · have hrun : u.phase = .run := (hf.touches .phase (by simp)).trans hr
        have hused : (inBits u).length + 8 ≤ (inBits d).length := by
          rw [hrest, List.length_drop]
          omega
        rw [advanceD_eq]
        exact .inr ⟨hrun, hused⟩

/-- Unit `D` alone leaves `RUN` within as many steps as there are whole bytes ahead of it, and one (R199). -/
theorem runSteps_leaves_run (k : Nat) : ∀ {s : State}, Inv s → s.sched = [] → nextOpC s.c = none → s.d.phase ≠ .idle →
    (s.d.phase = .run → (inBits s.d).length < 8 * k) →
    ∃ t, runSteps k s = .next t ∧ t.d.phase ≠ .run ∧ t.d.phase ≠ .idle := by
  induction k with
  | zero => exact fun _ _ _ hi hk => ⟨_, rfl, fun hr => absurd (hk hr) (Nat.not_lt_zero _), hi⟩
  | succ k ih =>
    intro s hinv hs hc hi hk
    by_cases hr : s.d.phase = .run
    · obtain ⟨e, he, _⟩ := decStep_keeps hinv.shape.build hinv.shape.d hr (hinv.wt hr)
      obtain ⟨_, _, _, _, _, _, _, hpos⟩ := hinv.shape.build
      have hnext : e.phase ≠ .idle ∧ (e.phase = .run → (inBits e).length < 8 * k) := by
        have hlt := hk hr
        rcases decStep_ends_or_uses_bits hpos hinv.shape.d.unpacker hr he with (h | h) | ⟨h, hused⟩
        · simp [h]
        · simp [h]
        · exact ⟨by simp [h], fun _ => by omega⟩
      have hstep := step_decStep hs hc hr he
      obtain ⟨t, ht, hleft⟩ := ih (step_keeps_inv hinv hstep) hs hc hnext.1 hnext.2
      exact ⟨t, by rw [runSteps, hstep, andThen_next, ht], hleft⟩
    · have hrest := step_rest hs hc (nextOpD_eq_none (fun h => hi h.1) hr)
      exact ⟨s, runSteps_stays hrest _, hr, hi⟩

/-- A header that is not accepted is a fault (R212, R213). -/
theorem hdrRd_rejected {b : Build} {d : DUnit} (h : (hdrRd b d).1 = false) : (hdrRd b d).2.phase = .fault := by
  have hspec := hdrRd_spec b d
  simp only at hspec
  rw [hspec] at h ⊢
  split at h
  case isTrue hl => rw [if_pos hl, raise_spec]
  case isFalse hl =>
    rw [if_neg hl]
    split at h
    case isTrue => cases h
    case isFalse hm => rw [if_neg hm, raise_spec]

theorem decStart_run_or_fault (b : Build) (d : DUnit) :
    (decStart b d).phase = .run ∨ (decStart b d).phase = .fault := by
  cases h : (hdrRd b d).1 with
  | true => exact .inl (by rw [decStart_of_accepted h])
  | false => exact .inr (by rw [decStart_of_rejected h, hdrRd_rejected h])

theorem inBits_length (d : DUnit) :
    (inBits d).length = (d.buEnd - d.buIdx) + 8 * (d.byteIn.bytes.length - d.byteIn.pos) := by
  simp [inBits, unread]

/-- The launch puts no bit ahead of unit `D` that is not on its tape. -/
theorem inBits_decStart_le (b : Build) (tape : List Byte) :
    (inBits (decStart b (launchedD tape))).length ≤ 8 * tape.length := by
  have htouch := decStart_touches b (launchedD tape)
  obtain ⟨_, hidx, hend, _⟩ := htouch .unpacker (by simp)
  obtain ⟨_, hbytes⟩ := htouch .fixed (by simp)
  rw [inBits_length, hidx, hend, hbytes]
  simp only [launchedD, DUnit.reset]
  omega

/-- A run of unit `D` on any tape ends within as many steps as the tape has bytes, and two (R199). -/
theorem decodesTo_exists {b : Build} (hb : b.Admitted) (tape : List Byte) : ∃ t, DecodesTo b tape t := by
  have hstart := step_decStart (s := launchD b tape) rfl rfl rfl rfl
  have hnotIdle : (decStart b (launchedD tape)).phase ≠ .idle := by
    rcases decStart_run_or_fault b (launchedD tape) with h | h <;> simp [h]
  obtain ⟨t, ht, hleft⟩ := runSteps_leaves_run (tape.length + 1) (step_keeps_inv (inv_launchD hb tape) hstart) rfl rfl
    hnotIdle (fun _ => Nat.lt_of_le_of_lt (inBits_decStart_le b tape) (by omega))
  exact ⟨t, by rw [runSteps, hstart, andThen_next, ht], hleft⟩

/-! ### Whole runs -/

theorem twins_launchC {b : Build} {n : Nat} (hb : b.Admitted) (hn : 1 ≤ n) (input : List Byte) (prot : BitVec 16) :
    Twins n (launchC b input prot) (launchC (withBlock b n) input prot) :=
  ⟨inv_launchC hb input prot, inv_launchC (withBlock_admitted hb hn) input prot, rfl, rfl, rfl, .refl _, .refl _⟩

theorem twins_launchD {b : Build} {n : Nat} (hb : b.Admitted) (hn : 1 ≤ n) (tape : List Byte) :
    Twins n (launchD b tape) (launchD (withBlock b n) tape) :=
  ⟨inv_launchD hb tape, inv_launchD (withBlock_admitted hb hn) tape, rfl, rfl, rfl, .refl _, .refl _⟩

/-- Settles O59: the two systems are launched as twins, every step keeps them twins, and once the run has ended, which
it does, twins show the host the same. -/
theorem blockSizeIsNotObservable : Obligations.BlockSizeIsNotObservable := by
  intro b n hb hn
  constructor
  · intro input prot
    obtain ⟨t, t', ht, ht', htwins⟩ := (twins_launchC hb hn input prot).runSteps (input.length + 2)
    obtain ⟨u, hu, hdone⟩ := runSteps_launchC_done hb input prot
    cases hu.symm.trans ht
    exact ⟨t, t', ht, ht', htwins.portsC (by simp [hdone])⟩
  · intro tape
    obtain ⟨t, t', ht, ht', htwins⟩ := (twins_launchD hb hn tape).runSteps (tape.length + 2)
    obtain ⟨u, hu, hrun, hidle⟩ := decodesTo_exists hb tape
    cases hu.symm.trans ht
    exact ⟨t, t', ⟨ht, hrun, hidle⟩, ⟨ht', htwins.d.phase ▸ hrun, htwins.d.phase ▸ hidle⟩, htwins.portsD hrun⟩

end Sys2Proof.Machine
end

section
/-! `pack` and `unpack` bit by bit, and one after the other (R85). -/

namespace Sys2Proof

/-- Bit `i` of the value of a bit sequence (R97). -/
theorem testBit_natOf (xs : List Bool) (i : Nat) : (natOf xs).testBit i = xs.getD i false := by
  have hbits : (bitsOf xs.length (natOf xs))[i]? = xs[i]? := by rw [bitsOf_natOf]
  rw [bitsOf_getElem?] at hbits
  rw [List.getD_eq_getElem?_getD, ← hbits]
  split
  case isTrue => rfl
  case isFalse h =>
    exact Nat.testBit_lt_two_pow (Nat.lt_of_lt_of_le (natOf_lt xs) (Nat.pow_le_pow_right (by decide) (by omega)))

@[simp] theorem pack_length (bs : List Bool) : (pack bs).length = (bs.length + 7) / 8 := by simp [pack]

/-- Bit `i` of byte `j` of a packed sequence (R85). -/
theorem getLsbD_packByte (bs : List Bool) {i : Nat} (j : Nat) (hi : i < 8) :
    (packByte bs j).getLsbD i = bs.getD (8 * j + i) false := by
  rw [packByte, BitVec.getLsbD_ofNat, testBit_natOf]
  simp [hi, List.getD_eq_getElem?_getD]

theorem pack_getD (bs : List Bool) {j : Nat} (hj : j < (pack bs).length) : (pack bs).getD j 0#8 = packByte bs j := by
  rw [List.getD_eq_getElem _ _ hj]
  simp [pack]

/-- Bit `i` of byte `j` is bit `8j + i` of an unpacked tape (R85, R66). -/
theorem unpack_getD (y : List Byte) {i : Nat} (hi : i < 8) :
    ∀ j, (unpack y).getD (8 * j + i) false = (y.getD j 0#8).getLsbD i := by
  induction y with
  | nil => simp
  | cons x y ih =>
    intro j
    rw [unpack_cons]
    cases j with
    | zero =>
      rw [List.getD_append _ _ _ _ (by simpa using hi)]
      simp [List.getD_eq_getElem?_getD, bitsOf, hi, BitVec.getLsbD]
    | succ j =>
      rw [List.getD_append_right _ _ _ _ (by simp; omega), bitsOf_length, List.getD_cons_succ, ← ih]
      congr 1
      omega

/-- Every bit of a tape just packed is a bit of the sequence, or 0 beyond its end. -/
theorem unpack_pack_getD (bs : List Bool) {k : Nat} (hk : k < (unpack (pack bs)).length) :
    (unpack (pack bs)).getD k false = bs.getD k false := by
  have hj : k / 8 < (pack bs).length := by rw [unpack_length] at hk; omega
  have hi : k % 8 < 8 := Nat.mod_lt k (by decide)
  have hk' : 8 * (k / 8) + k % 8 = k := Nat.div_add_mod k 8
  calc (unpack (pack bs)).getD k false
      = ((pack bs).getD (k / 8) 0#8).getLsbD (k % 8) := by rw [← unpack_getD _ hi, hk']
    _ = bs.getD k false := by rw [pack_getD bs hj, getLsbD_packByte bs _ hi, hk']

/-- Packing fills the last byte with zeros (R85). -/
theorem unpack_pack (bs : List Bool) :
    unpack (pack bs) = bs ++ List.replicate ((8 - bs.length % 8) % 8) false := by
  apply List.ext_getElem
  · simp; omega
  · intro k hk hk'
    rw [← List.getD_eq_getElem _ false hk, ← List.getD_eq_getElem _ false hk', unpack_pack_getD bs hk]
    by_cases h : k < bs.length
    · rw [List.getD_append _ _ _ _ h]
    · rw [List.getD_append_right _ _ _ _ (by omega), List.getD_eq_default _ _ (by omega),
        List.getD_eq_getElem?_getD, List.getElem?_getD_replicate_default_eq]

/-- Settles O12: the lengths, the bits of a packed byte, the bits of an unpacked tape, and the two together. -/
theorem packAndUnpackAgree : Obligations.PackAndUnpackAgree :=
  fun bs y => ⟨pack_length bs, unpack_length y,
    fun i j hi hj => by rw [pack_getD bs hj, getLsbD_packByte bs j hi],
    fun i j hi _ => unpack_getD y hi j, unpack_pack bs⟩

end Sys2Proof
end

section
/-! A dictionary operation and the lookup right after it (R62, R63, R81). -/

namespace Sys2Proof.Machine

/-! ### The dictionary operations as instructions -/

theorem exec_trieStep (node : Code) (sym : Byte) (s : State) :
    exec (.trieStep node sym) s = .next (s.setRet (.child (trieGet s.c.trie node sym))) := rfl

theorem exec_trieInsert (node : Code) (sym : Byte) (code : Code) (s : State) :
    exec (.trieInsert node sym code) s = .next ((s.setC (trieInsert node sym code s.c)).setRet .nothing) := rfl

theorem exec_trieReset (s : State) : exec .trieReset s = .next ((s.setC (clearTrie s.c)).setRet .nothing) := rfl

theorem exec_wtLookup {s : State} {code : Code} (h : code.toNat < s.build.maxCode) :
    exec (.wtLookup code) s = .next (s.setRet (.word (storeGet s.d.wt code.toNat))) := by
  simp [exec, execWtLookup, wtGet, h]

theorem exec_wtStore {s : State} {code : Code} (word : Word) (h : code.toNat < s.build.maxCode) :
    exec (.wtStore code word) s =
      .next ((s.setD { s.d with wt := storeSet s.d.wt code.toNat word }).setRet .nothing) := by
  simp [exec, execWtStore, wtSet, h]

theorem exec_wtReset (s : State) : exec .wtReset s = .next ((s.setD (seedWt s.build s.d)).setRet .nothing) := rfl

theorem execAll_pair {i j : Instr} {s u t : State} (hi : exec i s = .next u) (hj : exec j u = .next t) :
    execAll [i, j] s = .next t := by
  simp [execAll, hi, hj]

/-- A seeded table holds the empty word at `EMPTY_CODE` and nothing else (R190, R195). -/
theorem storeGet_seedWt (b : Build) (d : DUnit) (code : Code) :
    storeGet (seedWt b d).wt code.toNat = if code = b.emptyCode then some [] else none := by
  simp [seedWt, storeGet, BitVec.toNat_inj]

/-- Settles O21: each lookup reads the dictionary the operation before it left. -/
theorem dictionaryWritesAreSeenAtOnce : Obligations.DictionaryWritesAreSeenAtOnce := by
  refine ⟨fun s node sym code => ⟨_, execAll_pair (exec_trieInsert ..) (exec_trieStep ..), ?insert⟩,
    fun s node sym => ⟨_, execAll_pair (exec_trieReset s) (exec_trieStep ..), rfl⟩,
    fun s code word h => ⟨_, execAll_pair (exec_wtStore word h) (exec_wtLookup h), ?store⟩,
    fun s code h => ⟨_, execAll_pair (exec_wtReset s) (exec_wtLookup h), ?reset⟩⟩
  case insert => simp [trieInsert, trieGet_insert]
  case store => simp [storeGet_set_self]
  case reset => simp [storeGet_seedWt]

end Sys2Proof.Machine
end

section
/-! The stream units and their bits: what decodes is exactly what an encoding of a well-formed unit begins (R90 to R93,
R97, R111). -/

namespace Sys2Proof

/-! ### One field: `n` bits and the value they stand for (R68, R97) -/

/-- A field of `n` bits read back, held in `k` bits. -/
theorem ofNat_natOf_bitsOf {n k : Nat} {v : BitVec k} (h : v.toNat < 2 ^ n) :
    BitVec.ofNat k (natOf (bitsOf n v.toNat)) = v := by
  rw [natOf_bitsOf, Nat.mod_eq_of_lt h, BitVec.ofNat_toNat, BitVec.setWidth_eq]

theorem toNat_ofNat_natOf {k : Nat} {xs : List Bool} (h : xs.length ≤ k) :
    (BitVec.ofNat k (natOf xs)).toNat = natOf xs :=
  Nat.mod_eq_of_lt (Nat.lt_of_lt_of_le (natOf_lt xs) (Nat.pow_le_pow_right (by decide) h))

/-- Any `n` bits are a field, and `k` bits hold its value. -/
theorem exists_field {n k : Nat} {bits : List Bool} (hk : n ≤ k) (h : n ≤ bits.length) :
    ∃ (v : BitVec k) (rest : List Bool), v.toNat < 2 ^ n ∧ bits = bitsOf n v.toNat ++ rest := by
  have hlen : (bits.take n).length = n := List.length_take_of_le h
  have hval : (BitVec.ofNat k (natOf (bits.take n))).toNat = natOf (bits.take n) := toNat_ofNat_natOf (by omega)
  have hlt := natOf_lt (bits.take n)
  have hbits := bitsOf_natOf (bits.take n)
  rw [hlen] at hlt hbits
  refine ⟨BitVec.ofNat k (natOf (bits.take n)), bits.drop n, by rwa [hval], ?_⟩
  rw [hval, hbits, List.take_append_drop]

/-! ### Values of longer sequences (R97) -/

theorem natOf_append (xs ys : List Bool) : natOf (xs ++ ys) = natOf xs + 2 ^ xs.length * natOf ys := by
  induction xs with
  | nil => simp [natOf]
  | cons x xs ih =>
    rw [List.cons_append, natOf, natOf, ih, List.length_cons, Nat.pow_succ', Nat.mul_add, Nat.mul_assoc, Nat.add_assoc]

/-- The first byte of a tape is the low end of its value (R97). -/
theorem natOf_unpack_cons (x : Byte) (y : List Byte) :
    natOf (unpack (x :: y)) = x.toNat + 2 ^ 8 * natOf (unpack y) := by
  rw [unpack_cons, natOf_append, natOf_bitsOf, bitsOf_length, Nat.mod_eq_of_lt x.isLt]

/-! ### The decoder on each unit's bits, and on too few -/

/-- The unit a pair of width `w` is: the stop pair or a data pair (R91, R92). -/
def pairUnit (b : Build) (w : Nat) (code : Code) (sym : Byte) : Instr :=
  if code = b.stopCode then .pairStop w sym else .pairData w code sym

theorem pairWidth_iff {w : Nat} : pairWidth w = true ↔ 2 ≤ w ∧ w ≤ 16 := by
  simp [pairWidth]

theorem decode_header_bits (b : Build) (magic : BitVec 32) (prot : BitVec 16) (rest : List Bool) :
    decode b .header (bitsOf 32 magic.toNat ++ (bitsOf 16 prot.toNat ++ rest)) = .ok (.hdr magic prot) rest := by
  have hdrop : (bitsOf 32 magic.toNat ++ (bitsOf 16 prot.toNat ++ rest)).drop 48 = rest := by
    rw [← List.append_assoc, List.drop_left' (by simp)]
  simp only [decode, hdrop, List.take_left' (bitsOf_length _ _), List.drop_left' (bitsOf_length _ _),
    ofNat_natOf_bitsOf magic.isLt, ofNat_natOf_bitsOf prot.isLt]
  exact if_neg (by simp; omega)

theorem decode_header_short (b : Build) {bits : List Bool} (h : bits.length < 48) :
    decode b .header bits = .reject .truncated := if_pos h

theorem decode_pair_bits (b : Build) {w : Nat} {code : Code} (sym : Byte) (rest : List Bool) (hw : pairWidth w = true)
    (hc : code.toNat < 2 ^ w) :
    decode b (.pair w) (pairBits code sym w ++ rest) = .ok (pairUnit b w code sym) rest := by
  have hdrop : (pairBits code sym w ++ rest).drop (w + 8) = rest := List.drop_left' (by simp)
  simp only [decode, hdrop]
  rw [if_neg (by simp [hw]), if_neg (by simp)]
  simp only [pairBits, List.append_assoc, List.take_left' (bitsOf_length _ _), List.drop_left' (bitsOf_length _ _),
    ofNat_natOf_bitsOf hc, ofNat_natOf_bitsOf (n := 8) sym.isLt, pairUnit]

theorem decode_pair_widthOutside (b : Build) {w : Nat} (bits : List Bool) (h : pairWidth w = false) :
    decode b (.pair w) bits = .reject .widthOutside := if_pos h

theorem decode_pair_short (b : Build) {w : Nat} {bits : List Bool} (hw : pairWidth w = true)
    (h : bits.length < w + 8) : decode b (.pair w) bits = .reject .truncated := by
  simp [decode, hw, h]

theorem decode_pad_bits (b : Build) {bits : List Bool} (rest : List Bool) (h : bits.length ≤ 7) :
    decode b (.pad bits.length) (bits ++ rest) = .ok (.pad bits) rest := by
  simp [decode, h]

theorem decode_pad_tooLong (b : Build) {n : Nat} (bits : List Bool) (h : 7 < n) :
    decode b (.pad n) bits = .reject .padTooLong := if_pos h

theorem decode_pad_short (b : Build) {n : Nat} {bits : List Bool} (hn : n ≤ 7) (h : bits.length < n) :
    decode b (.pad n) bits = .reject .truncated := by
  simp [decode, Nat.not_lt.2 hn, h]

/-! ### What decodes, by context -/

theorem decode_header_eq_ok {b : Build} {bits : List Bool} {i : Instr} {rest : List Bool}
    (h : decode b .header bits = .ok i rest) :
    ∃ magic prot, i = .hdr magic prot ∧ bits = bitsOf 32 magic.toNat ++ (bitsOf 16 prot.toNat ++ rest) := by
  by_cases hlen : bits.length < 48
  · rw [decode_header_short b hlen] at h
    cases h
  · obtain ⟨magic, r, _, rfl⟩ := exists_field (n := 32) (k := 32) (by omega) (show 32 ≤ bits.length by omega)
    rw [List.length_append, bitsOf_length] at hlen
    obtain ⟨prot, r', _, rfl⟩ := exists_field (n := 16) (k := 16) (by omega) (show 16 ≤ r.length by omega)
    rw [decode_header_bits] at h
    cases h
    exact ⟨magic, prot, rfl, rfl⟩

theorem decode_pair_eq_ok {b : Build} {w : Nat} {bits : List Bool} {i : Instr} {rest : List Bool}
    (h : decode b (.pair w) bits = .ok i rest) :
    ∃ code sym, pairWidth w = true ∧ code.toNat < 2 ^ w ∧ i = pairUnit b w code sym ∧
      bits = pairBits code sym w ++ rest := by
  cases hw : pairWidth w with
  | false =>
    rw [decode_pair_widthOutside b bits hw] at h
    cases h
  | true =>
    by_cases hlen : bits.length < w + 8
    · rw [decode_pair_short b hw hlen] at h
      cases h
    · obtain ⟨code, r, hc, rfl⟩ := exists_field (n := w) (k := 16) (pairWidth_iff.1 hw).2
        (show w ≤ bits.length by omega)
      rw [List.length_append, bitsOf_length] at hlen
      obtain ⟨sym, r', _, rfl⟩ := exists_field (n := 8) (k := 8) (by omega) (show 8 ≤ r.length by omega)
      rw [← List.append_assoc, ← pairBits, decode_pair_bits b sym r' hw hc] at h
      cases h
      exact ⟨code, sym, rfl, hc, rfl, by rw [pairBits, List.append_assoc]⟩

theorem decode_pad_eq_ok {b : Build} {n : Nat} {bits : List Bool} {i : Instr} {rest : List Bool}
    (h : decode b (.pad n) bits = .ok i rest) :
    ∃ p : List Bool, p.length = n ∧ n ≤ 7 ∧ i = .pad p ∧ bits = p ++ rest := by
  by_cases hn : 7 < n
  · rw [decode_pad_tooLong b bits hn] at h
    cases h
  · by_cases hlen : bits.length < n
    · rw [decode_pad_short b (by omega) hlen] at h
      cases h
    · have htake : (bits.take n).length = n := List.length_take_of_le (by omega)
      have hok := decode_pad_bits b (bits.drop n) (show (bits.take n).length ≤ 7 by omega)
      rw [htake, List.take_append_drop, h] at hok
      cases hok
      exact ⟨bits.take n, htake, by omega, rfl, (List.take_append_drop n bits).symm⟩

theorem decode_header_eq_truncated {b : Build} {bits : List Bool} (h : decode b .header bits = .reject .truncated) :
    bits.length < 48 := by
  simp only [decode] at h
  split at h
  · assumption
  · cases h

theorem decode_pair_eq_truncated {b : Build} {w : Nat} {bits : List Bool}
    (h : decode b (.pair w) bits = .reject .truncated) : bits.length < w + 8 := by
  simp only [decode] at h
  split at h
  · cases h
  · split at h
    · assumption
    · cases h

/-! ### Encoding and decoding agree -/

theorem pairUnit_wf (b : Build) {w : Nat} {code : Code} (sym : Byte) (hw : pairWidth w = true)
    (hc : code.toNat < 2 ^ w) : (pairUnit b w code sym).wf b = true := by
  simp only [pairUnit]
  split
  case isTrue hs => simp [Instr.wf, hw, ← hs, hc]
  case isFalse hs => simp [Instr.wf, hw, hc, hs]

theorem ctxOf_pairUnit (b : Build) (w : Nat) (code : Code) (sym : Byte) :
    ctxOf (pairUnit b w code sym) = some (.pair w) := by
  simp only [pairUnit]
  split <;> rfl

theorem encode_pairUnit (b : Build) (w : Nat) (code : Code) (sym : Byte) :
    encode b (pairUnit b w code sym) = some (pairBits code sym w) := by
  simp only [pairUnit]
  split
  case isTrue hs => rw [hs]; rfl
  case isFalse => rfl

/-- The context a unit is read in, with the bits of its encoding in front, gives the unit back. -/
theorem decode_encode {b : Build} {i : Instr} {bits : List Bool} {ctx : Ctx} (rest : List Bool) (hwf : i.wf b = true)
    (henc : encode b i = some bits) (hctx : ctxOf i = some ctx) : decode b ctx (bits ++ rest) = .ok i rest := by
  cases i with
  | hdr magic prot =>
    cases henc
    cases hctx
    rw [List.append_assoc]
    exact decode_header_bits b magic prot rest
  | pairData w code sym =>
    cases henc
    cases hctx
    simp only [Instr.wf, Bool.and_eq_true, decide_eq_true_eq, bne_iff_ne] at hwf
    obtain ⟨⟨hw, hc⟩, hs⟩ := hwf
    rw [decode_pair_bits b sym rest hw hc, pairUnit, if_neg hs]
  | pairStop w sym =>
    cases henc
    cases hctx
    simp only [Instr.wf, Bool.and_eq_true, decide_eq_true_eq] at hwf
    obtain ⟨hw, hc⟩ := hwf
    rw [decode_pair_bits b sym rest hw hc, pairUnit, if_pos rfl]
  | pad p =>
    cases henc
    cases hctx
    exact decode_pad_bits b rest (of_decide_eq_true hwf)
  | _ => cases henc

theorem encode_isSome_iff (b : Build) (i : Instr) :
    (encode b i).isSome = true ↔ (∃ m p, i = .hdr m p) ∨ (∃ w c x, i = .pairData w c x) ∨ (∃ w x, i = .pairStop w x) ∨
      ∃ bits, i = .pad bits := by
  cases i <;> simp [encode]

theorem ctxOf_isSome_eq (b : Build) (i : Instr) : (ctxOf i).isSome = (encode b i).isSome := by
  cases i <;> rfl

/-- Settles O42: the decoder on each unit's bits, and the four constructors that have an encoding. -/
theorem decodeGivesBackTheEncodedUnit : Obligations.DecodeGivesBackTheEncodedUnit :=
  fun b i => ⟨fun _ _ rest => decode_encode rest, encode_isSome_iff b i, ctxOf_isSome_eq b i⟩

/-- Settles O43: in each context the unit read is the one whose encoding stands at the front. -/
theorem decodedUnitEncodesBack : Obligations.DecodedUnitEncodesBack := by
  intro b ctx bits i rest h
  cases ctx with
  | header =>
    obtain ⟨magic, prot, rfl, rfl⟩ := decode_header_eq_ok h
    exact ⟨rfl, rfl, _, rfl, (List.append_assoc ..).symm⟩
  | pair w =>
    obtain ⟨code, sym, hw, hc, rfl, rfl⟩ := decode_pair_eq_ok h
    exact ⟨pairUnit_wf b sym hw hc, ctxOf_pairUnit b w code sym, _, encode_pairUnit b w code sym, rfl⟩
  | pad n =>
    obtain ⟨p, rfl, hn, rfl, rfl⟩ := decode_pad_eq_ok h
    exact ⟨decide_eq_true hn, rfl, p, rfl, rfl⟩

/-- Settles O41: each unit is evaluated from its bits. -/
theorem writtenOutWordsDecode : Obligations.WrittenOutWordsDecode := by
  intro b hb
  subst hb
  decide

end Sys2Proof
end

section
/-! The stream units as instructions, and the step of unit `D` as the unit its unread bits decode to (R90 to R94, R98, R102,
R194, R196 to R198, R212; log 11). -/

namespace Sys2Proof.Machine

/-! ### What each stream unit does -/

theorem takeHeader_accepted {b : Build} {magic : BitVec 32} (h : magic = b.magic) (prot : BitVec 16) (d : DUnit) :
    takeHeader b magic prot d = (true, { d with prot := prot }) := if_pos h

theorem takeHeader_rejected {b : Build} {magic : BitVec 32} (h : magic ≠ b.magic) (prot : BitVec 16) (d : DUnit) :
    takeHeader b magic prot d = (false, faultEntry .badMagic d) := by
  rw [takeHeader, if_neg h, raise_eq_faultEntry]

theorem exec_hdr (magic : BitVec 32) (prot : BitVec 16) (s : State) :
    exec (.hdr magic prot) s = .next ((s.setD (takeHeader s.build magic prot s.d).2).setRet .nothing) := rfl

theorem exec_pairData (w : Nat) (code : Code) (sym : Byte) (s : State) :
    exec (.pairData w code sym) s =
      andThen (decData s.build { s.d with code := code, sym := sym }) (fun d => .next ((s.setD d).setRet .nothing)) :=
  rfl

theorem exec_pairStop (w : Nat) (sym : Byte) (s : State) :
    exec (.pairStop w sym) s =
      .next ((s.setD (decStop { s.d with code := s.build.stopCode, sym := sym })).setRet .nothing) := rfl

theorem exec_pad (bits : List Bool) (s : State) : exec (.pad bits) s = .next (s.setRet .nothing) := rfl

theorem exec_wwFlush (s : State) : exec .wwFlush s = .next ((s.setD (wwFlush s.d)).setRet .nothing) := rfl

theorem exec_wwWrword (word : Word) (s : State) :
    exec (.wwWrword word) s = .next ((s.setD (wrWord s.build word s.d)).setRet .nothing) := rfl

/-- Settles O38: the header accepted, or fault entry. -/
theorem headerUnitIsChecked : Obligations.HeaderUnitIsChecked := by
  intro s magic prot
  refine ⟨fun h => ?_, fun h => ?_⟩
  · rw [exec_hdr, takeHeader_accepted h]
    rfl
  · rw [exec_hdr, takeHeader_rejected h]
    rfl

/-- The model's code test is the rule's (R194). -/
theorem validCode_iff {b : Build} {next code : Code} : validCode b next code = true ↔ ValidCode b next code := by
  simp [validCode, ValidCode]

/-- `WT.STORE` at the counter and then `WW.WRWORD` are the data pair's effect before its advance (R196). -/
theorem execAll_store_write {s : State} (word : Word) (hn : s.d.next.toNat < s.build.maxCode) :
    execAll [.wtStore s.d.next word, .wwWrword word] s =
      .next ((s.setD (storeWord s.build word s.d)).setRet .nothing) := by
  rw [execAll_pair (exec_wtStore word hn) (exec_wwWrword ..)]
  have hframe := wrWord_frame s.build word { s.d with wt := storeSet s.d.wt s.d.next.toNat word }
  exact congrArg (fun d => Host.Outcome.next ((s.setD d).setRet .nothing)) hframe

theorem exec_pairData_valid {s : State} (w : Nat) {code : Code} (sym : Byte) {word : Word} (hb : s.build.Admitted)
    (hn : CounterOk s.build s.d.next) (hv : ValidCode s.build s.d.next code)
    (hw : storeGet s.d.wt code.toNat = some word) :
    exec (.pairData w code sym) s =
      .next ((s.setD (advanceD s.build (storeWord s.build (word ++ [sym]) { s.d with code := code, sym := sym }))).setRet
        .nothing) := by
  rw [exec_pairData, decData_valid (d := { s.d with code := code, sym := sym }) hb hn (validCode_iff.2 hv) hw]
  rfl

theorem exec_pairData_invalid {s : State} (w : Nat) {code : Code} (sym : Byte)
    (hv : ¬ ValidCode s.build s.d.next code) :
    exec (.pairData w code sym) s =
      .next ((s.setD (faultEntry .corruptCode { s.d with code := code, sym := sym })).setRet .nothing) := by
  rw [← validCode_iff, Bool.not_eq_true] at hv
  rw [exec_pairData, decData_invalid (d := { s.d with code := code, sym := sym }) hv, raise_eq_faultEntry]
  rfl

/-- Settles O39: the pair latched, its word stored and written, then the advance; a bad code's fault entry; the flush that
ends the run; the pad. -/
theorem pairUnitsTakeEffect : Obligations.PairUnitsTakeEffect := by
  intro s w sym
  refine ⟨fun code word hb hn hv hw => ?data, fun code hv => exec_pairData_invalid w sym hv,
    ⟨_, exec_wwFlush _, exec_pairStop w sym s⟩, fun bits => exec_pad bits s⟩
  case data =>
    refine ⟨_, _, execAll_store_write (s := s.setD { s.d with code := code, sym := sym }) (word ++ [sym]) hn.2,
      exec_pairData_valid w sym hb hn hv hw, ?_, ?_⟩
    · rw [advanceD_eq]
      rfl
    · rcases advanceD_spec (d := storeWord s.build (word ++ [sym]) { s.d with code := code, sym := sym }) hb hn with
        ⟨hlast, heq⟩ | ⟨hlt, heq, hnext⟩
      · rw [heq]
        exact ⟨fun _ => ⟨rfl, storeGet_seedWt s.build s.d⟩, fun h => absurd hlast (Nat.ne_of_lt h)⟩
      · rw [heq]
        exact ⟨fun h => absurd h (Nat.ne_of_lt hlt), fun _ => ⟨hnext, rfl⟩⟩

/-! ### The header's six bytes and its two fields (R90, R97) -/

theorem headerMagic_eq (x₀ x₁ x₂ x₃ : Byte) (y : List Byte) :
    headerMagic (x₀ :: x₁ :: x₂ :: x₃ :: y) = BitVec.ofNat 32 (natOf (unpack [x₀, x₁, x₂, x₃])) := by
  simp only [natOf_unpack_cons, unpack_nil, natOf, headerMagic, byteAt, List.getD_cons_zero, List.getD_cons_succ]
  congr 1
  omega

theorem headerProt_eq (x₀ x₁ x₂ x₃ x₄ x₅ : Byte) :
    headerProt [x₀, x₁, x₂, x₃, x₄, x₅] = BitVec.ofNat 16 (natOf (unpack [x₄, x₅])) := by
  simp only [natOf_unpack_cons, unpack_nil, natOf, headerProt, byteAt, List.getD_cons_zero, List.getD_cons_succ]
  congr 1

/-- Six bytes decode to the header of their two fields, as `HDR.RD` computes them. -/
theorem decode_header_bytes (b : Build) {h : List Byte} (hlen : h.length = 6) (y : List Byte) :
    decode b .header (unpack (h ++ y)) = .ok (.hdr (headerMagic h) (headerProt h)) (unpack y) := by
  match h, hlen with
  | [x₀, x₁, x₂, x₃, x₄, x₅], _ =>
    have hm := bitsOf_natOf (unpack [x₀, x₁, x₂, x₃])
    have hp := bitsOf_natOf (unpack [x₄, x₅])
    have hsplit : unpack ([x₀, x₁, x₂, x₃, x₄, x₅] ++ y) =
        unpack [x₀, x₁, x₂, x₃] ++ (unpack [x₄, x₅] ++ unpack y) := by
      simp only [← unpack_append]
      rfl
    rw [← toNat_ofNat_natOf (k := 32) (by simp)] at hm
    rw [← toNat_ofNat_natOf (k := 16) (by simp)] at hp
    rw [hsplit, ← hm, ← hp, headerMagic_eq, headerProt_eq]
    exact decode_header_bits b _ _ _

/-! ### A step of unit `D` (log 11) -/

/-- A pair read, as an instruction: latched, then the test of `STOP_CODE` and the effect `D.STEP` goes on with (R196). -/
theorem exec_pairUnit (w : Nat) (code : Code) (sym : Byte) (s : State) :
    exec (pairUnit s.build w code sym) s =
      andThen (if code = s.build.stopCode then .next (decStop { s.d with code := code, sym := sym })
        else decData s.build { s.d with code := code, sym := sym }) (fun d => .next ((s.setD d).setRet .nothing)) := by
  simp only [pairUnit]
  split
  case isTrue h => rw [exec_pairStop, h, andThen_next]
  case isFalse => exact exec_pairData w code sym s

/-- Unit `D` after reading bits, field by field. -/
theorem UnpackerFrame.eq_counted {d u : DUnit} (h : UnpackerFrame d u) {n : Count} (hn : u.totalBits = n) :
    u = { d with buBuf := u.buBuf, buIdx := u.buIdx, buEnd := u.buEnd, totalBits := n,
                 byteIn := { d.byteIn with pos := u.byteIn.pos } } :=
  h.1.trans (by simp only [withUnpacker, hn, ← h.2])

theorem step_turn_dStep {s : State} {es : List Event} (hs : s.sched = .turn .d :: es) (hr : s.d.phase = .run) :
    step s = andThen (decStep s.build s.d) (fun d => .next (((s.setSched es).setD d).setRet .nothing)) := by
  rw [step_turn_d_of_some (nextOpD_eq_dStep hr) hs]
  exact exec_dStep_of_enabled (dStepEnabled_iff.2 hr)

theorem step_turn_dStart {s : State} {es : List Event} (hs : s.sched = .turn .d :: es) (hi : s.d.phase = .idle)
    (hg : s.d.go = true) : step s = .next (((s.setSched es).setD (decStart s.build s.d)).setRet .nothing) := by
  rw [step_turn_d_of_some (nextOpD_eq_dStart hi hg) hs]
  exact exec_dStart_of_enabled (dStartEnabled_iff.2 ⟨hi, hg⟩)

theorem one_le_blockBytes {b : Build} (hb : b.Admitted) : 1 ≤ b.blockBytes := by
  obtain ⟨_, _, _, _, _, _, _, hblock⟩ := hb
  exact hblock

/-- In `RUN`, unread bits that begin with a pair of the counter's width: the step is that pair's effect once its bits are
taken (R196). -/
theorem step_of_pair_ahead {s : State} {es : List Event} (hinv : Inv s) (hs : s.sched = .turn .d :: es)
    (hr : s.d.phase = .run) {i : Instr} {rest : List Bool}
    (h : decode s.build (.pair (bitlen s.d.next.toNat)) (inBits s.d) = .ok i rest) :
    ∃ u : DUnit, UnpackerFrame s.d u ∧
      u.totalBits = s.d.totalBits + BitVec.ofNat 64 (bitlen s.d.next.toNat + 8) ∧ inBits u = rest ∧
      step s = exec i ((s.setSched es).setD u) := by
  obtain ⟨code, sym, _, hc, rfl, hbits⟩ := decode_pair_eq_ok h
  obtain ⟨u, hstep, hin, htotal, hframe, _⟩ := decStep_complete (one_le_blockBytes hinv.shape.build) hinv.shape.d.unpacker rfl
    (pairBits_length code sym _) hbits
  rw [pairCode_pairBits hc, pairSym_pairBits] at hstep
  refine ⟨u, hframe, htotal, hin, ?_⟩
  rw [step_turn_dStep hs hr, hstep]
  exact (exec_pairUnit _ code sym ((s.setSched es).setD u)).symm

/-- In `RUN`, too few unread bits for a pair: all are taken, and the step is fault entry (R201). -/
theorem step_of_bits_short {s : State} {es : List Event} (hinv : Inv s) (hs : s.sched = .turn .d :: es)
    (hr : s.d.phase = .run) (h : (inBits s.d).length < bitlen s.d.next.toNat + 8) :
    ∃ u : DUnit, UnpackerFrame s.d u ∧ u.totalBits = s.d.totalBits + BitVec.ofNat 64 (inBits s.d).length ∧
      inBits u = [] ∧
      step s = .next (((s.setSched es).setD (faultEntry .corruptTrunc u)).setRet .nothing) := by
  obtain ⟨u, hstep, hin, htotal, hframe, _⟩ := decStep_trunc (one_le_blockBytes hinv.shape.build) hinv.shape.d.unpacker h
  refine ⟨u, hframe, htotal, hin, ?_⟩
  rw [step_turn_dStep hs hr, hstep, raise_eq_faultEntry, andThen_next]

/-- Unit `D` with the six bytes of a header taken from its tape (R212). -/
def pastHeader (d : DUnit) : DUnit := { d with byteIn := { d.byteIn with pos := d.byteIn.pos + 6 } }

theorem unread_pastHeader (d : DUnit) : unread (pastHeader d).byteIn = (unread d.byteIn).drop 6 :=
  (List.drop_drop ..).symm

/-- `HDR.RD` on a tape with six bytes left (R212). -/
theorem hdrRd_complete (b : Build) {d : DUnit} (h : 6 ≤ (unread d.byteIn).length) :
    hdrRd b d =
      takeHeader b (headerMagic ((unread d.byteIn).take 6)) (headerProt ((unread d.byteIn).take 6)) (pastHeader d) := by
  have hlen : ((d.byteIn.bytes.drop d.byteIn.pos).take 6).length = 6 := List.length_take_of_le h
  simp only [hdrRd, srcRead, hlen]
  rfl

/-- `HDR.RD` on a tape with fewer than six bytes left (R213). -/
theorem hdrRd_short (b : Build) {d : DUnit} (h : (unread d.byteIn).length < 6) :
    hdrRd b d = (false, faultEntry .hdrShort
      { d with byteIn := { d.byteIn with pos := d.byteIn.pos + (unread d.byteIn).length } }) := by
  have htake : (d.byteIn.bytes.drop d.byteIn.pos).take 6 = unread d.byteIn := List.take_of_length_le (Nat.le_of_lt h)
  simp only [hdrRd, srcRead, htake, if_pos h, raise_eq_faultEntry]

/-- Unread bytes that decode to a unit at the start of a tape: it is a header, and `HDR.RD` does with it what unit `D` does
with its fields (R212). -/
theorem hdrRd_of_decode {b : Build} {d : DUnit} {i : Instr} {rest : List Bool}
    (h : decode b .header (unpack (unread d.byteIn)) = .ok i rest) :
    ∃ magic prot, i = .hdr magic prot ∧ unpack (unread (pastHeader d).byteIn) = rest ∧
      hdrRd b d = takeHeader b magic prot (pastHeader d) := by
  by_cases hlen : (unread d.byteIn).length < 6
  · rw [decode_header_short b (by rw [unpack_length]; omega)] at h
    cases h
  · have hbytes := decode_header_bytes b (List.length_take_of_le (Nat.not_lt.1 hlen)) ((unread d.byteIn).drop 6)
    rw [List.take_append_drop, h] at hbytes
    cases hbytes
    exact ⟨_, _, rfl, by rw [unread_pastHeader], hdrRd_complete b (Nat.not_lt.1 hlen)⟩

/-- Settles O40: in `RUN` the pair or the truncation, launched the header or its shortness. -/
theorem stepRunsTheDecodedUnit : Obligations.StepRunsTheDecodedUnit := by
  intro s es hinv hs
  refine ⟨fun hr => ⟨fun i rest h => ?pair, fun h => ?truncated⟩, fun hi hg => ⟨fun i rest h => ?header, fun h => ?short⟩⟩
  case pair =>
    obtain ⟨u, hframe, htotal, hin, hstep⟩ := step_of_pair_ahead hinv hs hr h
    exact ⟨(s.setSched es).setD u, congrArg (s.setSched es).setD (hframe.eq_counted htotal), hin, hstep⟩
  case truncated =>
    obtain ⟨u, hframe, htotal, hin, hstep⟩ := step_of_bits_short hinv hs hr (decode_pair_eq_truncated h)
    exact ⟨(s.setSched es).setD u, congrArg (s.setSched es).setD (hframe.eq_counted htotal), hin, hstep⟩
  case header =>
    obtain ⟨magic, prot, rfl, hrest, hread⟩ := hdrRd_of_decode h
    refine ⟨(s.setSched es).setD (pastHeader s.d), _, rfl, hrest, exec_hdr magic prot _, ?_⟩
    rw [step_turn_dStart hs hi hg]
    by_cases hm : magic = s.build.magic
    · rw [takeHeader_accepted hm] at hread
      have hphase : (pastHeader s.d).phase ≠ .fault := fun hf => by cases hi.symm.trans hf
      rw [decStart_of_accepted (by rw [hread]), hread, setD_build, setSched_build, setD_d, takeHeader_accepted hm]
      exact ⟨fun hf => absurd hf hphase, fun _ => ⟨_, storeGet_seedWt s.build s.d, rfl⟩⟩
    · rw [takeHeader_rejected hm] at hread
      rw [decStart_of_rejected (by rw [hread]), hread, setD_build, setSched_build, setD_d, takeHeader_rejected hm]
      exact ⟨fun _ => rfl, fun hf => absurd rfl hf⟩
  case short =>
    have hlen := decode_header_eq_truncated h
    rw [unpack_length] at hlen
    have hread := hdrRd_short s.build (d := s.d) (by omega)
    rw [step_turn_dStart hs hi hg, decStart_of_rejected (by rw [hread]), hread]
    rfl

end Sys2Proof.Machine
end

section
/-! The primitives `PRIM` (R120 to R126), and the model's choices for operands outside their range (log 12, 13, 15). -/

namespace Sys2Proof.Machine

/-! ### The primitives as instructions -/

theorem exec_primBitlen (n : Code) (s : State) :
    exec (.primBitlen n) s = .next (s.setRet (.width (bitlen n.toNat))) := rfl

theorem exec_primSwap16 (v : BitVec 16) (s : State) :
    exec (.primSwap16 v) s = .next (s.setRet (.half (swap16 v))) := rfl

theorem exec_primSwap32 (v : BitVec 32) (s : State) :
    exec (.primSwap32 v) s = .next (s.setRet (.full (swap32 v))) := rfl

theorem exec_primInccode (n : Code) (s : State) :
    exec (.primInccode n) s = .next (s.setRet (.inc (incCode s.build n).1 (incCode s.build n).2)) := rfl

/-! ### `bitlen` (R120, R121) -/

/-- Settles O1: `bitlen n` is the least `v` with `n < 2 ^ v`. -/
theorem bitlenIsTheLeastWidth : Obligations.BitlenIsTheLeastWidth :=
  fun s n => ⟨exec_primBitlen n s, lt_two_pow_bitlen n.toNat, fun _ => bitlen_le_of_lt⟩

/-- One bit less than `bitlen n` does not hold `n` (R121 (b)). -/
theorem two_pow_bitlen_pred_le {n : Nat} (h : 1 ≤ n) : 2 ^ (bitlen n - 1) ≤ n := by
  by_contra hlt
  have hle : bitlen n ≤ bitlen n - 1 := bitlen_le_of_lt (Nat.not_le.1 hlt)
  have hzero : n < 2 ^ 0 := bitlen_le_iff.1 (by omega)
  omega

/-- The next number needs at most one bit more: `n + 1 ≤ 2 ^ bitlen n` (R121 (c)). -/
theorem bitlen_succ_le (n : Nat) : bitlen (n + 1) ≤ bitlen n + 1 := by
  have hn := lt_two_pow_bitlen n
  exact bitlen_le_of_lt (by rw [Nat.pow_succ]; omega)

/-- An advance without a reset does not lower the width (R121, the epoch property). -/
theorem bitlen_incCode_mono {b : Build} {n : Code} (hb : b.Admitted) (hn : CounterOk b n)
    (hr : (incCode b n).2 = false) : bitlen n.toNat ≤ bitlen (incCode b n).1.toNat := by
  rcases incCode_spec hb hn with ⟨_, hreset⟩ | ⟨_, hadvance, hnext⟩
  · simp [hreset] at hr
  · rw [hadvance]
    exact bitlen_mono ((Nat.le_succ n.toNat).trans hnext.ge)

/-- Settles O2: R121 (a), (b), (c) and the epoch property. -/
theorem bitlenLaws : Obligations.BitlenLaws := by
  refine ⟨fun _ _ => bitlen_mono, fun n => ⟨lt_two_pow_bitlen n, two_pow_bitlen_pred_le⟩, fun n => ?_,
    fun _ _ => bitlen_incCode_mono⟩
  have hlower : bitlen n ≤ bitlen (n + 1) := bitlen_mono (Nat.le_succ n)
  have hupper := bitlen_succ_le n
  omega

/-! ### The width of a run (R122, R123) -/

/-- The counter of a unit in `RUN` is assignable (R23, R30). -/
theorem Shape.counterOk_of_run {s : State} {n : Code} (h : Shape s)
    (hn : (s.c.phase = .run ∧ n = s.c.next) ∨ (s.d.phase = .run ∧ n = s.d.next)) : CounterOk s.build n := by
  rcases hn with ⟨hr, rfl⟩ | ⟨hr, rfl⟩
  · exact h.c.counter hr
  · exact h.d.counter hr

/-- Two distinct codes lie below `START_CODE` (R7). -/
theorem two_le_startCode {b : Build} (hb : b.Admitted) : 2 ≤ b.startCode.toNat := by
  obtain ⟨hne, -, -, hempty, hstop, -⟩ := hb
  have hne' : b.emptyCode.toNat ≠ b.stopCode.toNat := mt BitVec.eq_of_toNat_eq hne
  omega

/-- Settles O3: the counter lies in `START_CODE .. MAX_CODE - 1`, and every code a pair can carry is below it. -/
theorem widthHoldsEveryCodeOfARun : Obligations.WidthHoldsEveryCodeOfARun := by
  intro s n hs hn
  obtain ⟨hlo, hhi⟩ := hs.counterOk_of_run hn
  refine ⟨bitlen_mono hlo, bitlen_mono (by omega), two_le_bitlen ((two_le_startCode hs.build).trans hlo),
    bitlen_code_le n, fun code hcode => Nat.lt_trans ?_ (lt_two_pow_bitlen n.toNat)⟩
  obtain ⟨-, -, -, hempty, hstop, -⟩ := hs.build
  rcases hcode with hlt | rfl | rfl
  · exact hlt
  · exact Nat.lt_of_lt_of_le hempty hlo
  · exact Nat.lt_of_lt_of_le hstop hlo

/-! ### The swaps (R124) -/

theorem swap16_low (v : BitVec 16) : (swap16 v).extractLsb' 0 8 = v.extractLsb' 8 8 :=
  BitVec.extractLsb'_append_eq_right

theorem swap16_high (v : BitVec 16) : (swap16 v).extractLsb' 8 8 = v.extractLsb' 0 8 :=
  BitVec.extractLsb'_append_eq_left

theorem swap16_swap16 (v : BitVec 16) : swap16 (swap16 v) = v := by
  calc swap16 (swap16 v)
      = v.extractLsb' 8 8 ++ v.extractLsb' 0 8 := congrArg₂ (· ++ ·) (swap16_low v) (swap16_high v)
    _ = v.extractLsb' 0 16 := BitVec.extractLsb'_append_extractLsb'_eq_extractLsb' rfl
    _ = v := BitVec.extractLsb'_eq_self

theorem swap32_byte0 (v : BitVec 32) : (swap32 v).extractLsb' 0 8 = v.extractLsb' 24 8 :=
  BitVec.extractLsb'_append_eq_right

theorem swap32_byte1 (v : BitVec 32) : (swap32 v).extractLsb' 8 8 = v.extractLsb' 16 8 :=
  (BitVec.extractLsb'_append_eq_of_le (by decide)).trans BitVec.extractLsb'_append_eq_right

theorem swap32_byte2 (v : BitVec 32) : (swap32 v).extractLsb' 16 8 = v.extractLsb' 8 8 :=
  (BitVec.extractLsb'_append_eq_of_le (by decide)).trans <|
    (BitVec.extractLsb'_append_eq_of_le (by decide)).trans BitVec.extractLsb'_append_eq_right

theorem swap32_byte3 (v : BitVec 32) : (swap32 v).extractLsb' 24 8 = v.extractLsb' 0 8 :=
  (BitVec.extractLsb'_append_eq_of_le (by decide)).trans <|
    (BitVec.extractLsb'_append_eq_of_le (by decide)).trans BitVec.extractLsb'_append_eq_left

theorem swap32_swap32 (v : BitVec 32) : swap32 (swap32 v) = v := by
  calc swap32 (swap32 v)
      = v.extractLsb' 24 8 ++ v.extractLsb' 16 8 ++ v.extractLsb' 8 8 ++ v.extractLsb' 0 8 := by
        rw [swap32, swap32_byte0, swap32_byte1, swap32_byte2, swap32_byte3]
    _ = v.extractLsb' 0 32 := by simp only [BitVec.extractLsb'_append_extractLsb'_eq_extractLsb']
    _ = v := BitVec.extractLsb'_eq_self

/-- Settles O4: byte by byte, and each swap is its own inverse. -/
theorem swapsReverseTheBytes : Obligations.SwapsReverseTheBytes := by
  refine fun s => ⟨fun v => ⟨_, exec_primSwap16 v s, swap16_low v, swap16_high v, ?undo16⟩,
    fun v => ⟨_, exec_primSwap32 v s, swap32_byte0 v, swap32_byte1 v, swap32_byte2 v, swap32_byte3 v, ?undo32⟩⟩
  case undo16 =>
    rw [exec_primSwap16, swap16_swap16]
    rfl
  case undo32 =>
    rw [exec_primSwap32, swap32_swap32]
    rfl

/-! ### `PRIM.INCCODE` (R126) -/

/-- Settles O5: the two ends of `incCode_spec`. -/
theorem inccodeAdvancesOrRestarts : Obligations.InccodeAdvancesOrRestarts := by
  intro s n hb hlo hhi
  refine ⟨_, _, exec_primInccode n s, Nat.ne_of_lt (incCode_counterOk hb ⟨hlo, hhi⟩).2, ?_⟩
  rcases incCode_spec hb ⟨hlo, hhi⟩ with ⟨hlast, hreset⟩ | ⟨hlt, hadvance, hnext⟩
  · rw [hreset]
    exact ⟨fun _ => ⟨rfl, rfl⟩, fun h => absurd hlast h⟩
  · rw [hadvance]
    exact ⟨fun h => absurd h (Nat.ne_of_lt hlt), fun _ => ⟨hnext, rfl⟩⟩

/-! ### Operands outside their range (log 12, 13, 15) -/

theorem exec_buRdpair_refused {w : Nat} (h : 16 < w) (s : State) :
    exec (.buRdpair w) s = .refused .widthNotAdmitted :=
  if_neg (by simpa [widthAdmitted] using h)

theorem exec_wtLookup_noSlot {s : State} {code : Code} (h : s.build.maxCode ≤ code.toNat) :
    exec (.wtLookup code) s = .fault .noSuchSlot := by
  simp [exec, execWtLookup, wtGet, Nat.not_lt.2 h]

theorem exec_wtStore_noSlot {s : State} {code : Code} (h : s.build.maxCode ≤ code.toNat) (word : Word) :
    exec (.wtStore code word) s = .fault .noSuchSlot := by
  simp [exec, execWtStore, wtSet, Nat.not_lt.2 h]

/-- Settles O6: the free value of `PRIM.INCCODE`, the refused width, and the codes that name no slot. -/
theorem operandsOutsideTheirRange : Obligations.OperandsOutsideTheirRange :=
  fun s => ⟨fun n => ⟨_, _, exec_primInccode n s⟩, fun _ h => exec_buRdpair_refused h s,
    fun _ h => ⟨exec_wtLookup_noSlot h, exec_wtStore_noSlot h⟩⟩

end Sys2Proof.Machine
end

section
/-! The bit packer's operations as instructions (R130 to R135): any of them but the flush appends a sequence of bits, and a
run of them appends the concatenation. -/

namespace Sys2Proof.Machine

/-! ### The operations as instructions -/

/-- The state after `BP.PUTBIT` of each bit in turn, with nothing returned. -/
def appendBits (xs : List Bool) (s : State) : State := (s.setC (putBits s.build xs s.c)).setRet .nothing

@[simp] theorem appendBits_c (xs : List Bool) (s : State) : (appendBits xs s).c = putBits s.build xs s.c := rfl
@[simp] theorem appendBits_ret (xs : List Bool) (s : State) : (appendBits xs s).ret = .nothing := rfl

theorem appendBits_nil {s : State} (h : s.ret = .nothing) : appendBits [] s = s := by
  rw [appendBits, putBits, setC_self, ← h, setRet_self]

theorem putBits_append (b : Build) (xs ys : List Bool) :
    ∀ c, putBits b (xs ++ ys) c = putBits b ys (putBits b xs c) := by
  induction xs with
  | nil => exact fun _ => rfl
  | cons x xs ih => exact fun c => ih (putBit b x c)

theorem appendBits_appendBits (xs ys : List Bool) (s : State) :
    appendBits ys (appendBits xs s) = appendBits (xs ++ ys) s :=
  congrArg (fun c => (s.setC c).setRet .nothing) (putBits_append s.build xs ys s.c).symm

/-- Appending bits changes the packer's state and `BYTEOUT` only (R130). -/
theorem appendBits_frame (xs : List Bool) (s : State) :
    appendBits xs s = (s.setC (withPacker s.c (appendBits xs s).c)).setRet .nothing :=
  congrArg (fun c => (s.setC c).setRet .nothing) (putBits_frame s.build xs s.c)

theorem exec_bpPutbit (x : Bool) (s : State) : exec (.bpPutbit x) s = .next (appendBits [x] s) := rfl

/-- The wire bits of R68 are the bits `BP.WRPAIR` puts. -/
theorem wireBits_eq (code : Code) (sym : Byte) (w : Nat) : wireBits code sym w = pairBits code sym w := rfl

theorem exec_bpWrpair {w : Nat} (h : w ≤ 16) (code : Code) (sym : Byte) (s : State) :
    exec (.bpWrpair code sym w) s = .next (appendBits (wireBits code sym w) s) :=
  if_pos (by simpa [widthAdmitted] using h)

theorem exec_bpWrpair_refused {w : Nat} (h : 16 < w) (code : Code) (sym : Byte) (s : State) :
    exec (.bpWrpair code sym w) s = .refused .widthNotAdmitted :=
  if_neg (by simpa [widthAdmitted] using h)

theorem exec_bpFlush (s : State) : exec .bpFlush s = .next ((s.setC (bpFlush s.c)).setRet .nothing) := rfl

theorem exec_hdrWr (prot : BitVec 16) (s : State) :
    exec (.hdrWr prot) s = .next ((s.setC (hdrWr s.build prot s.c)).setRet .nothing) := rfl

theorem execAll_append (is js : List Instr) :
    ∀ s, execAll (is ++ js) s = andThen (execAll is s) (execAll js) := by
  induction is with
  | nil => exact fun _ => rfl
  | cons i is ih =>
    intro s
    simp only [List.cons_append, execAll]
    cases exec i s with
    | next t => exact ih t
    | fault r => rfl
    | refused r => rfl

/-- Operations that each append some bits append, one after another, the concatenation. With no operation at all the last
result stands, which is why that case asks for none. -/
theorem execAll_appendBits {ι : Type} {op : ι → Instr} {bits : ι → List Bool} (is : List ι) :
    ∀ {s : State}, (∀ i ∈ is, ∀ s, exec (op i) s = .next (appendBits (bits i) s)) → is ≠ [] ∨ s.ret = .nothing →
      execAll (is.map op) s = .next (appendBits (is.flatMap bits) s) := by
  induction is with
  | nil =>
    intro s _ hret
    rw [List.flatMap_nil, appendBits_nil (by simpa using hret)]
    rfl
  | cons i is ih =>
    intro s hop _
    obtain ⟨hi, his⟩ := List.forall_mem_cons.1 hop
    rw [List.map_cons, execAll, hi, andThen_next, ih his (.inr (appendBits_ret ..)), appendBits_appendBits,
      List.flatMap_cons]

/-! ### One bit (R130, R131) -/

theorem putBit_bpBuf (b : Build) (x : Bool) (c : CUnit) : (putBit b x c).bpBuf = setBufBit c.bpBuf c.bpIdx x := by
  simp only [putBit]
  split <;> rfl

theorem putBit_of_full {b : Build} {c : CUnit} (x : Bool) (h : c.bpIdx + 1 = 8 * b.blockBytes) :
    (putBit b x c).byteOut = c.byteOut ++ memBytes (putBit b x c).bpBuf b.blockBytes ∧ (putBit b x c).bpIdx = 0 := by
  simp [putBit, sinkWrite, h]

theorem putBit_of_room {b : Build} {c : CUnit} (x : Bool) (h : c.bpIdx + 1 ≠ 8 * b.blockBytes) :
    (putBit b x c).byteOut = c.byteOut ∧ (putBit b x c).bpIdx = c.bpIdx + 1 := by
  simp [putBit, h]

/-- The byte of a bit buffer that takes the bit is the only one written (R66). -/
theorem memRead_setBufBit {m : Memory} {k a : Nat} (x : Bool) (h : a ≠ k / 8) :
    memRead (setBufBit m k x) a = memRead m a := by
  rw [setBufBit, memRead_write, if_neg h]

theorem putBit_bufBit (b : Build) (x : Bool) (c : CUnit) (k : Nat) :
    bufBit (putBit b x c).bpBuf k = if k = c.bpIdx then x else bufBit c.bpBuf k := by
  rw [putBit_bpBuf, bufBit_set]

theorem putBit_memRead {b : Build} {c : CUnit} (x : Bool) {a : Nat} (h : a ≠ c.bpIdx / 8) :
    memRead (putBit b x c).bpBuf a = memRead c.bpBuf a := by
  rw [putBit_bpBuf, memRead_setBufBit x h]

/-- Settles O7: the buffer after one written bit, and the index with and without a block transfer. -/
theorem putbitAppendsOneBit : Obligations.PutbitAppendsOneBit :=
  fun s x => ⟨_, exec_bpPutbit x s, putBit_bufBit s.build x s.c, fun _ ha => putBit_memRead x ha,
    putBit_totalBits s.build x s.c, putBit_of_full x, putBit_of_room x, appendBits_frame [x] s⟩

/-! ### A pair (R132, R133) -/

section
variable {b : Build}

/-- The index counts the bits produced, modulo the block (R26, R130). -/
theorem putBit_bpIdx_mod {c : CUnit} (x : Bool) (h : c.bpIdx < 8 * b.blockBytes) :
    (putBit b x c).bpIdx = (c.bpIdx + 1) % (8 * b.blockBytes) := by
  rw [putBit_bpIdx]
  split
  case isTrue hfull => rw [hfull, Nat.mod_self]
  case isFalse => rw [Nat.mod_eq_of_lt (by omega)]

theorem putBits_bpIdx_mod (xs : List Bool) : ∀ {c : CUnit}, c.bpIdx < 8 * b.blockBytes →
    (putBits b xs c).bpIdx = (c.bpIdx + xs.length) % (8 * b.blockBytes) := by
  induction xs with
  | nil => exact fun h => (Nat.mod_eq_of_lt h).symm
  | cons x xs ih =>
    intro c h
    rw [putBits, ih (putBit_idx x h), putBit_bpIdx_mod x h, Nat.mod_add_mod, List.length_cons, Nat.add_right_comm,
      Nat.add_assoc]

/-- Bytes of `bp_buf` that take none of the bits stay as they were. -/
theorem putBits_memRead {a : Nat} (xs : List Bool) : ∀ {c : CUnit}, c.bpIdx < 8 * b.blockBytes →
    (∀ j, j < xs.length → a ≠ (c.bpIdx + j) % (8 * b.blockBytes) / 8) →
    memRead (putBits b xs c).bpBuf a = memRead c.bpBuf a := by
  induction xs with
  | nil => exact fun _ _ => rfl
  | cons x xs ih =>
    intro c h ha
    have hfirst : a ≠ c.bpIdx / 8 := by simpa [Nat.mod_eq_of_lt h] using ha 0 (Nat.succ_pos _)
    have hrest : ∀ j, j < xs.length → a ≠ ((putBit b x c).bpIdx + j) % (8 * b.blockBytes) / 8 := fun j hj => by
      rw [putBit_bpIdx_mod x h, Nat.mod_add_mod, Nat.add_assoc, Nat.add_comm 1]
      exact ha (j + 1) (Nat.succ_lt_succ hj)
    rw [putBits, ih (putBit_idx x h) hrest, putBit_memRead x hfirst]

theorem outBits_length (c : CUnit) : (outBits c).length = 8 * c.byteOut.length + c.bpIdx := by simp [outBits]

/-- Every block the bits fill goes to the tape, and no other byte (R131). -/
theorem putBits_byteOut_length {c : CUnit} (xs : List Bool) (h : c.bpIdx < 8 * b.blockBytes) :
    (putBits b xs c).byteOut.length =
      c.byteOut.length + b.blockBytes * ((c.bpIdx + xs.length) / (8 * b.blockBytes)) := by
  have hlen := congrArg List.length (putBits_outBits b xs c)
  rw [List.length_append, outBits_length, outBits_length, putBits_bpIdx_mod xs h] at hlen
  have hdiv := Nat.div_add_mod (c.bpIdx + xs.length) (8 * b.blockBytes)
  rw [Nat.mul_assoc] at hdiv
  omega

end

theorem wireBits_length (code : Code) (sym : Byte) (w : Nat) : (wireBits code sym w).length = w + 8 :=
  pairBits_length code sym w

/-- Settles O8: the pair is its bits in order, and what bits in order do. -/
theorem wrpairIsItsPutbits : Obligations.WrpairIsItsPutbits := by
  intro s code sym w hw
  have hlen := wireBits_length code sym w
  have hputs : execAll ((wireBits code sym w).map .bpPutbit) s = .next (appendBits (wireBits code sym w) s) := by
    have hne : wireBits code sym w ≠ [] := List.ne_nil_of_length_pos (by omega)
    rw [execAll_appendBits _ (fun x _ => exec_bpPutbit x) (.inl hne), List.flatMap_singleton']
  refine ⟨(exec_bpWrpair hw ..).trans hputs.symm, _, exec_bpWrpair hw .., putBits_outBits .., ?count,
    fun _ hidx => ⟨?transfers, ?index, fun a ha => ?untouched⟩, appendBits_frame ..⟩
  all_goals rw [appendBits_c]
  case count => rw [putBits_totalBits, hlen]
  case transfers => rw [putBits_byteOut_length _ hidx, hlen]
  case index => rw [putBits_bpIdx_mod _ hidx, hlen]
  case untouched => exact putBits_memRead _ hidx (hlen ▸ ha)

/-- The code bits above the width are dropped (R133 (b)). -/
theorem wireBits_mod (code : Code) (sym : Byte) (w : Nat) :
    wireBits (BitVec.ofNat 16 (code.toNat % 2 ^ w)) sym w = wireBits code sym w := by
  have hlt : code.toNat % 2 ^ w < 2 ^ 16 := Nat.lt_of_le_of_lt (Nat.mod_le ..) code.isLt
  rw [wireBits_eq, wireBits_eq, pairBits, pairBits, BitVec.toNat_ofNat, Nat.mod_eq_of_lt hlt, bitsOf_mod]

theorem natOf_take_wireBits (code : Code) (sym : Byte) (w : Nat) :
    natOf ((wireBits code sym w).take w) = code.toNat % 2 ^ w := by
  rw [wireBits_eq, pairBits, List.take_left' (bitsOf_length ..), natOf_bitsOf]

/-- Settles O9: the bits depend on the operands alone, and on no code bit above the width. -/
theorem wrpairCornerCases : Obligations.WrpairCornerCases := by
  refine ⟨fun s code sym w hw => ?wide, fun s code sym w hw => exec_bpWrpair_refused hw .., fun code sym w hw =>
    ⟨wireBits code sym w, wireBits_length .., ?zero, natOf_take_wireBits .., fun s =>
      ⟨_, exec_bpWrpair hw .., putBits_outBits ..⟩⟩⟩
  case wide => rw [exec_bpWrpair hw, exec_bpWrpair hw, wireBits_mod]
  case zero =>
    rintro rfl
    rfl

/-! ### The flush (R134) -/

theorem bpFlush_of_empty {c : CUnit} (h : c.bpIdx = 0) : bpFlush c = c := if_neg (by omega)

theorem bpFlush_of_buffered {c : CUnit} (h : 0 < c.bpIdx) :
    bpFlush c = { c with bpBuf := (bpFlush c).bpBuf, bpIdx := 0,
                         byteOut := c.byteOut ++ memBytes (bpFlush c).bpBuf ((c.bpIdx + 7) / 8) } := by
  simp [bpFlush, h, sinkWrite]

theorem bpFlush_bpBuf {c : CUnit} (h : 0 < c.bpIdx) :
    (bpFlush c).bpBuf = clearBufBits c.bpBuf c.bpIdx (8 * ((c.bpIdx + 7) / 8) - c.bpIdx) := by
  simp [bpFlush, h]

theorem bpFlush_bpIdx (c : CUnit) : (bpFlush c).bpIdx = 0 := by
  obtain ⟨-, hidx, -⟩ := bpFlush_spec c
  exact hidx

theorem bpFlush_totalBits (c : CUnit) : (bpFlush c).totalBits = c.totalBits := by
  obtain ⟨-, -, htotal⟩ := bpFlush_spec c
  exact htotal

/-- A second flush does nothing (R134). -/
theorem bpFlush_bpFlush (c : CUnit) : bpFlush (bpFlush c) = bpFlush c := bpFlush_of_empty (bpFlush_bpIdx c)

/-- A byte with no cleared bit is not written. -/
theorem memRead_clearBufBits {a : Nat} (n : Nat) : ∀ {m : Memory} {k : Nat},
    (∀ j, k ≤ j → j < k + n → a ≠ j / 8) → memRead (clearBufBits m k n) a = memRead m a := by
  induction n with
  | zero => exact fun _ => rfl
  | succ n ih =>
    intro m k h
    rw [clearBufBits, ih fun j hlo hhi => h j (by omega) (by omega),
      memRead_setBufBit false (h k (Nat.le_refl k) (by omega))]

section
variable {c : CUnit}

/-- The pad ends at the byte boundary after the last bit (R134). -/
theorem pad_end (k : Nat) : k + (8 * ((k + 7) / 8) - k) = 8 * ((k + 7) / 8) := by omega

theorem bpFlush_bufBit (h : 0 < c.bpIdx) (k : Nat) :
    bufBit (bpFlush c).bpBuf k =
      if c.bpIdx ≤ k ∧ k < 8 * ((c.bpIdx + 7) / 8) then false else bufBit c.bpBuf k := by
  rw [bpFlush_bpBuf h, bufBit_clear, pad_end]

/-- All pad bits lie in the byte `bp_idx` stands in. -/
theorem bpFlush_memRead (h : 0 < c.bpIdx) {a : Nat} (ha : a ≠ c.bpIdx / 8) :
    memRead (bpFlush c).bpBuf a = memRead c.bpBuf a := by
  rw [bpFlush_bpBuf h]
  refine memRead_clearBufBits _ fun j hlo hhi => ?_
  rw [pad_end] at hhi
  omega

end

/-- Settles O10: nothing for an empty buffer, otherwise the pad bits cleared and the bytes written. -/
theorem flushPadsAndWrites : Obligations.FlushPadsAndWrites := by
  refine fun s => ⟨_, exec_bpFlush s, fun hempty => ?empty,
    fun hbuffered => ⟨bpFlush_bufBit hbuffered, fun _ ha => bpFlush_memRead hbuffered ha, ?frame⟩, ?again⟩
  case empty =>
    rw [bpFlush_of_empty hempty]
    rfl
  case frame => exact congrArg (fun c => (s.setC c).setRet .nothing) (bpFlush_of_buffered hbuffered)
  case again =>
    rw [exec_bpFlush, setRet_c, setC_c, bpFlush_bpFlush]
    rfl

/-! ### The tape (R135) -/

/-- When whole bytes and then some bits have been produced, the flush leaves the bytes and the packed bits (R134, R85). -/
theorem bpFlush_byteOut {c : CUnit} {y : List Byte} {xs : List Bool} (h : outBits c = unpack y ++ xs) :
    (bpFlush c).byteOut = y ++ pack xs := by
  have hpad : (8 - (outBits c).length % 8) % 8 = (8 - xs.length % 8) % 8 := by
    rw [h, List.length_append, unpack_length]
    omega
  apply unpack_injective
  rw [← outBits_of_idx_zero (bpFlush_bpIdx c), bpFlush_outBits, hpad, h, unpack_append, unpack_pack, List.append_assoc]

/-- Settles O11: the pairs append their bits to the header's, and the flush packs them. -/
theorem packerTapeIsThePackedBits : Obligations.PackerTapeIsThePackedBits := by
  intro s prot pairs _ hout hidx hw
  set xs := pairs.flatMap (fun p => wireBits p.1 p.2.1 p.2.2)
  have hlen : xs.length = (pairs.map (fun p => p.2.2 + 8)).sum := by
    simp only [xs, List.length_flatMap, wireBits_length]
  have hrun : execAll (.hdrWr prot :: pairs.map (fun p => .bpWrpair p.1 p.2.1 p.2.2) ++ [.bpFlush]) s =
      .next ((s.setC (bpFlush (putBits s.build xs (hdrWr s.build prot s.c)))).setRet .nothing) := by
    rw [List.cons_append, execAll, exec_hdrWr, andThen_next, execAll_append,
      execAll_appendBits pairs (fun p hp => exec_bpWrpair (hw p hp) p.1 p.2.1) (.inr rfl)]
    rfl
  have hbits : outBits (putBits s.build xs (hdrWr s.build prot s.c)) = unpack (headerBytes s.build.magic prot) ++ xs := by
    rw [putBits_outBits, hdrWr_outBits _ _ hidx, outBits_of_idx_zero hidx, hout, unpack_nil, List.nil_append]
  have htape := bpFlush_byteOut hbits
  refine ⟨_, hrun, htape, ?length, ?count⟩
  all_goals rw [setRet_c, setC_c]
  case length =>
    rw [htape, List.length_append, pack_length, hlen]
    rfl
  case count =>
    rw [bpFlush_totalBits, putBits_totalBits, hlen]
    rfl

end Sys2Proof.Machine
end

section
/-! The bit unpacker's operations as instructions (R145 to R150): one bit, and a pair as so many bits. -/

namespace Sys2Proof.Machine

section
variable {b : Build} {d : DUnit}

/-! ### One bit (R145, R146) -/

theorem exec_buGetbit (s : State) :
    exec .buGetbit s = .next ((s.setD (getBit s.build s.d).2).setRet (.bit (getBit s.build s.d).1)) := rfl

/-- Unit `D` after the refill of `BU.GETBIT`, its first bit not yet delivered (R146). -/
def refilled (b : Build) (d : DUnit) : DUnit :=
  let r := srcRead d.byteIn b.blockBytes
  { d with byteIn := r.2, buBuf := memLoad d.buBuf 0 r.1, buEnd := 8 * r.1.length, buIdx := 0 }

theorem getBit_of_buffered (h : d.buIdx ≠ d.buEnd) : getBit b d = takeBit d := if_neg h

theorem getBit_of_exhausted (h : d.buIdx = d.buEnd) (hnil : (srcRead d.byteIn b.blockBytes).1 = []) :
    getBit b d = (none, d) := by
  simp only [getBit, if_pos h, hnil, if_true, srcRead_end hnil]

theorem getBit_of_refill (h : d.buIdx = d.buEnd) (hne : (srcRead d.byteIn b.blockBytes).1 ≠ []) :
    getBit b d = takeBit (refilled b d) := by
  simp only [getBit, if_pos h, if_neg hne, refilled]

/-- Everything `BU.GETBIT` can do: a buffered bit, `END` with nothing changed, or a refill and its first bit. -/
theorem getBit_cases (b : Build) (d : DUnit) :
    (d.buIdx ≠ d.buEnd ∧ getBit b d = takeBit d) ∨
    (d.buIdx = d.buEnd ∧ (srcRead d.byteIn b.blockBytes).1 = [] ∧ getBit b d = (none, d)) ∨
    (d.buIdx = d.buEnd ∧ (srcRead d.byteIn b.blockBytes).1 ≠ [] ∧ getBit b d = takeBit (refilled b d)) := by
  by_cases h : d.buIdx = d.buEnd
  · by_cases hnil : (srcRead d.byteIn b.blockBytes).1 = []
    · exact .inr (.inl ⟨h, hnil, getBit_of_exhausted h hnil⟩)
    · exact .inr (.inr ⟨h, hnil, getBit_of_refill h hnil⟩)
  · exact .inl ⟨h, getBit_of_buffered h⟩

/-- The bytes a refill brings stand at the front of the buffer, the others are as before. -/
theorem memRead_refilled (b : Build) (d : DUnit) (a : Nat) :
    memRead (refilled b d).buBuf a =
      if a < ((unread d.byteIn).take b.blockBytes).length then ((unread d.byteIn).take b.blockBytes).getD a 0#8
      else memRead d.buBuf a := by
  have h := memRead_load (srcRead d.byteIn b.blockBytes).1 d.buBuf 0 a
  simp only [Nat.zero_le, true_and, Nat.zero_add, Nat.sub_zero] at h
  exact h

/-- Settles O13: the three cases of a bit. -/
theorem getbitDeliversOrEnds : Obligations.GetbitDeliversOrEnds := by
  intro s hblock
  refine ⟨fun hbuf => ?buffered, fun hidx hnil => ?exhausted, fun hidx hne => ⟨_, _, rfl, exec_buGetbit s, ?refill⟩⟩
  case buffered =>
    rw [exec_buGetbit, getBit_of_buffered hbuf]
    rfl
  case exhausted =>
    have hblk : (srcRead s.d.byteIn s.build.blockBytes).1 = [] := List.take_eq_nil_iff.2 (.inr hnil)
    rw [exec_buGetbit, getBit_of_exhausted hidx hblk]
    rfl
  case refill =>
    have hblk : (unread s.d.byteIn).take s.build.blockBytes ≠ [] :=
      mt List.take_eq_nil_iff.1 (not_or.2 ⟨Nat.ne_of_gt hblock, hne⟩)
    have hfirst : bufBit (refilled s.build s.d).buBuf 0 =
        (((unread s.d.byteIn).take s.build.blockBytes).getD 0 0#8).getLsbD 0 := by
      rw [bufBit, memRead_refilled, if_pos (List.length_pos_of_ne_nil hblk)]
    rw [getBit_of_refill hidx hblk, ← hfirst]
    exact ⟨memRead_refilled s.build s.d, rfl⟩

/-! ### Several bits (R148) -/

theorem getBit_end_keeps (h : (getBit b d).1 = none) : (getBit b d).2 = d := by
  rcases getBit_cases b d with ⟨_, heq⟩ | ⟨_, _, heq⟩ | ⟨_, _, heq⟩
  · rw [heq] at h; cases h
  · rw [heq]
  · rw [heq] at h; cases h

theorem getBits_of_end (h : (getBit b d).1 = none) (n : Nat) : getBits b n d = ([], d) := by
  cases n with
  | zero => rfl
  | succ n => rw [getBits_none h, getBit_end_keeps h]

/-- `BU.GETBIT` invoked `n` times takes the bits the stream has, up to `n`: past its end each one returns `END`. -/
theorem execAll_buGetbit (n : Nat) : ∀ s : State, ∃ r, execAll (List.replicate n .buGetbit) s =
    .next ((s.setD (getBits s.build n s.d).2).setRet r) := by
  induction n with
  | zero => exact fun s => ⟨s.ret, rfl⟩
  | succ n ih =>
    intro s
    obtain ⟨r, hr⟩ := ih ((s.setD (getBit s.build s.d).2).setRet (.bit (getBit s.build s.d).1))
    refine ⟨r, ?_⟩
    rw [List.replicate_succ, execAll, exec_buGetbit, andThen_next, hr, setRet_build, setD_build, setRet_d, setD_d]
    cases h : (getBit s.build s.d).1 with
    | none => rw [getBit_end_keeps h, getBits_of_end h, getBits_of_end h]; rfl
    | some x => rw [getBits_some h]; rfl

/-- Bytes of `bu_buf` outside the block are never written (R33). -/
theorem getBit_memRead {a : Nat} (h : b.blockBytes ≤ a) (d : DUnit) :
    memRead (getBit b d).2.buBuf a = memRead d.buBuf a := by
  rcases getBit_cases b d with ⟨_, heq⟩ | ⟨_, _, heq⟩ | ⟨_, _, heq⟩
  · rw [heq]; rfl
  · rw [heq]
  · have hlen : ¬ a < ((unread d.byteIn).take b.blockBytes).length := by
      rw [List.length_take]
      omega
    rw [heq]
    exact (memRead_refilled b d a).trans (if_neg hlen)

theorem getBits_memRead {a : Nat} (h : b.blockBytes ≤ a) (n : Nat) :
    ∀ d, memRead (getBits b n d).2.buBuf a = memRead d.buBuf a := by
  induction n with
  | zero => exact fun _ => rfl
  | succ n ih =>
    intro d
    cases hx : (getBit b d).1 with
    | none => rw [getBits_of_end hx]
    | some x => rw [getBits_some hx, ih, getBit_memRead h]

/-- Bits that are all buffered are taken without a refill. -/
theorem getBits_buBuf (n : Nat) : ∀ {d : DUnit}, d.buIdx + n ≤ d.buEnd → (getBits b n d).2.buBuf = d.buBuf := by
  induction n with
  | zero => exact fun _ => rfl
  | succ n ih =>
    intro d h
    have hbit : getBit b d = takeBit d := getBit_of_buffered (by omega)
    have hrest : (takeBit d).2.buIdx + n ≤ (takeBit d).2.buEnd := by
      simp only [takeBit]
      omega
    rw [getBits_some (x := bufBit d.buBuf d.buIdx) (by rw [hbit]; rfl), hbit, ih hrest]
    rfl

/-! ### A pair (R148, R150) -/

theorem exec_buRdpair {w : Nat} (h : w ≤ 16) (s : State) :
    exec (.buRdpair w) s = .next ((s.setD (rdPair s.build w s.d).2.2).setRet
      (.pair (rdPair s.build w s.d).1 (rdPair s.build w s.d).2.1)) :=
  if_pos (by simpa [widthAdmitted] using h)

theorem pairCode_take (d : DUnit) (w : Nat) : pairCode w ((inBits d).take (w + 8)) = nextCode d w := by
  simp [pairCode, nextCode, List.take_take]

theorem pairSym_take (d : DUnit) (w : Nat) : pairSym w ((inBits d).take (w + 8)) = nextSym d w := by
  simp [pairSym, nextSym, List.drop_take, List.take_take]

/-- A whole pair ahead: the unit its bits leave, with the pair latched (R148). -/
theorem rdPair_of_ahead (hb : 1 ≤ b.blockBytes) (h : UnpackerOk b d) {w : Nat} (hl : w + 8 ≤ (inBits d).length) :
    rdPair b w d = (nextCode d w != b.stopCode, false,
      { (getBits b (w + 8) d).2 with code := nextCode d w, sym := nextSym d w }) := by
  obtain ⟨hbits, _⟩ := getBits_spec hb (w + 8) h
  have htrunc : truncFlag w ((inBits d).take (w + 8)) = false := by simp [truncFlag, hl]
  simp [rdPair, hasMoreFlag, hbits, htrunc, pairCode_take, pairSym_take]

/-- Too few bits ahead: the unit they leave, the latch as it was (R150). -/
theorem rdPair_of_short (hb : 1 ≤ b.blockBytes) (h : UnpackerOk b d) {w : Nat} (hl : (inBits d).length < w + 8) :
    rdPair b w d = (false, true, (getBits b (w + 8) d).2) := by
  obtain ⟨hbits, _⟩ := getBits_spec hb (w + 8) h
  have htrunc : truncFlag w (getBits b (w + 8) d).1 = true := by simp [truncFlag, hbits, hl]
  simp [rdPair, hasMoreFlag, htrunc]

end

/-- Settles O14: `w + 8` times `BU.GETBIT` leaves the unit `BU.RDPAIR` leaves, but for the latch of a whole pair. -/
theorem rdpairReadsOneOrTruncates : Obligations.RdpairReadsOneOrTruncates := by
  intro s w hs hw
  have hblock := one_le_blockBytes hs.build
  obtain ⟨r, hbits⟩ := execAll_buGetbit (w + 8) s
  obtain ⟨_, hrest, htotal, hframe, _⟩ := getBits_spec hblock (w + 8) hs.d.unpacker
  refine ⟨_, hbits, hrest, htotal, ?frame, fun a ha => getBits_memRead ha (w + 8) s.d, getBits_buBuf (w + 8),
    fun hl => ?complete, fun hl => ?truncated⟩
  case frame => exact congrArg (fun d => (s.setD d).setRet r) (hframe.eq_counted rfl)
  case complete =>
    rw [exec_buRdpair hw, rdPair_of_ahead hblock hs.d.unpacker hl]
    rfl
  case truncated =>
    rw [exec_buRdpair hw, rdPair_of_short hblock hs.d.unpacker hl]
    rfl

end Sys2Proof.Machine
end

section
/-! What unit `D` makes of the tape of an input (R98, R151): the tape as header, data pairs, stop pair and pad, the launch on
such a tape, and its end when the last byte is missing. -/

namespace Sys2Proof

/-! ### Bits and bytes of a tape (R85) -/

theorem unpack_take (y : List Byte) (k : Nat) : unpack (y.take k) = (unpack y).take (8 * k) := by
  have hsplit : unpack y = unpack (y.take k) ++ unpack (y.drop k) := by rw [← unpack_append, List.take_append_drop]
  by_cases h : k ≤ y.length
  · rw [hsplit, List.take_left' (by rw [unpack_length, List.length_take_of_le h])]
  · rw [List.take_of_length_le (by omega), List.take_of_length_le (by rw [unpack_length]; omega)]

/-- A tape whose bits begin with those of some bytes begins with these bytes. -/
theorem exists_append_of_unpack {y z : List Byte} {xs : List Bool} (h : unpack z = unpack y ++ xs) :
    ∃ y', z = y ++ y' ∧ unpack y' = xs := by
  have htake : z.take y.length = y := by
    apply unpack_injective
    rw [unpack_take, h, List.take_left' (unpack_length y)]
  have hz : z = y ++ z.drop y.length := by
    conv_lhs => rw [← List.take_append_drop y.length z, htake]
  refine ⟨z.drop y.length, hz, ?_⟩
  rw [hz, unpack_append] at h
  exact List.append_cancel_left h

/-- A tape that ends in a byte or more of bits `S` and at most 7 pad bits loses some of `S` with its last byte (R151). -/
theorem unpack_dropLast_cuts {y : List Byte} {E S : List Bool} {k : Nat} (hk : k < 8) (hS : 8 ≤ S.length)
    (h : unpack y = E ++ S ++ List.replicate k false) :
    ∃ R, unpack y.dropLast = E ++ R ∧ R.length < S.length := by
  have hlen := congrArg List.length h
  simp only [unpack_length, List.length_append, List.length_replicate] at hlen
  refine ⟨(S ++ List.replicate k false).take (S.length + k - 8), ?_, ?_⟩
  · rw [List.dropLast_eq_take, unpack_take, h, List.append_assoc, List.take_append, List.take_of_length_le (by omega)]
    congr 2
    omega
  · rw [List.length_take]
    omega

end Sys2Proof

namespace Sys2Proof.Machine

/-! ### The header's bytes read back (R97) -/

theorem headerMagic_headerBytes (magic : BitVec 32) (prot : BitVec 16) : headerMagic (headerBytes magic prot) = magic := by
  apply BitVec.eq_of_toNat_eq
  simp only [headerMagic, headerBytes, byteAt, List.getD_cons_zero, List.getD_cons_succ, BitVec.extractLsb'_toNat,
    Nat.shiftRight_eq_div_pow, BitVec.toNat_ofNat]
  omega

theorem headerProt_headerBytes (magic : BitVec 32) (prot : BitVec 16) : headerProt (headerBytes magic prot) = prot := by
  apply BitVec.eq_of_toNat_eq
  simp only [headerProt, headerBytes, byteAt, List.getD_cons_zero, List.getD_cons_succ, BitVec.extractLsb'_toNat,
    Nat.shiftRight_eq_div_pow, BitVec.toNat_ofNat]
  omega

section
variable {b : Build}

/-! ### The tape of an input (R98, R175) -/

/-- The tape of an input: its header, then the bits of data pairs whose words make up the input, the stop pair, and the pad. -/
theorem Encodes.tape {input : List Byte} {prot : BitVec 16} {out : List Byte} (hb : b.Admitted)
    (h : Encodes b input prot out) :
    ∃ y E a n k, out = headerBytes b.magic prot ++ y ∧ Feeds b E a n ∧ a.out = input ∧ k < 8 ∧
      unpack y = E ++ pairBits b.stopCode 0#8 (bitlen a.next.toNat) ++ List.replicate k false := by
  obtain ⟨t, ht, _, rfl⟩ := h
  obtain ⟨hshape, htrie, hrun⟩ := encStart_keeps hb (inv_launchC hb input prot).shape.c
  have hstart := step_encStart (s := launchC b input prot) rfl rfl rfl
  obtain ⟨u, E, a, n, k, hu, _, hk, hbits, hfeeds, hout, _⟩ := runC_to_done hb input
    (s := ((launchC b input prot).setC (encStart b (launchedC input prot))).setRet .nothing)
    rfl rfl hrun hshape htrie rfl (inStep_encStart b _)
  rw [runSteps, hstart, andThen_next] at ht
  cases hu.symm.trans ht
  have hheader : outBits (encStart b (launchedC input prot)) = unpack (headerBytes b.magic prot) :=
    hdrWr_outBits b prot (c := launchedC input prot) rfl
  rw [hheader, List.append_assoc, List.append_assoc, ← List.append_assoc E] at hbits
  obtain ⟨y, hy, hrest⟩ := exists_append_of_unpack hbits
  exact ⟨y, E, a, n, k, hy, hfeeds, hout, hk, hrest⟩

/-! ### A launch on a tape (R198, R199) -/

/-- `D.START` on the bytes of a header: accepted, whatever follows them (R198, R212). -/
theorem decStart_headerBytes (b : Build) (prot : BitVec 16) (y : List Byte) :
    decStart b (launchedD (headerBytes b.magic prot ++ y)) =
      { seedWt b { pastHeader (launchedD (headerBytes b.magic prot ++ y)) with prot := prot } with
        next := b.startCode, phase := .run } := by
  have htake : (unread (launchedD (headerBytes b.magic prot ++ y)).byteIn).take 6 = headerBytes b.magic prot :=
    List.take_left' rfl
  have hread := hdrRd_complete b (d := launchedD (headerBytes b.magic prot ++ y))
    (by simp [unread, launchedD, headerBytes])
  rw [htake, headerMagic_headerBytes, headerProt_headerBytes, takeHeader_accepted rfl] at hread
  rw [decStart_of_accepted (congrArg Prod.fst hread), hread]

/-- After `D.START` on a good header unit `D` holds the seeded dictionary and has the rest of the tape to read. -/
theorem holds_decStart (hb : b.Admitted) (prot : BitVec 16) (y : List Byte) :
    Holds b (decStart b (launchedD (headerBytes b.magic prot ++ y))) (Dict.start b) (unpack y) ∧
      (decStart b (launchedD (headerBytes b.magic prot ++ y))).prot = prot := by
  obtain ⟨hshape, hwt⟩ := decStart_keeps (d := launchedD (headerBytes b.magic prot ++ y)) hb (inv_launchD hb _).shape.d rfl
  rw [decStart_headerBytes] at hshape hwt ⊢
  exact ⟨⟨hshape, hwt rfl, rfl, rfl, rfl, rfl, rfl⟩, rfl⟩

/-- Unit `D` launched on a header and the bits of `n` data pairs has taken them after `n + 1` steps. -/
theorem runSteps_launchD_feeds (hb : b.Admitted) (prot : BitVec 16) {y : List Byte} {E R : List Bool} {a : Dict} {n : Nat}
    (hfeeds : Feeds b E a n) (hy : unpack y = E ++ R) :
    ∃ t, runSteps (n + 1) (launchD b (headerBytes b.magic prot ++ y)) = .next t ∧ t.build = b ∧ t.sched = [] ∧
      nextOpC t.c = none ∧ Holds b t.d a R ∧ t.d.prot = prot := by
  obtain ⟨hholds, hprot⟩ := holds_decStart hb prot y
  rw [hy] at hholds
  have hstart := step_decStart (s := launchD b (headerBytes b.magic prot ++ y)) rfl rfl rfl rfl
  obtain ⟨t, ht, hbuild, hsched, hc, hheld, hkept⟩ := runD_feeds hb hfeeds R
    (s := ((launchD b (headerBytes b.magic prot ++ y)).setD _).setRet .nothing) rfl rfl rfl hholds
  exact ⟨t, by rw [runSteps, hstart, andThen_next]; exact ht, hbuild, hsched, by rw [hc]; rfl, hheld, hkept.trans hprot⟩

/-- A run of unit `D` that has come to rest within the steps `DecodesTo` allows is its end. -/
theorem decodesTo_of_rest {tape : List Byte} {m : Nat} {t : State} (h : runSteps m (launchD b tape) = .next t)
    (hm : m ≤ tape.length + 2) (hs : t.sched = []) (hc : nextOpC t.c = none) (hr : t.d.phase ≠ .run)
    (hi : t.d.phase ≠ .idle) : DecodesTo b tape t := by
  obtain ⟨k, hk⟩ := Nat.exists_eq_add_of_le hm
  have hrest := step_rest hs hc (nextOpD_eq_none (fun hgo => hi hgo.1) hr)
  exact ⟨by rw [hk, runSteps_add, h, andThen_next, runSteps_stays hrest], hr, hi⟩

/-! ### A truncated tape (R151, R201) -/

/-- Too few bits left for a pair: fault entry, with every byte of the dictionary's words out. -/
theorem Holds.truncated {d : DUnit} {a : Dict} {R : List Bool} (hb : b.Admitted) (h : Holds b d a R)
    (hR : R.length < bitlen a.next.toNat + 8) :
    ∃ d', decStep b d = .next d' ∧ d'.phase = .fault ∧ d'.status = .corruptTrunc ∧ d'.symOut = a.out := by
  obtain ⟨u, hstep, _, _, hframe, _⟩ := decStep_trunc (one_le_blockBytes hb) h.shape.unpacker
    (by rw [h.bits, h.next]; exact hR)
  have hout : outSyms u = a.out := by
    obtain ⟨hbuf, _⟩ := hframe.touches .writer (by simp)
    obtain ⟨hidx, hsym⟩ := hframe.touches .output (by simp)
    rw [← h.out, outSyms, outSyms, hbuf, hidx, hsym]
  rw [raise_spec] at hstep
  exact ⟨_, hstep, rfl, rfl, hout⟩

end

/-- Settles O58: without its last byte the tape still holds every data pair, and too little of the stop pair. -/
theorem truncationIsDetected : Obligations.TruncationIsDetected := by
  intro b input prot out hb henc
  obtain ⟨y, E, a, n, k, rfl, hfeeds, rfl, hk, hbits⟩ := henc.tape hb
  have hstop := pairBits_length b.stopCode 0#8 (bitlen a.next.toNat)
  obtain ⟨R, hcut, hR⟩ := unpack_dropLast_cuts hk (by omega) hbits
  have hy : y ≠ [] := by
    rintro rfl
    have hlen := congrArg List.length hbits
    simp only [unpack_nil, List.length_nil, List.length_append, hstop] at hlen
    omega
  have hpairs : n ≤ y.dropLast.length := by
    have hE := hfeeds.length
    have hlen := congrArg List.length hcut
    rw [unpack_length, List.length_append] at hlen
    omega
  rw [List.dropLast_append_of_ne_nil hy]
  obtain ⟨t, ht, hbuild, hsched, hc, hholds, _⟩ := runSteps_launchD_feeds hb prot hfeeds hcut
  obtain ⟨d', hstep, hphase, hstatus, hout⟩ := hholds.truncated hb (hstop ▸ hR)
  have hlast := step_decStep hsched hc hholds.run (hbuild ▸ hstep)
  have hrun : runSteps (n + 1 + 1) (launchD b (headerBytes b.magic prot ++ y.dropLast)) =
      .next ((t.setD d').setRet .nothing) := by
    rw [runSteps_add, ht, andThen_next, runSteps, hlast, andThen_next]
    rfl
  exact ⟨_, decodesTo_of_rest hrun (by rw [List.length_append]; omega) hsched hc (by simp [hphase]) (by simp [hphase]),
    hphase, hstatus, hout⟩

end Sys2Proof.Machine
end

section
/-! The symbol reader's and the word writer's operations as instructions (R160 to R165): a symbol by what the buffer and
the tape still hold, and words as the bytes of their concatenation. -/

namespace Sys2Proof.Machine

/-! ### One symbol (R160) -/

section
variable {b : Build} {c : CUnit}

theorem exec_srRdsym (s : State) :
    exec .srRdsym s = .next ((s.setC (rdSym s.build s.c).2).setRet (.sym (rdSym s.build s.c).1)) := rfl

/-- Unit `C` after the refill of `SR.RDSYM`, its first symbol not yet delivered (R160). -/
def refilledReader (b : Build) (c : CUnit) : CUnit :=
  let r := srcRead c.symIn b.blockBytes
  { c with symIn := r.2, srBuf := memLoad c.srBuf 0 r.1, srEnd := r.1.length, srIdx := 0 }

theorem rdSym_of_buffered (h : c.srIdx ≠ c.srEnd) : rdSym b c = takeSym c := if_neg h

theorem rdSym_of_exhausted (h : c.srIdx = c.srEnd) (hnil : (srcRead c.symIn b.blockBytes).1 = []) :
    rdSym b c = (none, c) := by
  simp only [rdSym, if_pos h, hnil, if_true, srcRead_end hnil]

theorem rdSym_of_refill (h : c.srIdx = c.srEnd) (hne : (srcRead c.symIn b.blockBytes).1 ≠ []) :
    rdSym b c = takeSym (refilledReader b c) := by
  simp only [rdSym, if_pos h, if_neg hne, refilledReader]

/-- The bytes a refill brings stand at the front of the buffer, the others are as before. -/
theorem memRead_refilledReader (b : Build) (c : CUnit) (a : Nat) :
    memRead (refilledReader b c).srBuf a =
      if a < ((unread c.symIn).take b.blockBytes).length then ((unread c.symIn).take b.blockBytes).getD a 0#8
      else memRead c.srBuf a := by
  have h := memRead_load (srcRead c.symIn b.blockBytes).1 c.srBuf 0 a
  simp only [Nat.zero_le, true_and, Nat.zero_add, Nat.sub_zero] at h
  exact h

end

/-- Settles O15: the three cases of a symbol. -/
theorem rdsymDeliversOrEnds : Obligations.RdsymDeliversOrEnds := by
  intro s hblock
  refine ⟨fun hbuf => ?buffered, fun hidx hnil => ?exhausted, fun hidx hne => ⟨_, _, rfl, exec_srRdsym s, ?refill⟩⟩
  case buffered =>
    rw [exec_srRdsym, rdSym_of_buffered hbuf]
    rfl
  case exhausted =>
    have hblk : (srcRead s.c.symIn s.build.blockBytes).1 = [] := List.take_eq_nil_iff.2 (.inr hnil)
    rw [exec_srRdsym, rdSym_of_exhausted hidx hblk]
    rfl
  case refill =>
    have hblk : (unread s.c.symIn).take s.build.blockBytes ≠ [] :=
      mt List.take_eq_nil_iff.1 (not_or.2 ⟨Nat.ne_of_gt hblock, hne⟩)
    have hfirst : memRead (refilledReader s.build s.c).srBuf 0 =
        ((unread s.c.symIn).take s.build.blockBytes).getD 0 0#8 := by
      rw [memRead_refilledReader, if_pos (List.length_pos_of_ne_nil hblk)]
    rw [rdSym_of_refill hidx hblk, ← hfirst]
    exact ⟨memRead_refilledReader s.build s.c, rfl⟩

/-! ### The flush (R164) -/

theorem wwFlush_of_empty {d : DUnit} (h : d.wwIdx = 0) : wwFlush d = d := if_neg (by omega)

theorem wwFlush_of_buffered {d : DUnit} (h : 0 < d.wwIdx) :
    wwFlush d = { d with symOut := d.symOut ++ memBytes d.wwBuf d.wwIdx, wwIdx := 0 } := if_pos h

/-- A second flush does nothing (R164). -/
theorem wwFlush_wwFlush (d : DUnit) : wwFlush (wwFlush d) = wwFlush d := by
  obtain ⟨_, hidx, _⟩ := wwFlush_spec d
  exact wwFlush_of_empty hidx

/-- Settles O17: nothing for an empty buffer, otherwise its bytes appended. -/
theorem wordFlushWritesTheBuffer : Obligations.WordFlushWritesTheBuffer := by
  refine fun s => ⟨_, exec_wwFlush s, fun hempty => ?empty, fun hbuffered => ?buffered, ?again⟩
  case empty =>
    rw [wwFlush_of_empty hempty]
    rfl
  case buffered =>
    rw [wwFlush_of_buffered hbuffered]
    rfl
  case again =>
    rw [exec_wwFlush, setRet_d, setD_d, wwFlush_wwFlush]
    rfl

/-! ### A word (R163) -/

theorem wrByte_memRead (b : Build) (x : Byte) (d : DUnit) (a : Nat) :
    memRead (wrByte b x d).wwBuf a = if a = d.wwIdx then x else memRead d.wwBuf a := by
  have hbuf : (wrByte b x d).wwBuf = memWrite d.wwBuf d.wwIdx x := by
    simp only [wrByte]
    split <;> rfl
  rw [hbuf, memRead_write]

section
variable {b : Build}

theorem wrByte_of_full {d : DUnit} (x : Byte) (h : d.wwIdx + 1 = b.blockBytes) :
    (wrByte b x d).symOut = d.symOut ++ memBytes (wrByte b x d).wwBuf b.blockBytes ∧ (wrByte b x d).wwIdx = 0 := by
  simp [wrByte, sinkWrite, h]

theorem wrByte_of_room {d : DUnit} (x : Byte) (h : d.wwIdx + 1 ≠ b.blockBytes) :
    (wrByte b x d).symOut = d.symOut ∧ (wrByte b x d).wwIdx = d.wwIdx + 1 := by
  simp [wrByte, h]

/-- The index counts the bytes produced, modulo the block (R34, R163). -/
theorem wrByte_wwIdx_mod {d : DUnit} (x : Byte) (h : d.wwIdx < b.blockBytes) :
    (wrByte b x d).wwIdx = (d.wwIdx + 1) % b.blockBytes := by
  rw [wrByte_wwIdx]
  split
  case isTrue hfull => rw [hfull, Nat.mod_self]
  case isFalse => rw [Nat.mod_eq_of_lt (by omega)]

theorem wrWord_wwIdx_mod (xs : Word) : ∀ {d : DUnit}, d.wwIdx < b.blockBytes →
    (wrWord b xs d).wwIdx = (d.wwIdx + xs.length) % b.blockBytes := by
  induction xs with
  | nil => exact fun h => (Nat.mod_eq_of_lt h).symm
  | cons x xs ih =>
    intro d h
    rw [wrWord, ih (wrByte_idx x h), wrByte_wwIdx_mod x h, Nat.mod_add_mod, List.length_cons, Nat.add_right_comm,
      Nat.add_assoc]

/-- Bytes of `ww_buf` that take none of the word stay as they were. -/
theorem wrWord_memRead {a : Nat} (xs : Word) : ∀ {d : DUnit}, d.wwIdx < b.blockBytes →
    (∀ j, j < xs.length → a ≠ (d.wwIdx + j) % b.blockBytes) → memRead (wrWord b xs d).wwBuf a = memRead d.wwBuf a := by
  induction xs with
  | nil => exact fun _ _ => rfl
  | cons x xs ih =>
    intro d h ha
    have hfirst : a ≠ d.wwIdx := by simpa [Nat.mod_eq_of_lt h] using ha 0 (Nat.succ_pos _)
    have hrest : ∀ j, j < xs.length → a ≠ ((wrByte b x d).wwIdx + j) % b.blockBytes := fun j hj => by
      rw [wrByte_wwIdx_mod x h, Nat.mod_add_mod, Nat.add_assoc, Nat.add_comm 1]
      exact ha (j + 1) (Nat.succ_lt_succ hj)
    rw [wrWord, ih (wrByte_idx x h) hrest, wrByte_memRead, if_neg hfirst]

end

/-- Settles O16: the empty word and the first byte are `wrWord`'s own two cases; then one byte, and a whole word. -/
theorem wrwordWritesItsBytes : Obligations.WrwordWritesItsBytes := by
  refine fun s => ⟨exec_wwWrword [] s, fun x word => ?cons, fun x => ⟨_, exec_wwWrword [x] s, ?byte⟩,
    fun word => ⟨_, exec_wwWrword word s, ?word⟩⟩
  case cons =>
    rw [exec_wwWrword [x], andThen_next]
    rfl
  case byte =>
    exact ⟨wrByte_memRead s.build x s.d, wrByte_totalSyms s.build x s.d, wrByte_of_full x, wrByte_of_room x⟩
  case word =>
    exact ⟨wrWord_outSyms s.build word s.d, wrWord_totalSyms s.build word s.d,
      fun hidx _ ha => wrWord_memRead word hidx ha,
      congrArg (fun d => (s.setD d).setRet .nothing) (wrWord_frame s.build word s.d)⟩

/-! ### The tape (R165) -/

theorem wrWord_append (b : Build) (xs ys : Word) : ∀ d, wrWord b (xs ++ ys) d = wrWord b ys (wrWord b xs d) := by
  induction xs with
  | nil => exact fun _ => rfl
  | cons x xs ih => exact fun d => ih (wrByte b x d)

/-- Words one after another leave unit `D` as their concatenation does; with no word the last
result stands. -/
theorem execAll_wwWrword (words : List Word) : ∀ s : State, ∃ r,
    execAll (words.map .wwWrword) s = .next ((s.setD (wrWord s.build words.flatten s.d)).setRet r) := by
  induction words with
  | nil => exact fun s => ⟨s.ret, rfl⟩
  | cons word words ih =>
    intro s
    obtain ⟨r, hr⟩ := ih ((s.setD (wrWord s.build word s.d)).setRet .nothing)
    refine ⟨r, ?_⟩
    rw [List.map_cons, execAll, exec_wwWrword, andThen_next, hr, List.flatten_cons, wrWord_append]
    rfl

theorem outSyms_length (d : DUnit) : (outSyms d).length = d.symOut.length + d.wwIdx := by simp [outSyms]

/-- Before the flush the tape holds whole blocks: what was produced, up to the last block boundary (R165). -/
theorem symOut_eq_whole_blocks {b : Build} {d : DUnit} (h : d.wwIdx = (outSyms d).length % b.blockBytes) :
    d.symOut = (outSyms d).take (b.blockBytes * ((outSyms d).length / b.blockBytes)) := by
  have hdiv := Nat.div_add_mod (outSyms d).length b.blockBytes
  have hlen := outSyms_length d
  have hblocks : d.symOut.length = b.blockBytes * ((outSyms d).length / b.blockBytes) := by omega
  rw [← hblocks, outSyms, List.take_left]

/-- Settles O18: the words are one long word, of which the tape has the whole blocks, and the flush adds the rest. -/
theorem writerTapeIsTheWords : Obligations.WriterTapeIsTheWords := by
  intro s words hblock hout hidx
  obtain ⟨r, hrun⟩ := execAll_wwWrword words s
  have hsyms : outSyms (wrWord s.build words.flatten s.d) = words.flatten := by
    rw [wrWord_outSyms, outSyms, hout, hidx, bufSyms_self, List.append_nil, List.nil_append]
  have hwritten : (wrWord s.build words.flatten s.d).wwIdx =
      (outSyms (wrWord s.build words.flatten s.d)).length % s.build.blockBytes := by
    rw [wrWord_wwIdx_mod _ (by omega), hsyms, hidx, Nat.zero_add]
  obtain ⟨htape, _, _, htotal⟩ := wwFlush_spec (wrWord s.build words.flatten s.d)
  refine ⟨_, _, hrun, exec_wwFlush _, htape.trans hsyms, htotal.trans (wrWord_totalSyms ..), ?blocks⟩
  have hblocks := symOut_eq_whole_blocks hwritten
  rwa [hsyms] at hblocks

end Sys2Proof.Machine
end

section
/-! The trie and the driver of unit `C` as instructions (R170 to R181): what each operation leaves in the unit, and that a
launched unit takes one step for each symbol and two more (R175). -/

namespace Sys2Proof.Machine

/-! ### The operations as instructions -/

theorem exec_trieCreate (s : State) : exec .trieCreate s = .next ((s.setC (clearTrie s.c)).setRet .nothing) := rfl

theorem exec_cSym (sym : Byte) (s : State) :
    exec (.cSym sym) s = .next ((s.setC (encSym s.build sym s.c)).setRet .nothing) := rfl

theorem exec_cEnd (s : State) : exec .cEnd s = .next ((s.setC (encEnd s.build s.c)).setRet .nothing) := rfl

/-! ### The length of a run (R175, R199) -/

/-- The encoder's half of a step leaves the reader alone. -/
theorem inSyms_encSym (b : Build) (x : Byte) (c : CUnit) : inSyms (encSym b x c) = inSyms c := by
  obtain ⟨hbuf, hidx, hend, -, htape⟩ := encSym_touches b x c .reader (by simp)
  simp only [inSyms, hbuf, hidx, hend, htape]

theorem encSym_phase (b : Build) (x : Byte) (c : CUnit) : (encSym b x c).phase = c.phase :=
  encSym_touches b x c .phase (by simp)

/-- While a symbol is left, a step consumes one and stays in `RUN` (R175). -/
theorem encStep_consumes {b : Build} {c : CUnit} {x : Byte} {xs : List Byte} (hb : 1 ≤ b.blockBytes)
    (h : ReaderOk b c) (hr : c.phase = .run) (hin : inSyms c = x :: xs) :
    (encStep b c).phase = .run ∧ inSyms (encStep b c) = xs := by
  obtain ⟨hsym, hrest, -, hframe, -⟩ := rdSym_spec hb h hin
  have hread : (rdSym b c).2.phase = c.phase := hframe.touches .phase (by simp)
  rw [encStep_of_some hsym, encSym_phase, inSyms_encSym]
  exact ⟨hread.trans hr, hrest⟩

/-- Unit `C` is still in `RUN` after as many steps as it has symbols left, or fewer (R175). -/
theorem runSteps_stays_in_run (k : Nat) : ∀ {s : State}, Inv s → s.sched = [] → s.c.phase = .run →
    k ≤ (inSyms s.c).length → ∃ t, runSteps k s = .next t ∧ t.c.phase = .run := by
  induction k with
  | zero => exact fun _ _ hr _ => ⟨_, rfl, hr⟩
  | succ k ih =>
    intro s hinv hs hr hk
    obtain ⟨x, xs, hin⟩ := List.exists_cons_of_length_pos (Nat.zero_lt_of_lt hk)
    obtain ⟨hrun, hrest⟩ :=
      encStep_consumes (one_le_blockBytes hinv.shape.build) hinv.shape.c.buffers.reader hr hin
    have hstep := step_encStep hs hr
    have hleft : k ≤ (inSyms (encStep s.build s.c)).length := by
      rw [hin, List.length_cons] at hk
      rw [hrest]
      omega
    obtain ⟨t, ht, htrun⟩ := ih (step_keeps_inv hinv hstep) hs hrun hleft
    exact ⟨t, by rw [runSteps, hstep, andThen_next, ht], htrun⟩

/-- A launched unit `C` is in `RUN` from its first step until every symbol is consumed (R174, R175). -/
theorem runSteps_launchC_run {b : Build} (hb : b.Admitted) (input : List Byte) (prot : BitVec 16) {k : Nat}
    (hk : k ≤ input.length) : ∃ t, runSteps (k + 1) (launchC b input prot) = .next t ∧ t.c.phase = .run := by
  have hstart := step_encStart (s := launchC b input prot) rfl rfl rfl
  obtain ⟨t, ht, hrun⟩ := runSteps_stays_in_run k (step_keeps_inv (inv_launchC hb input prot) hstart) rfl rfl hk
  exact ⟨t, by rw [runSteps, hstart, andThen_next, ht], hrun⟩

/-- Settles O26: unit `C` is in `RUN` while symbols are left and `DONE` one step after; every tape of unit `D` is
decoded to an end. -/
theorem everyRunEnds : Obligations.EveryRunEnds := by
  refine fun b hb => ⟨fun input prot => ⟨fun k hpos hlt => ?inRun, runSteps_launchC_done hb input prot⟩,
    decodesTo_exists hb⟩
  case inRun =>
    obtain ⟨j, rfl⟩ := Nat.exists_eq_add_of_le' hpos
    exact runSteps_launchC_run hb input prot (by omega)

/-! ### The counter's advance (R177, R181) -/

theorem advanceC_restarts {b : Build} {c : CUnit} (hb : b.Admitted) (hn : CounterOk b c.next)
    (h : c.next.toNat + 1 = b.maxCode) : (advanceC b c).next = b.startCode ∧ (advanceC b c).trie = [] := by
  rcases advanceC_spec hb hn with ⟨-, hadv⟩ | ⟨hlt, -⟩
  · rw [hadv]
    exact ⟨rfl, rfl⟩
  · exact absurd h hlt.ne

theorem advanceC_counts {b : Build} {c : CUnit} (hb : b.Admitted) (hn : CounterOk b c.next)
    (h : c.next.toNat + 1 < b.maxCode) :
    (advanceC b c).next.toNat = c.next.toNat + 1 ∧ (advanceC b c).trie = c.trie := by
  rcases advanceC_spec hb hn with ⟨heq, -⟩ | ⟨-, hadv, hnext⟩
  · exact absurd heq h.ne
  · rw [hadv]
    exact ⟨hnext, rfl⟩

/-- The advance writes the counter and the trie and nothing else. -/
theorem advanceC_frame (b : Build) (c : CUnit) :
    advanceC b c = { c with next := (advanceC b c).next, trie := (advanceC b c).trie } := by
  rw [advanceC_eq]

/-- Unit `C` with the packer's state after a pair is unit `C` after the pair. -/
theorem withPacker_wrPair (b : Build) (code : Code) (sym : Byte) (w : Nat) (c : CUnit) :
    withPacker c (wrPair b code sym w c) = wrPair b code sym w c :=
  (wrPair_frame b code sym w c).symm

/-! ### One symbol (R176, R177) -/

/-- A miss is the pair, the walk back at the root, and what it makes of the counter and the trie. -/
theorem encSym_miss_frame {b : Build} {sym : Byte} {c : CUnit} (h : trieGet c.trie c.cur sym = none) :
    encSym b sym c = { wrPair b c.cur sym (bitlen c.next.toNat) c with
      cur := b.emptyCode, lsym := sym, next := (encSym b sym c).next, trie := (encSym b sym c).trie } := by
  rw [encSym_miss h, advanceC_frame, missCore, withPacker_wrPair]

/-- Settles O23: the match moves the walk; the miss is its pair and then the two ends of the counter's advance. -/
theorem cSymWalksOrEmits : Obligations.CSymWalksOrEmits := by
  refine fun s sym => ⟨fun child hmatch => ?walk, fun hmiss hb hn =>
    ⟨_, _, exec_bpWrpair (bitlen_code_le _) .., exec_cSym sym s, ?emit, fun hfull => ?restart, fun hroom => ?count⟩⟩
  case walk =>
    rw [exec_cSym, encSym_match hmatch]
    rfl
  case emit => exact congrArg (fun c => (s.setC c).setRet .nothing) (encSym_miss_frame hmiss)
  all_goals simp only [setRet_c, setC_c, encSym_miss hmiss]
  case restart =>
    obtain ⟨hnext, htrie⟩ := advanceC_restarts (c := missCore s.build sym s.c) hb hn hfull
    exact ⟨hnext, fun n x => by rw [htrie, trieGet_nil]⟩
  case count =>
    obtain ⟨hnext, htrie⟩ := advanceC_counts (c := missCore s.build sym s.c) hb hn hroom
    exact ⟨hnext, fun n x => by rw [htrie]; exact trieGet_insert ..⟩

/-! ### The end of the input (R180, R181) -/

/-- The final pair is the pair, the walk back at the root, and what it makes of the counter and the trie. -/
theorem finalPair_frame {b : Build} {c : CUnit} (h : c.cur ≠ b.emptyCode) :
    finalPair b c = { wrPair b c.par c.lsym (bitlen c.next.toNat) c with
      cur := b.emptyCode, next := (finalPair b c).next, trie := (finalPair b c).trie } := by
  rw [finalPair_pending h, advanceC_frame, finalCore, withPacker_wrPair]

/-- The end of a run: the final pair, the stop pair at the width then current, the flush, `DONE` (R180). -/
theorem encEnd_eq (b : Build) (c : CUnit) : encEnd b c =
    { bpFlush (wrPair b b.stopCode 0#8 (bitlen (finalPair b c).next.toNat) (finalPair b c)) with phase := .done } := rfl

/-- After the final pair `C.END` is the stop pair at the width then current, the flush, and `DONE` (R180). -/
theorem exec_cEnd_after_finalPair (s : State) (r : Ret) : ∃ t,
    execAll [.bpWrpair s.build.stopCode 0#8 (bitlen (finalPair s.build s.c).next.toNat), .bpFlush]
      ((s.setC (finalPair s.build s.c)).setRet r) = .next t ∧
    exec .cEnd s = .next { t with c := { t.c with phase := .done } } := by
  refine ⟨_, execAll_pair (exec_bpWrpair (bitlen_code_le _) ..) (exec_bpFlush _), ?_⟩
  rw [exec_cEnd, encEnd_eq, appendBits_c, wireBits_eq]
  rfl

/-- Settles O24: at the root there is no final pair; with a prefix pending it is written and the counter advanced. -/
theorem cEndClosesTheStream : Obligations.CEndClosesTheStream := by
  refine fun s hb hn => ⟨fun hroot => ?root, fun hpending => ?pending⟩
  case root =>
    have hend := exec_cEnd_after_finalPair s s.ret
    rwa [finalPair_root hroot, setC_self, setRet_self] at hend
  case pending =>
    obtain ⟨t, hstop, hend⟩ := exec_cEnd_after_finalPair s .nothing
    refine ⟨_, (s.setC (finalPair s.build s.c)).setRet .nothing, t, exec_bpWrpair (bitlen_code_le _) .., ?frame,
      fun hfull => ?restart, fun hroom => ?count, hstop, hend⟩
    case frame => exact congrArg (fun c => (s.setC c).setRet .nothing) (finalPair_frame hpending)
    all_goals simp only [setRet_c, setC_c, finalPair_pending hpending]
    case restart =>
      obtain ⟨hnext, htrie⟩ := advanceC_restarts (c := finalCore s.build s.c) hb hn hfull
      exact ⟨hnext, fun n x => by rw [htrie, trieGet_nil]⟩
    case count => exact advanceC_counts (c := finalCore s.build s.c) hb hn hroom

/-! ### The agent steps (R174, R175) -/

theorem nextOpC_eq_cStart_iff {c : CUnit} : nextOpC c = some .cStart ↔ c.phase = .idle ∧ c.go = true := by
  refine ⟨fun h => ?_, fun ⟨hi, hg⟩ => nextOpC_eq_cStart hi hg⟩
  by_contra hs
  by_cases hr : c.phase = .run
  · rw [nextOpC_eq_cStep hr] at h
    cases h
  · rw [nextOpC_eq_none hs hr] at h
    cases h

/-- Settles O22: the step is enabled in `IDLE` with `go` set, and writes the header and the start of a run. -/
theorem cStartLaunchesTheEncoder : Obligations.CStartLaunchesTheEncoder := fun _ =>
  ⟨nextOpC_eq_cStart_iff, fun hi hg =>
    ⟨_, exec_cStart_of_enabled (cStartEnabled_iff.2 ⟨hi, hg⟩), fun _ _ => trieGet_nil .., rfl⟩⟩

/-- Settles O25: by what `SR.RDSYM` returns. -/
theorem cStepIsSymOrEnd : Obligations.CStepIsSymOrEnd := by
  intro s hr
  have hstep := exec_cStep_of_enabled (cStepEnabled_iff.2 hr)
  cases hx : (rdSym s.build s.c).1 with
  | some sym =>
    rw [encStep_of_some hx] at hstep
    exact ⟨_, some sym, _, exec_srRdsym s, congrArg Ret.sym hx, hstep, exec_cSym sym _⟩
  | none =>
    rw [encStep_of_none hx] at hstep
    exact ⟨_, none, _, exec_srRdsym s, congrArg Ret.sym hx, hstep, exec_cEnd _⟩

/-! ### The trie operations (R170 to R173) -/

/-- Settles O19: both operations clear the store. -/
theorem trieCreateAndResetEmptyIt : Obligations.TrieCreateAndResetEmptyIt := fun s =>
  ⟨_, exec_trieCreate s, exec_trieReset s, fun _ _ => trieGet_nil .., rfl⟩

/-- Settles O20: the lookup returns what the store holds, and a read after the write sees the one position. -/
theorem trieStepReadsInsertWrites : Obligations.TrieStepReadsInsertWrites := fun s node sym =>
  ⟨exec_trieStep node sym s, fun code =>
    ⟨_, exec_trieInsert node sym code s, fun n x => trieGet_insert s.c.trie node n sym x code, rfl⟩⟩

end Sys2Proof.Machine
end

section
/-! The word table and the driver of unit `D` as instructions (R190 to R201): what the table operations write, the launch,
and `D.STEP` as `BU.RDPAIR` and what it goes on with. -/

namespace Sys2Proof.Machine

/-! ### The table operations (R190 to R195) -/

theorem exec_wtCreate (s : State) : exec .wtCreate s = .next ((s.setD (seedWt s.build s.d)).setRet .nothing) := rfl

theorem exec_wordAppend (word : Word) (sym : Byte) (s : State) :
    exec (.wordAppend word sym) s = .next (s.setRet (.word (some (word ++ [sym])))) := rfl

/-- A slot is populated exactly when the code that names it is valid (R32 (b), R194). -/
theorem WtInv.populated_iff {b : Build} {d : DUnit} (h : WtInv b d) (code : Code) :
    (storeGet d.wt code.toNat).isSome = true ↔ ValidCode b d.next code := by
  rw [h.filled, BitVec.toNat_inj, ValidCode]

/-- Settles O27: both operations seed the table. -/
theorem wtCreateAndResetSeedIt : Obligations.WtCreateAndResetSeedIt := fun s =>
  ⟨_, exec_wtCreate s, exec_wtReset s, storeGet_seedWt s.build s.d, rfl⟩

/-- Settles O28: the lookup reads the table, in which R32 has a word for every valid code; the store writes one slot. -/
theorem wtLookupAppendStore : Obligations.WtLookupAppendStore := by
  refine ⟨fun s code hslot => exec_wtLookup hslot, fun s code hinv hr hv => ?valid,
    fun s word sym => exec_wordAppend word sym s,
    fun s code word hslot => ⟨_, exec_wtStore word hslot, fun a => storeGet_set s.d.wt code.toNat a word, rfl⟩⟩
  case valid =>
    have hslot := validCode_lt hinv.shape.build (hinv.shape.d.counter hr) (validCode_iff.2 hv)
    obtain ⟨word, hword⟩ := (hinv.wt hr).lookup (validCode_iff.2 hv)
    refine ⟨word, hword ▸ exec_wtLookup hslot, fun hempty => ?_⟩
    rw [hempty, (hinv.wt hr).root] at hword
    exact (Option.some.inj hword).symm

/-! ### The launch (R198) -/

theorem exec_hdrRd (s : State) : exec .hdrRd s = .next ((s.setD (hdrRd s.build s.d).2).setRet .nothing) := rfl

theorem nextOpD_eq_dStart_iff {d : DUnit} : nextOpD d = some .dStart ↔ d.phase = .idle ∧ d.go = true := by
  refine ⟨fun h => ?_, fun ⟨hi, hg⟩ => nextOpD_eq_dStart hi hg⟩
  by_contra hs
  by_cases hr : d.phase = .run
  · rw [nextOpD_eq_dStep hr] at h
    cases h
  · rw [nextOpD_eq_none hs hr] at h
    cases h

/-- An accepted header leaves the phase alone (R212). -/
theorem hdrRd_accepted_phase {b : Build} {d : DUnit} (h : (hdrRd b d).1 = true) : (hdrRd b d).2.phase = d.phase := by
  by_cases hlen : (unread d.byteIn).length < 6
  · rw [hdrRd_short b hlen] at h
    cases h
  · rw [hdrRd_complete b (Nat.not_lt.1 hlen)] at h ⊢
    by_cases hm : headerMagic ((unread d.byteIn).take 6) = b.magic
    · rw [takeHeader_accepted hm]
      rfl
    · rw [takeHeader_rejected hm] at h
      cases h

/-- Settles O29: a rejected header is the fault `HDR.RD` took; an accepted one leaves the phase, and the launch goes on. -/
theorem dStartLaunchesTheDecoder : Obligations.DStartLaunchesTheDecoder := by
  refine fun s => ⟨nextOpD_eq_dStart_iff, fun hi hg => ⟨_, exec_hdrRd s, ?_⟩⟩
  have hstart := exec_dStart_of_enabled (dStartEnabled_iff.2 ⟨hi, hg⟩)
  cases hread : (hdrRd s.build s.d).1 with
  | true =>
    have hphase : (hdrRd s.build s.d).2.phase ≠ .fault := by simp [hdrRd_accepted_phase hread, hi]
    rw [decStart_of_accepted hread] at hstart
    exact ⟨fun hf => absurd hf hphase, fun _ => ⟨_, hstart, storeGet_seedWt s.build s.d, rfl⟩⟩
  | false =>
    rw [decStart_of_rejected hread] at hstart
    exact ⟨fun _ => hstart, fun hf => absurd (hdrRd_rejected hread) hf⟩

/-! ### The counter's advance (R196) -/

theorem advanceD_restarts {b : Build} {d : DUnit} (hb : b.Admitted) (hn : CounterOk b d.next)
    (h : d.next.toNat + 1 = b.maxCode) :
    (advanceD b d).next = b.startCode ∧ (advanceD b d).wt = (seedWt b d).wt := by
  rcases advanceD_spec hb hn with ⟨-, hadv⟩ | ⟨hlt, -⟩
  · rw [hadv]
    exact ⟨rfl, rfl⟩
  · exact absurd h hlt.ne

theorem advanceD_counts {b : Build} {d : DUnit} (hb : b.Admitted) (hn : CounterOk b d.next)
    (h : d.next.toNat + 1 < b.maxCode) :
    (advanceD b d).next.toNat = d.next.toNat + 1 ∧ (advanceD b d).wt = d.wt := by
  rcases advanceD_spec hb hn with ⟨heq, -⟩ | ⟨-, hadv, hnext⟩
  · exact absurd heq h.ne
  · rw [hadv]
    exact ⟨hnext, rfl⟩

/-- The advance writes the counter and the table and nothing else. -/
theorem advanceD_frame (b : Build) (d : DUnit) :
    advanceD b d = { d with next := (advanceD b d).next, wt := (advanceD b d).wt } := by
  rw [advanceD_eq]

/-! ### `D.STEP` after its `BU.RDPAIR` (R194, R196, R197, R201) -/

/-- A unit in `RUN` holds no fault (R36, R228). -/
theorem DShape.status_of_run {b : Build} {d : DUnit} (h : DShape b d) (hr : d.phase = .run) : d.status = .none := by
  by_contra hs
  cases hr.symm.trans (h.status.1 hs)

/-- Reading a pair leaves what unit `D` has produced. -/
theorem outSyms_rdPair (b : Build) (w : Nat) (d : DUnit) : outSyms (rdPair b w d).2.2 = outSyms d := by
  have htouch := rdPair_touches b w d
  obtain ⟨hbuf, -⟩ := htouch .writer (by simp)
  obtain ⟨hidx, hsym⟩ := htouch .output (by simp)
  rw [outSyms, outSyms, hbuf, hidx, hsym]

section
variable {b : Build} {d : DUnit} {w : Nat}

/-- A whole pair ahead is latched (R148). -/
theorem rdPair_latch (hb : 1 ≤ b.blockBytes) (h : UnpackerOk b d) (hl : w + 8 ≤ (inBits d).length) :
    (rdPair b w d).2.2.code = nextCode d w ∧ (rdPair b w d).2.2.sym = nextSym d w := by
  rw [rdPair_of_ahead hb h hl]
  exact ⟨rfl, rfl⟩

theorem decStep_of_short (hb : 1 ≤ b.blockBytes) (h : UnpackerOk b d) (hw : w = bitlen d.next.toNat)
    (hl : (inBits d).length < w + 8) :
    decStep b d = .next (faultEntry .corruptTrunc (rdPair b w d).2.2) := by
  rw [decStep_eq, ← hw, raise_eq_faultEntry, rdPair_of_short hb h hl]
  rfl

theorem decStep_of_stop (hb : 1 ≤ b.blockBytes) (h : UnpackerOk b d) (hw : w = bitlen d.next.toNat)
    (hl : w + 8 ≤ (inBits d).length) (hs : nextCode d w = b.stopCode) :
    decStep b d = .next (decStop (rdPair b w d).2.2) := by
  rw [decStep_eq, ← hw, rdPair_of_ahead hb h hl, hs]
  simp

theorem decStep_of_data (hb : 1 ≤ b.blockBytes) (h : UnpackerOk b d) (hw : w = bitlen d.next.toNat)
    (hl : w + 8 ≤ (inBits d).length) (hs : nextCode d w ≠ b.stopCode) :
    decStep b d = decData b (rdPair b w d).2.2 := by
  rw [decStep_eq, ← hw, rdPair_of_ahead hb h hl]
  simp [hs]

end

/-- `D.STEP` on a whole pair that is not the stop pair: the pair read and latched, the counter and the table as they were,
then the data pair's effect (R196). -/
theorem exec_dStep_of_data {s : State} {w : Nat} (hinv : Inv s) (hr : s.d.phase = .run) (hw : w = bitlen s.d.next.toNat)
    (hl : w + 8 ≤ (inBits s.d).length) (hne : nextCode s.d w ≠ s.build.stopCode) :
    ∃ u r, exec (.buRdpair w) s = .next ((s.setD u).setRet r) ∧ u.code = nextCode s.d w ∧ u.sym = nextSym s.d w ∧
      u.next = s.d.next ∧ u.wt = s.d.wt ∧
      exec .dStep s = andThen (decData s.build u) (fun d => .next ((s.setD d).setRet .nothing)) := by
  have hblock := one_le_blockBytes hinv.shape.build
  have hunp := hinv.shape.d.unpacker
  obtain ⟨hcode, hsym⟩ := rdPair_latch hblock hunp hl
  have htouch := rdPair_touches s.build w s.d
  refine ⟨_, _, exec_buRdpair (hw ▸ bitlen_code_le _) s, hcode, hsym, htouch .next (by simp), htouch .wt (by simp), ?_⟩
  rw [exec_dStep_of_enabled (dStepEnabled_iff.2 hr), decStep_of_data hblock hunp hw hl hne]

/-- Settles O31: the pair latched, its word stored and written, then the two ends of the counter's advance. -/
theorem dStepExpandsADataPair : Obligations.DStepExpandsADataPair := by
  rintro s w code sym hinv hr hw hl rfl rfl hne hv
  have hb := hinv.shape.build
  have hn := hinv.shape.d.counter hr
  obtain ⟨word, hword⟩ := (hinv.wt hr).lookup (validCode_iff.2 hv)
  obtain ⟨u, r, hread, hcode, hsym, hnext, hwt, hstep⟩ := exec_dStep_of_data hinv hr hw hl hne
  rw [← hcode, ← hnext] at hv
  rw [← hcode, ← hwt] at hword
  rw [← hnext] at hn
  rw [← hcode, ← hsym, ← hnext]
  rw [decData_valid hb hn (validCode_iff.2 hv) hword, andThen_next] at hstep
  refine ⟨_, _, _, word, hread, rfl, rfl, hwt ▸ hword, execAll_store_write (s := (s.setD u).setRet r) _ hn.2, hstep,
    ?frame, fun hlast => ?restart, fun hroom => advanceD_counts (d := storeWord s.build _ u) hb hn hroom⟩
  case frame => exact congrArg (fun d => (s.setD d).setRet .nothing) (advanceD_frame s.build _)
  case restart =>
    obtain ⟨hstart, hseeded⟩ := advanceD_restarts (d := storeWord s.build (wordAppend word u.sym) u) hb hn hlast
    refine ⟨hstart, fun c => ?_⟩
    simp only [setRet_d, setD_d, hseeded, storeGet_seedWt]

/-- Settles O32: the pair's bits are read, and the step is the flush and `DONE`. -/
theorem dStepEndsOnTheStopPair : Obligations.DStepEndsOnTheStopPair := by
  intro s w hinv hr hw hl hstop
  have hstep := exec_dStep_of_enabled (dStepEnabled_iff.2 hr)
  rw [decStep_of_stop (one_le_blockBytes hinv.shape.build) hinv.shape.d.unpacker hw hl hstop] at hstep
  have htouch := (rdPair_touches s.build w s.d).trans (wwFlush_touches (rdPair s.build w s.d).2.2)
    (rs := [.latch, .unpacker, .byteIn, .output])
  have hstatus := htouch .status (by simp)
  obtain ⟨-, htotal⟩ := htouch .writer (by simp)
  obtain ⟨hout, -⟩ := wwFlush_spec (rdPair s.build w s.d).2.2
  refine ⟨_, _, exec_buRdpair (hw ▸ bitlen_code_le _) s, exec_wwFlush _, hstep,
    hstatus.trans (hinv.shape.d.status_of_run hr), htouch .next (by simp), htouch .wt (by simp),
    hout.trans (outSyms_rdPair ..), htotal⟩

/-- Settles O33: the code test is R32 (b); too few bits and an invalid code are each their fault entry after the read. -/
theorem dStepRaisesOnCorruption : Obligations.DStepRaisesOnCorruption := by
  intro s w hinv hr hw
  have hblock := one_le_blockBytes hinv.shape.build
  have hunp := hinv.shape.d.unpacker
  have hstep := exec_dStep_of_enabled (dStepEnabled_iff.2 hr)
  refine ⟨(hinv.wt hr).populated_iff, _, exec_buRdpair (hw ▸ bitlen_code_le _) s, ?out, fun hl => ?short,
    fun hl hne hv => ?invalid⟩
  case out =>
    rw [memBytes_eq_bufSyms]
    exact outSyms_rdPair s.build w s.d
  case short =>
    rw [hstep, decStep_of_short hblock hunp hw hl]
    rfl
  case invalid =>
    obtain ⟨hcode, -⟩ := rdPair_latch hblock hunp hl
    have hnext : (rdPair s.build w s.d).2.2.next = s.d.next := rdPair_touches s.build w s.d .next (by simp)
    rw [← validCode_iff, Bool.not_eq_true, ← hcode, ← hnext] at hv
    rw [hstep, decStep_of_data hblock hunp hw hl hne, decData_invalid hv, raise_eq_faultEntry]
    rfl

end Sys2Proof.Machine
end

section
/-! The round trip (R200): unit `D` takes back the data pairs of an encoded tape one by one, and the stop pair ends the run. -/

namespace Sys2Proof.Machine

/-- Every input has an encoding (R112, R175). -/
theorem encodes_exists {b : Build} (hb : b.Admitted) (input : List Byte) (prot : BitVec 16) :
    ∃ out, Encodes b input prot out := by
  obtain ⟨t, ht, hdone⟩ := runSteps_launchC_done hb input prot
  exact ⟨_, t, ht, hdone, rfl⟩

/-- A tape of a header, data pairs, and the stop pair is decoded to the words of the pairs, whatever follows (R197, R199). -/
theorem decodesTo_of_stop {b : Build} (hb : b.Admitted) (prot : BitVec 16) {y : List Byte} {E R : List Bool} {a : Dict}
    {n : Nat} {sym : Byte} (hfeeds : Feeds b E a n)
    (hy : unpack y = E ++ (pairBits b.stopCode sym (bitlen a.next.toNat) ++ R)) :
    ∃ t, DecodesTo b (headerBytes b.magic prot ++ y) t ∧ t.d.phase = .done ∧ t.d.status = .none ∧ t.d.symOut = a.out ∧
      t.d.prot = prot := by
  have hpairs : n ≤ y.length := by
    have hE := hfeeds.length
    have hlen := congrArg List.length hy
    rw [unpack_length, List.length_append] at hlen
    omega
  obtain ⟨t, ht, hbuild, hsched, hc, hholds, hprot⟩ := runSteps_launchD_feeds hb prot hfeeds hy
  obtain ⟨d', hstep, hphase, hstatus, hout, hkept, -⟩ := hholds.stop hb
  have hlast := step_decStep hsched hc hholds.run (hbuild ▸ hstep)
  have hrun : runSteps (n + 1 + 1) (launchD b (headerBytes b.magic prot ++ y)) =
      .next ((t.setD d').setRet .nothing) := by
    rw [runSteps_add, ht, andThen_next, runSteps, hlast, andThen_next]
    rfl
  exact ⟨_, decodesTo_of_rest hrun (by rw [List.length_append]; omega) hsched hc (by simp [hphase]) (by simp [hphase]),
    hphase, hstatus, hout, hkept.trans hprot⟩

/-- Settles O57: the tape of an input is a header, data pairs whose words make up the input, the stop pair, and a pad. -/
theorem decodingTheEncodedInputGivesItBack : Obligations.DecodingTheEncodedInputGivesItBack := by
  intro b input prot hb
  obtain ⟨out, henc⟩ := encodes_exists hb input prot
  obtain ⟨y, E, a, n, k, rfl, hfeeds, rfl, -, hbits⟩ := henc.tape hb
  rw [List.append_assoc] at hbits
  obtain ⟨t, hdec⟩ := decodesTo_of_stop hb prot hfeeds hbits
  exact ⟨_, t, henc, hdec⟩

end Sys2Proof.Machine
end

section
/-! The header's operations as instructions: what `HDR.WR` writes, what `HDR.RD` takes, and that the second gives back the
first's operand (R210, R212 to R214). -/

namespace Sys2Proof.Machine

/-- Settles O36: the operation's own update of the tape. -/
theorem hdrWrWritesSixBytes : Obligations.HdrWrWritesSixBytes := fun s prot => exec_hdrWr prot s

/-- `HDR.RD` on a tape whose next six bytes are `h`, whatever follows them (R212). -/
theorem exec_hdrRd_complete {s : State} {h rest : List Byte} (hlen : h.length = 6)
    (hunread : unread s.d.byteIn = h ++ rest) :
    exec .hdrRd s =
      .next ((s.setD (takeHeader s.build (headerMagic h) (headerProt h) (pastHeader s.d)).2).setRet .nothing) := by
  have hsix : 6 ≤ (unread s.d.byteIn).length := by simp [hunread, hlen]
  rw [exec_hdrRd, hdrRd_complete s.build hsix, hunread, List.take_left' hlen]

/-- Four bytes never assemble to `2 ^ 32` or more, so the comparison with `MAGIC` is one of numbers (R212). -/
theorem headerMagic_eq_iff (h₀ h₁ h₂ h₃ : Byte) (hs : List Byte) (magic : BitVec 32) :
    headerMagic (h₀ :: h₁ :: h₂ :: h₃ :: hs) = magic ↔
      h₀.toNat + 2 ^ 8 * h₁.toNat + 2 ^ 16 * h₂.toNat + 2 ^ 24 * h₃.toNat = magic.toNat := by
  have hfits : h₀.toNat + 2 ^ 8 * h₁.toNat + 2 ^ 16 * h₂.toNat + 2 ^ 24 * h₃.toNat < 2 ^ 32 := by omega
  simp only [← BitVec.toNat_inj, headerMagic, byteAt, List.getD_cons_zero, List.getD_cons_succ, BitVec.toNat_ofNat,
    Nat.mod_eq_of_lt hfits]

/-- Settles O30: six bytes are compared with `MAGIC` and accepted or not; fewer are a short header. -/
theorem hdrRdAcceptsOrRaises : Obligations.HdrRdAcceptsOrRaises := by
  intro s
  refine ⟨fun h₀ h₁ h₂ h₃ h₄ h₅ rest hunread => ?complete, fun hshort => ?short⟩
  case complete =>
    have hread := exec_hdrRd_complete (h := [h₀, h₁, h₂, h₃, h₄, h₅]) rfl hunread
    refine ⟨fun hm => ?accepted, fun hm => ?rejected⟩
    case accepted =>
      rw [hread, takeHeader_accepted ((headerMagic_eq_iff ..).2 hm)]
      rfl
    case rejected =>
      rw [hread, takeHeader_rejected (mt (headerMagic_eq_iff ..).1 hm)]
      rfl
  case short =>
    rw [exec_hdrRd, hdrRd_short s.build hshort]
    rfl

/-- Settles O37: the six bytes `HDR.WR` wrote are all there is to read, and their two fields read back as `MAGIC` and the
operand. -/
theorem headerRoundTrip : Obligations.HeaderRoundTrip := by
  intro s s' t prot hempty hwrite hbuild htape
  have hbytes : t.c.byteOut = headerBytes s.build.magic prot := by
    cases (exec_hdrWr prot s).symm.trans hwrite
    exact congrArg (· ++ headerBytes s.build.magic prot) hempty
  have hunread : unread s'.d.byteIn = headerBytes s'.build.magic prot ++ [] := by
    rw [htape, hbytes, hbuild, List.append_nil]
    rfl
  rw [exec_hdrRd_complete rfl hunread, headerMagic_headerBytes, headerProt_headerBytes, takeHeader_accepted rfl, pastHeader,
    htape]
  rfl

end Sys2Proof.Machine
end

section
/-! The host's moves and what a step can end in (R250, R254, R256, R258, R265; log 8, 9). -/

namespace Sys2Proof.Machine

/-! ### No fault of the model (R265) -/

/-- A guarded move goes on or is refused; it never ends in a fault of the model. -/
theorem guarded_next_or_refused (p : Prop) [Decidable p] (t : State) (r : Refusal) :
    (∃ u, (if p then .next t else .refused r : Host.Outcome State Fault Refusal) = .next u) ∨
    ∃ q, (if p then .next t else .refused r : Host.Outcome State Fault Refusal) = .refused q := by
  by_cases h : p
  · exact .inl ⟨t, if_pos h⟩
  · exact .inr ⟨r, if_neg h⟩

/-- A host move goes on, or is refused where the contract forbids it (R256; log 8). -/
theorem hostStep_next_or_refused (m : HostMove) (s : State) :
    (∃ t, hostStep m s = .next t) ∨ ∃ r, hostStep m s = .refused r := by
  cases m with
  | pulseCRst => exact .inl ⟨_, rfl⟩
  | pulseDRst => exact .inl ⟨_, rfl⟩
  | supplySymIn tape => exact guarded_next_or_refused ..
  | supplyByteIn tape => exact guarded_next_or_refused ..
  | carry =>
    by_cases hdone : s.c.phase = .done
    · rw [hostStep, hostCarry, if_pos hdone]
      exact guarded_next_or_refused ..
    · exact .inr ⟨_, if_neg hdone⟩
  | driveCProt prot =>
    by_cases hgo : s.c.phase = .idle ∧ s.c.go = true
    · exact .inr ⟨_, if_pos hgo⟩
    · exact .inl ⟨_, if_neg hgo⟩
  | setCGo => exact guarded_next_or_refused ..
  | setDGo => exact guarded_next_or_refused ..

/-- Under the invariant an enabled agent step goes on: `D.STEP` finds the slots it needs (R32), the others need none. -/
theorem AgentMove.goes_on {s : State} {o : Host.Outcome (CUnit × DUnit) Fault Refusal} (hs : Inv s)
    (ho : AgentMove s.build s.c s.d o) : ∃ p, o = .next p := by
  cases ho with
  | cStart => exact ⟨_, rfl⟩
  | cStep => exact ⟨_, rfl⟩
  | dStart => exact ⟨_, rfl⟩
  | dStep hr =>
    obtain ⟨d', hd', -⟩ := decStep_keeps hs.shape.build hs.shape.d hr (hs.wt hr)
    exact ⟨(s.c, d'), by rw [hd', andThen_next]⟩

/-- Settles O56: a turn without effect (log 7) and, under the invariant, an agent step go on; a host move goes on or is
refused (log 8). -/
theorem onlyTheHostIsRefused : Obligations.OnlyTheHostIsRefused := by
  intro s hs
  rcases step_cases s with ⟨hstep, -⟩ | ⟨o, ho, hstep⟩ | ⟨m, es, hsched, hstep⟩
  · exact .inl ⟨_, hstep⟩
  · obtain ⟨p, rfl⟩ := ho.goes_on hs
    exact .inl ⟨_, hstep⟩
  · rcases hostStep_next_or_refused m (popEvent s) with ⟨t, ht⟩ | ⟨r, hr⟩
    · exact .inl ⟨t, hstep.trans ht⟩
    · exact .inr ⟨m, es, r, hsched, hstep.trans hr⟩

/-! ### The host's moves (R250, R254, R256, R258) -/

theorem step_of_host {s : State} {m : HostMove} {es : List Event} (h : s.sched = .host m :: es) :
    step s = hostStep m (s.setSched es) := by
  simp only [step, h, popEvent, List.tail_cons]

/-- Settles O45: each move is one test of the unit's phase and `go`, and its two branches. -/
theorem hostMovesKeepTheContract : Obligations.HostMovesKeepTheContract := fun _ =>
  ⟨fun _ hi hg => if_pos ⟨hi, hg⟩, fun _ hn => if_neg hn,
    fun _ hi hg => if_pos ⟨hi, hg⟩, fun _ hn => if_neg hn,
    fun hdone => if_pos hdone, fun hn => if_neg hn,
    fun _ hn => if_neg hn, fun _ hi hg => if_pos ⟨hi, hg⟩,
    fun hi hg => if_pos ⟨hi, hg⟩, fun hn => if_neg hn,
    fun hi hg => if_pos ⟨hi, hg⟩, fun hn => if_neg hn,
    fun _ _ => step_of_host⟩

/-- Settles O47: a pulse puts its unit at the reset record but for the tape it keeps (log 9), in any phase. -/
theorem resetPulseTouchesOneUnit : Obligations.ResetPulseTouchesOneUnit := fun _ _ =>
  ⟨fun h => ⟨_, step_of_host h, rfl, rfl, rfl, rfl, rfl, rfl, rfl, rfl, rfl, rfl, rfl, rfl⟩,
    fun h => ⟨_, step_of_host h, rfl, rfl, rfl, rfl, rfl, rfl, rfl, rfl, rfl, rfl, rfl, rfl, rfl⟩⟩

end Sys2Proof.Machine
end

section
/-! Taking a fault (R226, R228): what an operation does to unit `D` is a fault entry, or it leaves the status alone and the
phase where it was or on its way to the end of the run; unit `C` knows the second only. -/

namespace Sys2Proof.Machine

/-! ### The way of a phase without a fault (R38) -/

/-- A phase left alone, or moved on to `RUN` or `DONE`. -/
def GoesOn (p p' : Phase) : Prop := p' = p ∨ p' = .run ∨ p' = .done

theorem GoesOn.of_eq {p p' : Phase} (h : p' = p) : GoesOn p p' := .inl h

theorem GoesOn.run (p : Phase) : GoesOn p .run := .inr (.inl rfl)

theorem GoesOn.done (p : Phase) : GoesOn p .done := .inr (.inr rfl)

theorem GoesOn.trans {p p' p'' : Phase} (h : GoesOn p p') (h' : GoesOn p' p'') : GoesOn p p'' := by
  rcases h' with rfl | h'
  · exact h
  · exact .inr h'

theorem GoesOn.ne_fault {p p' : Phase} (h : GoesOn p p') (hp : p ≠ .fault) : p' ≠ .fault := by
  rcases h with rfl | rfl | rfl
  · exact hp
  · decide
  · decide

theorem GoesOn.ne_idle {p p' : Phase} (h : GoesOn p p') (hp : p ≠ .idle) : p' ≠ .idle := by
  rcases h with rfl | rfl | rfl
  · exact hp
  · decide
  · decide

/-! ### Unit `C` (R226) -/

theorem encStep_goesOn (b : Build) (c : CUnit) : GoesOn c.phase (encStep b c).phase := by
  cases h : (rdSym b c).1 with
  | some x =>
    rw [encStep_of_some h, encSym_phase]
    exact .of_eq ((rdSym_frame b c).touches .phase (by simp))
  | none =>
    rw [encStep_of_none h]
    exact .done _

/-- No operation takes unit `C` anywhere but to `RUN` or `DONE` (R174, R175, R180). -/
theorem exec_goesOn_c {i : Instr} {s t : State} (h : exec i s = .next t) : GoesOn s.c.phase t.c.phase := by
  by_cases hw : .phase ∈ writesC i
  · cases i with
    | cStart =>
      cases of_guarded h
      exact .run _
    | cEnd =>
      cases h
      exact .done _
    | cStep =>
      cases of_guarded h
      exact encStep_goesOn ..
    | _ => exact absurd hw (by simp)
  · exact .of_eq ((exec_frame h).c .phase hw)

/-! ### Unit `D`: the parts of an operation -/

/-- Unit `D` has taken no fault: its status is as it was, and its phase left alone or moved on. -/
structure NoFault (d d' : DUnit) : Prop where
  status : d'.status = d.status
  phase  : GoesOn d.phase d'.phase

theorem NoFault.trans {d d' d'' : DUnit} (h : NoFault d d') (h' : NoFault d' d'') : NoFault d d'' :=
  ⟨h'.status.trans h.status, h.phase.trans h'.phase⟩

theorem TouchesD.noFault {qs : List DPart} {d d' : DUnit} (h : TouchesD qs d d') (hp : .phase ∉ qs) (hs : .status ∉ qs) :
    NoFault d d' := ⟨h .status hs, .of_eq (h .phase hp)⟩

/-- `HDR.RD` takes up to six bytes, and then accepts them or is the fault entry of a short header or a wrong magic (R212,
R213). -/
theorem hdrRd_accepts_or_raises (b : Build) (d : DUnit) :
    ((hdrRd b d).1 = true ∧ NoFault d (hdrRd b d).2) ∨
    (hdrRd b d).1 = false ∧ ∃ cause, (cause = .hdrShort ∨ cause = .badMagic) ∧
      (hdrRd b d).2 = faultEntry cause { d with byteIn := (srcRead d.byteIn 6).2 } := by
  simp only [hdrRd]
  split
  case isTrue => exact .inr ⟨rfl, _, .inl rfl, raise_eq_faultEntry ..⟩
  case isFalse =>
    by_cases hm : headerMagic (srcRead d.byteIn 6).1 = b.magic
    · rw [takeHeader_accepted hm]
      exact .inl ⟨rfl, rfl, .of_eq rfl⟩
    · rw [takeHeader_rejected hm]
      exact .inr ⟨rfl, _, .inr rfl, rfl⟩

/-- A data pair that goes on is the fault entry of its code, or takes no fault (R194, R196). -/
theorem decData_raises_or_noFault {b : Build} {d e : DUnit} (h : decData b d = .next e) :
    e = faultEntry .corruptCode d ∨ NoFault d e := by
  rcases decData_eq_next_iff.1 h with ⟨-, rfl⟩ | ⟨-, -, -, word, -, rfl⟩
  · exact .inl (raise_eq_faultEntry ..)
  · have htouch := (storeWord_touches b (wordAppend word d.sym) d).trans (rs := [.next, .wt, .writer, .output])
      (advanceD_touches b _)
    exact .inr (htouch.noFault (by simp) (by simp))

theorem decStop_noFault (d : DUnit) : NoFault d (decStop d) := ⟨decStop_touches d .status (by simp), .done _⟩

/-- `D.STEP` that goes on is the fault entry of a truncated tape or of a code, on what `BU.RDPAIR` leaves, or takes no fault
(R196, R201). -/
theorem decStep_raises_or_noFault {b : Build} {d e : DUnit} (h : decStep b d = .next e) :
    (∃ cause, (cause = .corruptTrunc ∨ cause = .corruptCode) ∧
      e = faultEntry cause (rdPair b (bitlen d.next.toNat) d).2.2) ∨ NoFault d e := by
  have hread : NoFault d (rdPair b (bitlen d.next.toNat) d).2.2 :=
    (rdPair_touches b _ d).noFault (by simp) (by simp)
  rw [decStep_eq] at h
  split at h
  case isTrue =>
    cases h
    exact .inl ⟨_, .inl rfl, raise_eq_faultEntry ..⟩
  case isFalse =>
    split at h
    case isTrue =>
      rcases decData_raises_or_noFault h with he | he
      · exact .inl ⟨_, .inr rfl, he⟩
      · exact .inr (hread.trans he)
    case isFalse =>
      cases h
      exact .inr (hread.trans (decStop_noFault _))

/-! ### Which operation raises what, and on which unit (R102, R194, R196, R212, R228) -/

/-- The causes an instruction can raise, and unit `D` as it stands when fault entry begins. -/
inductive Raises (b : Build) (d : DUnit) : Instr → Cause → DUnit → Prop where
  | hdrRd {cause : Cause} (h : cause = .hdrShort ∨ cause = .badMagic) :
      Raises b d .hdrRd cause { d with byteIn := (srcRead d.byteIn 6).2 }
  | dStart {cause : Cause} (h : cause = .hdrShort ∨ cause = .badMagic) :
      Raises b d .dStart cause { d with byteIn := (srcRead d.byteIn 6).2 }
  | dStep {cause : Cause} (h : cause = .corruptTrunc ∨ cause = .corruptCode) :
      Raises b d .dStep cause (rdPair b (bitlen d.next.toNat) d).2.2
  | pairData (w : Nat) (code : Code) (sym : Byte) :
      Raises b d (.pairData w code sym) .corruptCode { d with code := code, sym := sym }
  | hdr (magic : BitVec 32) (prot : BitVec 16) : Raises b d (.hdr magic prot) .badMagic d

/-- `OOM` is reserved (R226). -/
theorem Raises.ne_oom {b : Build} {d u : DUnit} {i : Instr} {cause : Cause} (h : Raises b d i cause u) : cause ≠ .oom := by
  cases h with
  | hdrRd h => rcases h with rfl | rfl <;> decide
  | dStart h => rcases h with rfl | rfl <;> decide
  | dStep h => rcases h with rfl | rfl <;> decide
  | pairData => decide
  | hdr => decide

/-- Unit `D` has gone through fault entry for a cause the instruction can raise. -/
def Faults (b : Build) (i : Instr) (d d' : DUnit) : Prop := ∃ cause u, Raises b d i cause u ∧ d' = faultEntry cause u

/-- All an operation can make of unit `D`'s status and phase: a fault entry of its own, or none. -/
theorem exec_faults_or_noFault {i : Instr} {s t : State} (h : exec i s = .next t) :
    Faults s.build i s.d t.d ∨ NoFault s.d t.d := by
  by_cases hw : .phase ∈ writesD i
  · cases i with
    | hdrRd =>
      cases h
      rcases hdrRd_accepts_or_raises s.build s.d with ⟨-, hread⟩ | ⟨-, cause, hcause, hread⟩
      · exact .inr hread
      · exact .inl ⟨cause, _, .hdrRd hcause, hread⟩
    | dStart =>
      cases of_guarded h
      rcases hdrRd_accepts_or_raises s.build s.d with ⟨hok, hread⟩ | ⟨hrej, cause, hcause, hread⟩
      · have hstart := decStart_of_accepted hok
        exact .inr ⟨(congrArg DUnit.status hstart).trans hread.status, congrArg DUnit.phase hstart ▸ .run _⟩
      · exact .inl ⟨cause, _, .dStart hcause, (decStart_of_rejected hrej).trans hread⟩
    | dStep =>
      obtain ⟨d', hstep, hend⟩ := andThen_eq_next (of_guarded h)
      cases hend
      rcases decStep_raises_or_noFault hstep with ⟨cause, hcause, hd'⟩ | hd'
      · exact .inl ⟨cause, _, .dStep hcause, hd'⟩
      · exact .inr hd'
    | hdr magic prot =>
      cases h
      by_cases hm : magic = s.build.magic
      · rw [takeHeader_accepted hm]
        exact .inr ⟨rfl, .of_eq rfl⟩
      · rw [takeHeader_rejected hm]
        exact .inl ⟨_, _, .hdr magic prot, rfl⟩
    | pairData w code sym =>
      obtain ⟨d', hdata, hend⟩ := andThen_eq_next h
      cases hend
      rcases decData_raises_or_noFault hdata with hd' | hd'
      · exact .inl ⟨_, _, .pairData w code sym, hd'⟩
      · exact .inr ⟨hd'.status, hd'.phase⟩
    | pairStop w sym =>
      cases h
      exact .inr ⟨(decStop_noFault _).status, .done _⟩
    | _ => exact absurd hw (by simp)
  · exact .inr ((exec_frame h).d.noFault hw (by cases i <;> simp at hw ⊢))

/-- No instruction that can change unit `D`'s phase writes unit `C` (R20). -/
theorem writesC_eq_nil_of_phase_mem_writesD {i : Instr} (h : .phase ∈ writesD i) : writesC i = [] := by
  cases i <;> simp at h ⊢

/-- Settles O34: a phase newly `FAULT` is a fault entry of the instruction's own, and such an instruction leaves unit `C`. -/
theorem faultEntryChangesNothingElse : Obligations.FaultEntryChangesNothingElse := by
  intro i s t h hs ht
  have hframe := exec_frame h
  have hphase : .phase ∈ writesD i := by
    by_contra hw
    exact hs ((hframe.d .phase hw).symm.trans ht)
  have hc : t.c = s.c := (writesC_eq_nil_of_phase_mem_writesD hphase ▸ hframe.c).eq_of_nil
  refine ⟨nextOpD_eq_none (by simp [ht]) (by simp [ht]), hc, hframe.build, hframe.sched, ?entry⟩
  case entry =>
    rcases exec_faults_or_noFault h with ⟨cause, u, hraises, hd⟩ | hno
    · rw [hd]
      cases hraises with
      | hdrRd hcause => exact ⟨hcause, rfl⟩
      | dStart hcause => exact ⟨hcause, rfl⟩
      | dStep hcause => exact ⟨hcause, rfl⟩
      | pairData => rfl
      | hdr => rfl
    · exact absurd ht (hno.phase.ne_fault hs)

/-- Settles O35: unit `C` only moves on, its status is written by no operation, and what unit `D` can raise is never `OOM`. -/
theorem unitCNeverFaults : Obligations.UnitCNeverFaults := by
  intro i s t h
  have hstatus : t.c.status = s.c.status := ((exec_frame h).c .fixed (by cases i <;> simp)).2.2.2
  refine ⟨(exec_goesOn_c h).ne_fault, hstatus.trans, fun hoom => ?_⟩
  rcases exec_faults_or_noFault h with ⟨cause, u, hraises, hd⟩ | hno
  · rw [hd]
    exact hraises.ne_oom
  · rwa [hno.status]

end Sys2Proof.Machine
end

section
/-! The end of a run (R230, R250): a unit moves in `IDLE` or `RUN` only, and nothing but its reset takes it back to `IDLE`. -/

namespace Sys2Proof.Machine

/-- From `IDLE` or `RUN`, and not back into `IDLE`. -/
structure Moves (p p' : Phase) : Prop where
  alive    : p = .idle ∨ p = .run
  noReturn : p' = .idle → p = .idle

theorem Moves.of_idle {p p' : Phase} (h : p = .idle) : Moves p p' := ⟨.inl h, fun _ => h⟩

theorem Moves.of_run {p p' : Phase} (h : p = .run) (h' : p' ≠ .idle) : Moves p p' := ⟨.inr h, fun hi => absurd hi h'⟩

theorem Moves.not_ended {p p' : Phase} (h : Moves p p') : ¬(p = .done ∨ p = .fault) := by
  rcases h.alive with rfl | rfl <;> decide

/-- What a step without its reset pulse can make of unit `C`: nothing but a change of the pin `c_prot`, or a move. -/
def KeptOrMovesC (c c' : CUnit) : Prop := c' = { c with protPin := c'.protPin } ∨ Moves c.phase c'.phase

/-- What a step without its reset pulse can make of unit `D`: nothing, or a move. -/
def KeptOrMovesD (d d' : DUnit) : Prop := d' = d ∨ Moves d.phase d'.phase

theorem KeptOrMovesC.refl (c : CUnit) : KeptOrMovesC c c := .inl rfl

theorem KeptOrMovesD.refl (d : DUnit) : KeptOrMovesD d d := .inl rfl

/-- At the end of a run there is no move left. -/
theorem KeptOrMovesC.of_ended {c c' : CUnit} (h : KeptOrMovesC c c') (hend : c.phase = .done ∨ c.phase = .fault) :
    c' = { c with protPin := c'.protPin } := h.resolve_right fun hm => hm.not_ended hend

theorem KeptOrMovesD.of_ended {d d' : DUnit} (h : KeptOrMovesD d d') (hend : d.phase = .done ∨ d.phase = .fault) :
    d' = d := h.resolve_right fun hm => hm.not_ended hend

theorem KeptOrMovesC.idle_before {c c' : CUnit} (h : KeptOrMovesC c c') (hi : c'.phase = .idle) : c.phase = .idle := by
  rcases h with hk | hm
  · exact (congrArg CUnit.phase hk).symm.trans hi
  · exact hm.noReturn hi

theorem KeptOrMovesD.idle_before {d d' : DUnit} (h : KeptOrMovesD d d') (hi : d'.phase = .idle) : d.phase = .idle := by
  rcases h with rfl | hm
  · exact hi
  · exact hm.noReturn hi

theorem decStep_ne_idle {b : Build} {d e : DUnit} (hr : d.phase = .run) (h : decStep b d = .next e) : e.phase ≠ .idle := by
  rcases decStep_raises_or_noFault h with ⟨cause, -, rfl⟩ | hno
  · exact Phase.noConfusion
  · exact hno.phase.ne_idle (by simp [hr])

/-- An agent step moves its own unit and keeps the other (R9, R174, R175, R196, R198). -/
theorem AgentMove.keptOrMoves {b : Build} {c c' : CUnit} {d d' : DUnit}
    {o : Host.Outcome (CUnit × DUnit) Fault Refusal} (ho : AgentMove b c d o) (h : o = .next (c', d')) :
    KeptOrMovesC c c' ∧ KeptOrMovesD d d' := by
  cases ho with
  | cStart hi =>
    cases h
    exact ⟨.inr (.of_idle hi), .refl d⟩
  | cStep hr =>
    cases h
    exact ⟨.inr (.of_run hr ((encStep_goesOn b c).ne_idle (by simp [hr]))), .refl d⟩
  | dStart hi =>
    cases h
    exact ⟨.refl c, .inr (.of_idle hi)⟩
  | dStep hr =>
    obtain ⟨e, he, hend⟩ := andThen_eq_next h
    cases hend
    exact ⟨.refl c, .inr (.of_run hr (decStep_ne_idle hr he))⟩

/-- A guarded move that went on met its guard. -/
theorem of_guarded_next {p : Prop} [Decidable p] {t u : State} {r : Refusal}
    (h : (if p then .next t else .refused r : Host.Outcome State Fault Refusal) = .next u) : p ∧ t = u := by
  split at h
  case isTrue hp => exact ⟨hp, Host.Outcome.next.inj h⟩
  case isFalse => cases h

theorem hostByteIn_keptOrMoves {tape : List Byte} {s t : State} (h : hostByteIn tape s = .next t) :
    KeptOrMovesC s.c t.c ∧ KeptOrMovesD s.d t.d := by
  obtain ⟨⟨hi, -⟩, rfl⟩ := of_guarded_next h
  exact ⟨.refl _, .inr (.of_idle hi)⟩

/-- A host move is the pulse of a unit's reset, or keeps the unit or finds it in `IDLE` (R250, R254, R256). -/
theorem hostStep_keptOrMoves {m : HostMove} {s t : State} (h : hostStep m s = .next t) :
    (m = .pulseCRst ∨ KeptOrMovesC s.c t.c) ∧ (m = .pulseDRst ∨ KeptOrMovesD s.d t.d) := by
  cases m with
  | pulseCRst =>
    cases h
    exact ⟨.inl rfl, .inr (.refl _)⟩
  | pulseDRst =>
    cases h
    exact ⟨.inr (.refl _), .inl rfl⟩
  | supplySymIn tape =>
    obtain ⟨⟨hi, -⟩, rfl⟩ := of_guarded_next h
    exact ⟨.inr (.inr (.of_idle hi)), .inr (.refl _)⟩
  | supplyByteIn tape => exact (hostByteIn_keptOrMoves h).imp .inr .inr
  | carry =>
    rw [hostStep, hostCarry] at h
    split at h
    case isTrue => exact (hostByteIn_keptOrMoves h).imp .inr .inr
    case isFalse => cases h
  | driveCProt prot =>
    rw [hostStep, hostProt] at h
    split at h
    case isTrue => cases h
    case isFalse =>
      cases h
      exact ⟨.inr (.inl rfl), .inr (.refl _)⟩
  | setCGo =>
    obtain ⟨⟨hi, -⟩, rfl⟩ := of_guarded_next h
    exact ⟨.inr (.inr (.of_idle hi)), .inr (.refl _)⟩
  | setDGo =>
    obtain ⟨⟨hi, -⟩, rfl⟩ := of_guarded_next h
    exact ⟨.inr (.refl _), .inr (.inr (.of_idle hi))⟩

/-- The next event is this move of the host. -/
def HostNext (s : State) (m : HostMove) : Prop := ∃ es, s.sched = .host m :: es

/-- Each unit has its reset pulsed, is kept, or moves. -/
theorem step_keptOrMoves {s t : State} (h : step s = .next t) :
    (HostNext s .pulseCRst ∨ KeptOrMovesC s.c t.c) ∧ (HostNext s .pulseDRst ∨ KeptOrMovesD s.d t.d) := by
  rcases step_cases s with ⟨hstep, -⟩ | ⟨o, ho, hstep⟩ | ⟨m, es, hsched, hstep⟩ <;> rw [hstep] at h
  · cases h
    exact ⟨.inr (.refl _), .inr (.refl _)⟩
  · obtain ⟨⟨c', d'⟩, hnext, hend⟩ := andThen_eq_next h
    cases hend
    exact (ho.keptOrMoves hnext).imp .inr .inr
  · have hnext {k : HostMove} (hm : m = k) : HostNext s k := ⟨es, hm ▸ hsched⟩
    exact (hostStep_keptOrMoves h).imp (Or.imp_left hnext) (Or.imp_left hnext)

/-- Settles O48: without its pulse a unit is kept, or moves, which it does in `IDLE` or `RUN` only and never back to `IDLE`. -/
theorem onlyResetLeavesTheEndOfARun : Obligations.OnlyResetLeavesTheEndOfARun := by
  intro s t h
  obtain ⟨hc, hd⟩ := step_keptOrMoves h
  exact ⟨fun hend => hc.imp_right fun hk => hk.of_ended hend, fun hend => hd.imp_right fun hk => hk.of_ended hend,
    fun hi => hc.symm.imp_left fun hk => hk.idle_before hi, fun hi => hd.symm.imp_left fun hk => hk.idle_before hi⟩

end Sys2Proof.Machine
end
